-- ==== Sys2Proof/Word.lean ====
section
/-! DEFINITION. The word types of the block: a register and a host data word are 32 bits (00_scope.md R8,
REG_WIDTH), a byte of the array and of a frame is 8 bits. -/

namespace Sys2Proof

/-- A block register or a host data word: REG_WIDTH = 32 bits (00_scope.md R8). -/
abbrev Word := BitVec 32

/-- One byte of the flash array or of a frame on the bus. -/
abbrev Byte := BitVec 8

end Sys2Proof
end

