-- ==== Sys2Proof/Config.lean ====
section
/-! DEFINITION. What one implementation fixes: the parameters of 00_scope.md R8, the constraints of R9, and the
values the spec leaves free. A parameter marked OPEN in R8 has no value here: it is an opaque constant. -/

namespace Sys2Proof

/-- The parameters a model takes (00_scope.md R8). Those with a fixed value (REG_WIDTH, ADDR_BITS, WORD_BYTES,
ERASED_BYTE, TO_RST) are constants below; the OPEN ones are the fields of this record. DESIGN CHOICE (log 1): WRP, which R8
marks OPEN and yet gives "default the empty set", is left free like the others; no default is taken. -/
structure Params where
  /-- BLK_BASE: host address of register offset 0x00. -/
  blkBase : Nat
  /-- FLASH_BASE: host address of the first byte of the region. -/
  flashBase : Nat
  /-- REGION_SIZE: bytes in the managed region. -/
  regionSize : Nat
  /-- PAGE_SIZE: bytes per erase page. -/
  pageSize : Nat
  /-- KEY1: the first unlock key word. -/
  key1 : Word
  /-- KEY2: the second unlock key word. -/
  key2 : Word
  /-- WRP: the write-protected page indices; free, the default of R8 not taken (log 1). -/
  wrp : List Nat
  /-- FLASH_OP_TIMEOUT: ticks an array operation may take. -/
  flashOpTimeout : Nat
  /-- CCR_INIT: the divider the reference init writes. -/
  ccrInit : BitVec 12
  /-- TRISE_INIT: the rise-time limit the reference init writes. -/
  triseInit : BitVec 6
  /-- TO_INIT: the wait budget the reference init writes. -/
  toInit : BitVec 16
  deriving DecidableEq, Repr

namespace Config

/-- WORD_BYTES: the programming granularity (00_scope.md R8). -/
def wordBytes : Nat := 4

/-- ERASED_BYTE (00_scope.md R8, 92_eei_decisions.md D31). -/
def erasedByte : Byte := 0xFF#8

/-- TO_RST: the reset value of I2C_TIMEOUT.TO (00_scope.md R8, 92_eei_decisions.md D17). -/
def toReset : BitVec 16 := 0xFFFF#16

/-- The size in bytes of the register window (20_memory.md R80). -/
def windowSize : Nat := 0x40

end Config

namespace Params

/-- R9: `PAGE_SIZE` is a multiple of `WORD_BYTES`. -/
def pageOfWords (p : Params) : Bool := p.pageSize % Config.wordBytes == 0

/-- R9: `REGION_SIZE` is a multiple of `PAGE_SIZE` and is not 0. -/
def regionOfPages (p : Params) : Bool := p.regionSize % p.pageSize == 0 && p.regionSize != 0

/-- R9: `FLASH_BASE` is a multiple of `PAGE_SIZE`. -/
def baseOfPages (p : Params) : Bool := p.flashBase % p.pageSize == 0

/-- R9: `FLASH_BASE + REGION_SIZE <= 2^32`. -/
def regionInSpace (p : Params) : Bool := decide (p.flashBase + p.regionSize ≤ 2 ^ 32)

/-- R9: every element of `WRP` is less than `REGION_SIZE / PAGE_SIZE`. -/
def wrpInRegion (p : Params) : Bool := p.wrp.all fun i => decide (i < p.regionSize / p.pageSize)

/-- R9: `BLK_BASE` is a multiple of 4. -/
def windowAligned (p : Params) : Bool := p.blkBase % 4 == 0

/-- R9: `BLK_BASE + 0x40 <= 2^32`. -/
def windowInSpace (p : Params) : Bool := decide (p.blkBase + Config.windowSize ≤ 2 ^ 32)

/-- R9: the register window does not overlap the flash region. -/
def windowApart (p : Params) : Bool :=
  decide (p.blkBase + Config.windowSize ≤ p.flashBase) || decide (p.flashBase + p.regionSize ≤ p.blkBase)

/-- R8: `KEY1 != KEY2`. -/
def keysDiffer (p : Params) : Bool := p.key1 != p.key2

/-- R8: `FLASH_OP_TIMEOUT` is at least 1. -/
def timeoutPositive (p : Params) : Bool := decide (1 ≤ p.flashOpTimeout)

/-- Every constraint of 00_scope.md R8 and R9. -/
def valid (p : Params) : Bool :=
  p.pageOfWords && p.regionOfPages && p.baseOfPages && p.regionInSpace && p.wrpInRegion && p.windowAligned &&
    p.windowInSpace && p.windowApart && p.keysDiffer && p.timeoutPositive

end Params

namespace Config

/-- A configuration together with the proof that it keeps 00_scope.md R9. The default values of the fields only
show Lean that such a configuration exists (they are the test values of 95_test_vectors.md section 0); they are
not the value of any constant. -/
structure Admissible where
  params : Params := {
    blkBase := 0x40000000, flashBase := 0x10000, regionSize := 0x4000, pageSize := 0x400,
    key1 := 0x0BADC0DE#32, key2 := 0x5EED1234#32, wrp := [14], flashOpTimeout := 4,
    ccrInit := 0x028#12, triseInit := 0x0C#6, toInit := 0x0100#16 }
  ok : params.valid = true := by decide
  deriving Inhabited

/-- DESIGN CHOICE (safe, log 1). The implementation's parameters: OPEN in 00_scope.md R8, so no proof can see them, not
even that WRP is the empty set, its default in R8. -/
opaque chosen : Admissible

/-- The implementation's parameters, which State.reset copies (log 1). -/
def params : Params := chosen.params

/-- DESIGN CHOICE (safe, log 9). The array content at first power-up, as address and byte pairs in the order they
take effect: unspecified and drawn (10_state.md R52, 93_implementation_defined.md U7). -/
opaque powerUpCells : List Host.Cell

/-- DESIGN CHOICE (safe, log 10). The byte an environment's draw leaves at an address of its target for which
State.sched lists no byte (41_flash_programmer.md R226, 70_reset_and_hazards.md R322). -/
opaque undrawnByte : Nat → Byte

/-- DESIGN CHOICE (safe, log 16). A byte of the host's own memory outside the payload: not the block's
(20_memory.md R80, R81), read only by a host program's LD statement. -/
opaque hostMemoryByte : Nat → Byte

end Config

end Sys2Proof
end

