-- ==== Sys2Proof/Syntax.lean ====
section
/-! DEFINITION. The instructions of the block (one constructor per row of spec/opcode_table.json), its ten
registers by name, and the notation of host programs (42_driver_sequences.md R260). -/

namespace Sys2Proof

/-- The ten block registers (30_encoding.md R116). -/
inductive Reg where
  | i2cCtrl | i2cTiming | i2cTimeout | i2cCmd | i2cStat
  | flKey | flCmd | flAddr | flData | flStat
  deriving DecidableEq, Repr

/-- The three registers a write to which is a command or a key word (30_encoding.md R135). -/
inductive CmdReg where
  /-- I2C_CMD, offset 0x0C. -/
  | i2cCmd
  /-- FL_CMD, offset 0x24. -/
  | flCmd
  /-- FL_KEY, offset 0x20. -/
  | flKey
  deriving DecidableEq, Repr

/-- The instructions: what one write of a valid word to I2C_CMD, FL_CMD or FL_KEY asks for (00_scope.md R3). The
operand types have the widths of the encoding, so that every term is one a word can carry. -/
inductive Instr where
  /-- I2C.NOP (40_i2c_master.md R185). -/
  | i2cNop
  /-- I2C.START (40_i2c_master.md R181). -/
  | i2cStart
  /-- I2C.ADDRW(a), `a` the 7-bit target address (40_i2c_master.md R182). -/
  | i2cAddrw (a : BitVec 7)
  /-- I2C.WRITE(b), `b` the data byte (40_i2c_master.md R183). -/
  | i2cWrite (b : Byte)
  /-- I2C.STOP (40_i2c_master.md R184). -/
  | i2cStop
  /-- FL.NOP (41_flash_programmer.md R216). -/
  | flNop
  /-- FL.ERASE_PAGE (41_flash_programmer.md R217). -/
  | flErasePage
  /-- FL.PROGRAM_WORD (41_flash_programmer.md R218). -/
  | flProgramWord
  /-- FL.LOCK (41_flash_programmer.md R219). -/
  | flLock
  /-- FL.KEY(key), a key word (41_flash_programmer.md R211). -/
  | flKey (key : Word)
  deriving DecidableEq, Repr

/-- The width of a host access: `h_size` in 1, 2 or 4 bytes (30_encoding.md R111). -/
inductive Size where
  | one | two | four
  deriving DecidableEq, Repr

/-- The number of bytes of an access. -/
def Size.bytes : Size → Nat
  | .one => 1
  | .two => 2
  | .four => 4

/-- An expression of a host program, over naturals (42_driver_sequences.md R260). -/
inductive Expr where
  | lit (n : Nat)
  | var (x : String)
  | add (a b : Expr)
  | sub (a b : Expr)
  | mul (a b : Expr)
  | div (a b : Expr)
  | mod (a b : Expr)
  | shl (a b : Expr)
  | shr (a b : Expr)
  | band (a b : Expr)
  | bor (a b : Expr)
  /-- `b[i]`, byte `i` of a macro's byte list argument (42_driver_sequences.md R266). -/
  | byteOf (bs : List Byte) (i : Expr)
  deriving DecidableEq, Repr

/-- A condition of an `IF` (42_driver_sequences.md R260, R266, R270, R274). DESIGN CHOICE (log 15): R260 does not say
which conditions an IF may hold; these are the ones the macros of the file use, `=`, `!=`, `>` and `or`. -/
inductive Cond where
  | eq (a b : Expr)
  | ne (a b : Expr)
  | gt (a b : Expr)
  | or (c d : Cond)
  deriving DecidableEq, Repr

/-- The tag of an `Err(tag, x)` result: INVALID (R266), a register name (R262), or another name a caller gives. DESIGN
CHOICE (log 15): R260 does not say which tags an Err may carry; the model takes any name. -/
inductive ErrTag where
  | invalid
  | reg (r : Reg)
  /-- A tag of the program's own, for example BusNack. -/
  | named (name : String)
  deriving DecidableEq, Repr

/-- A host program: the statements of 42_driver_sequences.md R260, with sequencing. -/
inductive HostProg where
  /-- The empty list of statements. -/
  | done
  /-- `p` and then `q`. -/
  | seq (p q : HostProg)
  /-- `WR REG, e`. -/
  | wr (r : Reg) (e : Expr)
  /-- `RD REG -> x`. -/
  | rd (r : Reg) (x : String)
  /-- `WAIT REG, mask, val, errmask -> x` (R262). -/
  | wait (r : Reg) (mask val errmask : Expr) (x : Option String)
  /-- `LD x <- MemRead(a, n)`. -/
  | ld (x : String) (a : Expr) (n : Size)
  /-- `LDF x <- Flash(a, n)`. -/
  | ldf (x : String) (a : Expr) (n : Size)
  /-- `let x = e`. -/
  | bind (x : String) (e : Expr)
  /-- `let x = WORD_AT(src, off, len)` (R273). -/
  | bindWordAt (x : String) (src off len : Expr)
  /-- `FOR i IN a TO b STEP s { body }`. -/
  | forLoop (i : String) (a b s : Expr) (body : HostProg)
  /-- `IF c { body }`. -/
  | ifThen (c : Cond) (body : HostProg)
  /-- `CALL M(args)`: the macro's argument names with their values, and its body. -/
  | call (args : List (String × Expr)) (body : HostProg)
  /-- `RET Ok`. -/
  | retOk
  /-- `RET Err(tag, e)`. -/
  | retErr (tag : ErrTag) (e : Expr)
  /-- `HALT`. -/
  | halt
  deriving DecidableEq, Repr

end Sys2Proof
end

