-- ==== Sys2Proof/WellFormed.lean ====
section
/-! DEFINITION. Which values are well formed: the validity of a command word, stated from the fields of the word
as 30_encoding.md R126, R130 and R136 state it (and not from the decoder), and the configurations of
00_scope.md R9 (`Params.valid` in Config.lean). -/

namespace Sys2Proof

/-- R126: `v[31:16] = 0`. -/
def i2cHighZero (v : Word) : Bool := v.extractLsb' 16 16 == 0#16

/-- R126: `v[7:4] = 0`. -/
def i2cMiddleZero (v : Word) : Bool := v.extractLsb' 4 4 == 0#4

/-- R126: `v[3:0] <= 4`. -/
def i2cOpDefined (v : Word) : Bool := decide ((v.extractLsb' 0 4).toNat ≤ 4)

/-- R126: `v[15:8] = 0` when `v[3:0]` is 0, 1 or 4. -/
def i2cNoArg (v : Word) : Bool :=
  !(v.extractLsb' 0 4 == 0#4 || v.extractLsb' 0 4 == 1#4 || v.extractLsb' 0 4 == 4#4) || v.extractLsb' 8 8 == 0#8

/-- R126: `v[15] = 0` when `v[3:0] = 2`. -/
def i2cAddrArg (v : Word) : Bool := !(v.extractLsb' 0 4 == 2#4) || !v.getLsbD 15

/-- A value written to I2C_CMD is a valid command (30_encoding.md R126). -/
def validI2cWord (v : Word) : Bool :=
  i2cHighZero v && i2cMiddleZero v && i2cOpDefined v && i2cNoArg v && i2cAddrArg v

/-- R130: bits 31:4 of FL_CMD must be 0. -/
def flHighZero (v : Word) : Bool := v.extractLsb' 4 28 == 0#28

/-- R130: `OP` is 0, 1, 2 or 3; 4 to 15 are reserved. -/
def flOpDefined (v : Word) : Bool := decide ((v.extractLsb' 0 4).toNat ≤ 3)

/-- A value written to FL_CMD is a valid command (30_encoding.md R130, R132). -/
def validFlWord (v : Word) : Bool := flHighZero v && flOpDefined v

/-- A value written to a command register is a valid encoding there (30_encoding.md R136; every value is a key
word, R129). -/
def validWord : CmdReg → Word → Bool
  | .i2cCmd, v => validI2cWord v
  | .flCmd, v => validFlWord v
  | .flKey, _ => true

end Sys2Proof
end

