-- ==== Sys2Proof/Decode.lean ====
section
/-! DEFINITION. The decoder: spec/opcode_table.json as a list of rows, read with mask and match, and the encoder
written from 30_encoding.md R123 to R125, R129, R130. Decoding is total: a word that no row of its register
matches is a reserved encoding, named (30_encoding.md R126, R132, R136). -/

namespace Sys2Proof

/-- The register a command word is written to: its decoder is chosen by the register offset alone
(30_encoding.md R135). -/
def Instr.reg : Instr → CmdReg
  | .i2cNop | .i2cStart | .i2cAddrw _ | .i2cWrite _ | .i2cStop => .i2cCmd
  | .flNop | .flErasePage | .flProgramWord | .flLock => .flCmd
  | .flKey _ => .flKey

/-- The offsets of the command registers (30_encoding.md R116). -/
def CmdReg.offset : CmdReg → Nat
  | .i2cCmd => 0x0C
  | .flCmd => 0x24
  | .flKey => 0x20

/-- The command register at an offset, if there is one (30_encoding.md R116, R135). -/
def CmdReg.ofOffset (off : Nat) : Option CmdReg :=
  if off = 0x0C then some .i2cCmd
  else if off = 0x24 then some .flCmd
  else if off = 0x20 then some .flKey
  else none

/-- One row of spec/opcode_table.json: a word `v` of register `reg` with `v & mask = pat` is the row's
instruction, whose operands `make` reads from the row's fields. -/
structure OpcodeRow where
  mnemonic : String
  reg : CmdReg
  pat : Word
  mask : Word
  make : Word → Instr

/-- spec/opcode_table.json, in its order. -/
def opcodeTable : List OpcodeRow := [
  ⟨"I2C.NOP", .i2cCmd, 0x00000000#32, 0xFFFFFFFF#32, fun _ => .i2cNop⟩,
  ⟨"I2C.START", .i2cCmd, 0x00000001#32, 0xFFFFFFFF#32, fun _ => .i2cStart⟩,
  ⟨"I2C.ADDRW", .i2cCmd, 0x00000002#32, 0xFFFF80FF#32, fun v => .i2cAddrw (v.extractLsb' 8 7)⟩,
  ⟨"I2C.WRITE", .i2cCmd, 0x00000003#32, 0xFFFF00FF#32, fun v => .i2cWrite (v.extractLsb' 8 8)⟩,
  ⟨"I2C.STOP", .i2cCmd, 0x00000004#32, 0xFFFFFFFF#32, fun _ => .i2cStop⟩,
  ⟨"FL.NOP", .flCmd, 0x00000000#32, 0xFFFFFFFF#32, fun _ => .flNop⟩,
  ⟨"FL.ERASE_PAGE", .flCmd, 0x00000001#32, 0xFFFFFFFF#32, fun _ => .flErasePage⟩,
  ⟨"FL.PROGRAM_WORD", .flCmd, 0x00000002#32, 0xFFFFFFFF#32, fun _ => .flProgramWord⟩,
  ⟨"FL.LOCK", .flCmd, 0x00000003#32, 0xFFFFFFFF#32, fun _ => .flLock⟩,
  ⟨"FL.KEY", .flKey, 0x00000000#32, 0x00000000#32, fun v => .flKey v⟩ ]

/-- The row matches the word. -/
def OpcodeRow.fits (row : OpcodeRow) (v : Word) : Bool := v &&& row.mask == row.pat

/-- The first row of a list that fits the word, as its instruction. -/
def firstFit : List OpcodeRow → Word → Option Instr
  | [], _ => none
  | row :: rows, v => if row.fits v then some (row.make v) else firstFit rows v

/-- Why a word is no instruction. Both are written by the step into the engine's error state as CMD_RESERVED
(30_encoding.md R126, R132): a defined result and no fault. -/
inductive ReservedWord where
  /-- A value of I2C_CMD that is not a valid command (30_encoding.md R126). -/
  | i2cCmd (v : Word)
  /-- A value of FL_CMD that is not one of the four valid encodings (30_encoding.md R132). -/
  | flCmd (v : Word)
  /-- No row of FL_KEY fits: never the case, since every value is a key word (30_encoding.md R129). -/
  | flKey (v : Word)
  deriving DecidableEq, Repr

/-- The name of a rejected word of a register. -/
def reservedWord : CmdReg → Word → ReservedWord
  | .i2cCmd, v => .i2cCmd v
  | .flCmd, v => .flCmd v
  | .flKey, v => .flKey v

/-- The decoder of one command register (30_encoding.md R135, R136): total on any word. -/
def decode (r : CmdReg) (v : Word) : Except ReservedWord Instr :=
  match firstFit (opcodeTable.filter fun row => row.reg == r) v with
  | some i => .ok i
  | none => .error (reservedWord r v)

/-- The word of an instruction (30_encoding.md R123 to R125, R129, R130). -/
def Instr.word : Instr → Word
  | .i2cNop => 0x00000000#32
  | .i2cStart => 0x00000001#32
  | .i2cAddrw a => 0x00000002#32 ||| (a.setWidth 32 <<< 8)
  | .i2cWrite b => 0x00000003#32 ||| (b.setWidth 32 <<< 8)
  | .i2cStop => 0x00000004#32
  | .flNop => 0x00000000#32
  | .flErasePage => 0x00000001#32
  | .flProgramWord => 0x00000002#32
  | .flLock => 0x00000003#32
  | .flKey key => key

/-- The machine form of an instruction: the register written and the word (42_driver_sequences.md R263). -/
def encode (i : Instr) : CmdReg × Word := (i.reg, i.word)

/-- DESIGN CHOICE (safe, log 12). The first 32 bits of the host's numbering are the command word; the byte above
them, where it is given, is the offset of the register written. -/
def tableWordRegister (nbits w : Nat) : Nat := if nbits ≤ 32 then 0 else (w / 2 ^ 32) % 256

/-- The instruction the decoder reads from a word of spec/opcode_table.json. Where the number names a register
(bits 39 to 32), that register's decoder reads the word. A bare 32-bit word names none, and several rows of
different registers share such a word (0x00000001 is I2C.START and FL.ERASE_PAGE): then the first row of the
table that fits, in the table's order, is the answer (log 12). -/
def decodeTableWord (nbits w : Nat) : Option Instr :=
  let v := BitVec.ofNat 32 w
  let off := tableWordRegister nbits w
  if off = 0 then firstFit opcodeTable v
  else
    match CmdReg.ofOffset off with
    | none => none
    | some r =>
      match decode r v with
      | .ok i => some i
      | .error _ => none

end Sys2Proof
end

