-- ==== Sys2Proof/Machine/Array.lean ====
section
/-! DEFINITION. The flash array as plain data (10_state.md R51) and its named operations: the read of one byte,
ArrayRead and ArraySet of 00_scope.md R16, and the range of the region. -/

namespace Sys2Proof.Machine

/-- The array's cells: address and byte, addresses strictly rising, no cell equal to what an unlisted address
reads as. -/
abbrev Cells := List Host.Cell

/-- What an address that no cell lists reads as: ERASED_BYTE (00_scope.md R8). This is how content is written
down, not what the array holds at power-up: that is free (`powerUpArray`, log 9). -/
def unlistedByte : Byte := Config.erasedByte

/-- The byte at an address. -/
def readByte : Cells → Nat → Byte
  | [], _ => unlistedByte
  | c :: m, a => if c.1 = a then c.2 else readByte m a

/-- Put a cell where the addresses stay rising. -/
def insertCell : Cells → Nat → Byte → Cells
  | [], a, v => [(a, v)]
  | c :: m, a, v => if a < c.1 then (a, v) :: c :: m else c :: insertCell m a v

/-- Forget the cell of an address. -/
def dropCell (m : Cells) (a : Nat) : Cells := m.filter fun c => c.1 != a

/-- Write one byte, keeping the canonical form: the value of an unlisted address is written by forgetting. -/
def writeByte (m : Cells) (a : Nat) (v : Byte) : Cells :=
  if v = unlistedByte then dropCell m a else insertCell (dropCell m a) a v

/-- `ArraySet(T, c)` for the range that starts at `a` and has the length of `c` (00_scope.md R16). -/
def writeBytes : Cells → Nat → List Byte → Cells
  | m, _, [] => m
  | m, a, v :: vs => writeBytes (writeByte m a v) (a + 1) vs

/-- The `n` bytes at `a .. a+n-1`. -/
def readBytes (m : Cells) : Nat → Nat → List Byte
  | _, 0 => []
  | a, n + 1 => readByte m a :: readBytes m (a + 1) n

/-- Bytes assembled little-endian: `sum over i of b[i] * 2^(8*i)` (20_memory.md R84). -/
def littleEndian : List Byte → Nat
  | [] => 0
  | b :: bs => b.toNat + 256 * littleEndian bs

/-- `ArrayRead(a, n)` (00_scope.md R16, 20_memory.md R84). -/
def arrayRead (m : Cells) (a n : Nat) : Nat := littleEndian (readBytes m a n)

/-- The first address a list of cells may hold, below which none lies: the head of the canonical form. -/
def risesFrom : Nat → Cells → Bool
  | _, [] => true
  | lo, c :: m => decide (lo ≤ c.1) && (c.2 != unlistedByte) && risesFrom (c.1 + 1) m

/-- The canonical form: addresses strictly rising, no cell equal to what an unlisted address reads as. -/
def Memory.wf (m : Cells) : Bool := risesFrom 0 m

/-- An address of the managed region `[FLASH_BASE, FLASH_BASE + REGION_SIZE)` (10_state.md R51). -/
def inRegion (p : Params) (a : Nat) : Bool := decide (p.flashBase ≤ a) && decide (a < p.flashBase + p.regionSize)

/-- Every cell lies in the region: the array has one byte per address of the region and no other (10_state.md R51). -/
def withinRegion (p : Params) (m : Cells) : Bool := m.all fun c => inRegion p c.1

/-- The array that a list of writes leaves, taking only addresses of the region. -/
def arrayOf (p : Params) (cs : List Host.Cell) : Cells :=
  cs.foldl (fun m c => if inRegion p c.1 then writeByte m c.1 c.2 else m) []

/-- The array at first power-up: any content of the region (10_state.md R52, log 9). -/
def powerUpArray (p : Params) : Cells := arrayOf p Config.powerUpCells

/-- The bytes a draw leaves in the range of length `n` at `a`: `draw c : bytes(|T|)` (41_flash_programmer.md R226).
The schedule lists the bytes; one it does not list is the free Config.undrawnByte (log 10). -/
def drawnBytes : List Byte → Nat → Nat → List Byte
  | _, _, 0 => []
  | [], a, n + 1 => Config.undrawnByte a :: drawnBytes [] (a + 1) n
  | b :: bs, a, n + 1 => b :: drawnBytes bs (a + 1) n

end Sys2Proof.Machine
end

