-- ==== Sys2Proof/Machine/State.lean ====
section
/-! DEFINITION. The state of the block (10_state.md), the parameters it is given, the model's own schedule, and
the reasons a step can stop. Plain data throughout. -/

namespace Sys2Proof.Machine

/-- The I2CM state `i2c.st` (10_state.md R36). -/
inductive I2cSt where
  | off | idle | starting | started | addressing | ready | transmitting | stopping
  deriving DecidableEq, Repr

/-- The micro-phase `i2c.ph` (10_state.md R37); `noPhase` is the spec's NONE. -/
inductive I2cPhase where
  | noPhase
  | s0 | s1
  | b0 | b1 | b2 | b3
  | a0 | a1 | a2 | a3
  | p0 | p1 | p2 | p3
  deriving DecidableEq, Repr

/-- The I2CM error codes 1 to 9 (60_exceptions.md R291). Code 0 is the absence of a code. -/
inductive I2cError where
  | cmdReserved | cmdDisabled | cmdSequence
  | nackAddr | nackData
  | timeoutStart | timeoutAddr | timeoutData | timeoutStop
  deriving DecidableEq, Repr

/-- The FPROG error codes 1 to 12 (60_exceptions.md R292). Code 0 is the absence of a code. -/
inductive FlError where
  | cmdReserved | busy | locked | key | range | align
  | wrp
  | notErased | eraseFail | progFail | arrayTimeout
  | verify
  deriving DecidableEq, Repr

/-- The I2CM registers and internal state (10_state.md R33 to R44). -/
structure I2cState where
  /-- I2C_CTRL.EN (R33). -/
  en : Bool
  /-- I2C_TIMING.CCR (R34). -/
  ccr : BitVec 12
  /-- I2C_TIMING.FS (R34). -/
  fs : Bool
  /-- I2C_TIMING.TRISE (R34). -/
  trise : BitVec 6
  /-- I2C_TIMEOUT.TO, the wait budget (R35). -/
  budget : BitVec 16
  /-- `i2c.st` (R36). -/
  st : I2cSt
  /-- `i2c.ph` (R37). -/
  ph : I2cPhase
  /-- `i2c.shreg` (R38). -/
  shreg : Byte
  /-- `i2c.txbyte` (R38). -/
  txbyte : Byte
  /-- `i2c.bitcnt`, 0 to 8 (R38). -/
  bitcnt : Nat
  /-- `i2c.ack` (R38). -/
  ack : Bool
  /-- `i2c.wcnt` (R38). -/
  wcnt : BitVec 16
  /-- `i2c.sent` (R39). -/
  sent : Bool
  /-- `i2c.spend` (R40). -/
  spend : Bool
  /-- `i2c.scl_drv` (R41). -/
  sclDrv : Bool
  /-- `i2c.sda_drv` (R41). -/
  sdaDrv : Bool
  /-- NACKF (R44). -/
  nackf : Bool
  /-- TOF (R44). -/
  tof : Bool
  /-- CMDERR of I2CM (R44). -/
  cmderr : Bool
  /-- `i2c.errcode` (R44); `none` is code 0. -/
  errcode : Option I2cError
  deriving DecidableEq, Repr

/-- `fl.opstate` (10_state.md R48). -/
inductive FlOpstate where
  | idle | erase | program | verify
  deriving DecidableEq, Repr

/-- `fl.kind` (10_state.md R48). -/
inductive FlKind where
  | erase | program
  deriving DecidableEq, Repr

/-- `fl.ph` (10_state.md R48). -/
inductive FlPhase where
  | issue | await
  deriving DecidableEq, Repr

/-- The FPROG registers and internal state (10_state.md R45 to R50). -/
structure FlashState where
  /-- FL_ADDR (R45). -/
  addr : Word
  /-- FL_DATA (R45). -/
  data : Word
  /-- `fl.locked` (R46). -/
  locked : Bool
  /-- `fl.keyseq` (R46). -/
  keyseq : Bool
  /-- `fl.opstate` (R48). -/
  opstate : FlOpstate
  /-- `fl.kind` (R48). -/
  kind : FlKind
  /-- `fl.ph` (R48). -/
  ph : FlPhase
  /-- `fl.op_addr` (R48). -/
  opAddr : Word
  /-- `fl.op_data` (R48). -/
  opData : Word
  /-- `fl.wcnt`, a natural below FLASH_OP_TIMEOUT (R32, R48). -/
  wcnt : Nat
  /-- EOP (R50). -/
  eop : Bool
  /-- WRPERR (R50). -/
  wrperr : Bool
  /-- PGERR (R50). -/
  pgerr : Bool
  /-- VERR (R50). -/
  verr : Bool
  /-- CMDERR of FPROG (R50). -/
  cmderr : Bool
  /-- `fl.errcode` (R50); `none` is code 0. -/
  errcode : Option FlError
  deriving DecidableEq, Repr

/-- What a bus observer sees (10_state.md R47). -/
inductive BusEvent where
  | start
  | frame (b : Byte) (ack : Bool)
  | stop
  | release
  deriving DecidableEq, Repr

/-- The bus environment's draws of one sample of each line: true when no other device pulls it low (10_state.md R42). -/
structure BusLines where
  scl : Bool
  sda : Bool
  deriving DecidableEq, Repr

/-- The array's answer of one AWAIT tick (41_flash_programmer.md R226); `noAnswer` is the spec's NONE. -/
inductive ArrayAnswer where
  | noAnswer | ok | silent | fail
  deriving DecidableEq, Repr

/-- The status the array reports on `a_rdata` while an erase or program is outstanding (30_encoding.md R113 (c)). -/
inductive ArrayStatus where
  | busy | ok | fail
  deriving DecidableEq, Repr

/-- Where a host access goes: register offset `off` (00_scope.md R16), or a host address `h_addr` (30_encoding.md R111). -/
inductive HostTarget where
  | reg (off : Nat)
  | addr (a : Word)
  deriving DecidableEq, Repr

/-- One host access: its target, `h_size`, and the data of a write (none for a read) (30_encoding.md R111). -/
structure HostAccess where
  target : HostTarget
  size : Size
  wdata : Option Word
  deriving DecidableEq, Repr

/-- What the host port answered last (30_encoding.md R111). -/
inductive HostResponse where
  /-- No access answered yet. -/
  | idle
  /-- A write was accepted. -/
  | written
  /-- A read was accepted: `h_rdata`. -/
  | value (v : Word)
  /-- `h_ready = 0`: the access is held (20_memory.md R90). -/
  | held
  /-- `h_err = 1`: HostBusError (20_memory.md R86). -/
  | error
  deriving DecidableEq, Repr

/-- Which agent moves, with every draw its step may read (00_scope.md R10, R11, R17; log 2). -/
inductive Turn where
  /-- The host performs its next access; the lines are sampled if it reads I2C_STAT. -/
  | host (env : BusLines)
  /-- An I2CM tick. -/
  | i2cTick (env : BusLines)
  /-- An FPROG tick: the array's answer, and the content it leaves where that is drawn. -/
  | flTick (answer : ArrayAnswer) (content : List Byte)
  /-- Reset: the content a cut-short operation leaves (70_reset_and_hazards.md R322). -/
  | reset (content : List Byte)
  deriving DecidableEq, Repr

/-- The whole state: the record Block of 10_state.md, the parameters it is given, and the model's own fields. -/
structure State where
  /-- The fixed arguments of the block (00_scope.md R8, log 1). -/
  params : Params
  /-- I2CM. -/
  i2c : I2cState
  /-- FPROG. -/
  fl : FlashState
  /-- The flash array (R51). -/
  array : Cells
  /-- The wire trace, oldest first (R47). -/
  trace : List BusEvent
  /-- The spec's model-only fault mark (R53). -/
  faulted : Bool
  /-- The model's own: the host's accesses not yet performed, in program order (log 3). -/
  hostQ : List HostAccess
  /-- The model's own: the agents that move next (log 2). -/
  sched : List Turn
  /-- The model's own: what the host port answered last (log 6). -/
  response : HostResponse
  deriving DecidableEq, Repr

/-- The three causes of HostBusError (60_exceptions.md R311). -/
inductive BusErrorCause where
  /-- An access to the register window that is not an aligned 32-bit word (20_memory.md R86). -/
  | registerAccess
  /-- A host write to the flash region (20_memory.md R82). -/
  | flashWrite
  /-- A host read of the flash region at an address that is not a multiple of its width (20_memory.md R89). -/
  | flashMisaligned
  deriving DecidableEq, Repr

/-- Why a step ends in a model fault. -/
inductive Fault where
  /-- `fault HostBusError` (60_exceptions.md R311), raised by a host access the block does not accept. `after` is
  the state it leaves: `faulted` set, nothing else of the block changed. Safe: the spec makes no claim about the
  execution after it (log 7). -/
  | hostBusError (cause : BusErrorCause) (after : State)
  deriving DecidableEq, Repr

/-- Why a step has no meaning. -/
inductive Refusal where
  /-- An instruction whose meaning is not written yet: raised by `exec` only, never in this model. Safe. -/
  | notModelled (mnemonic : String)
  /-- A host access to an address that is neither in the register window nor in the flash region: not the
  block's, "this spec says nothing of them" (20_memory.md R81). Raised by a host turn. Safe (log 8). -/
  | notTheBlock (address : Nat)
  deriving DecidableEq, Repr

/-- I2CM after reset (10_state.md R56). -/
def I2cState.reset : I2cState where
  en := false
  ccr := 0#12
  fs := false
  trise := 0#6
  budget := Config.toReset
  st := .off
  ph := .noPhase
  shreg := 0#8
  txbyte := 0#8
  bitcnt := 0
  ack := false
  wcnt := 0#16
  sent := false
  spend := false
  sclDrv := false
  sdaDrv := false
  nackf := false
  tof := false
  cmderr := false
  errcode := none

/-- FPROG after reset (10_state.md R57). -/
def FlashState.reset : FlashState where
  addr := 0#32
  data := 0#32
  locked := true
  keyseq := false
  opstate := .idle
  kind := .erase
  ph := .issue
  opAddr := 0#32
  opData := 0#32
  wcnt := 0
  eop := false
  wrperr := false
  pgerr := false
  verr := false
  cmderr := false
  errcode := none

/-- The machine right after the reset of first power-up (70_reset_and_hazards.md R320, R324): every element as
10_state.md R56 and R57 say; the array drawn (R52, log 9); trace and fault mark empty (log 11); no access and no
agent scheduled (log 2, log 3). -/
def State.reset : State where
  params := Config.params
  i2c := I2cState.reset
  fl := FlashState.reset
  array := powerUpArray Config.params
  trace := []
  faulted := false
  hostQ := []
  sched := []
  response := .idle

end Sys2Proof.Machine
end

