-- ==== Sys2Proof/Machine/Flags.lean ====
section
/-! DEFINITION. The status conditions and the status words: the codes of 10_state.md R36, R48 and 60_exceptions.md
R291, R292, the flag each error sets (R293), the derived flags of 10_state.md R43, R49, and the words a read of
each register returns (30_encoding.md R117 to R131). -/

namespace Sys2Proof.Machine

/-- The 4-bit code of an I2CM state (10_state.md R36). -/
def I2cSt.code : I2cSt → BitVec 4
  | .off => 0#4
  | .idle => 1#4
  | .starting => 2#4
  | .started => 3#4
  | .addressing => 4#4
  | .ready => 5#4
  | .transmitting => 6#4
  | .stopping => 7#4

/-- The code of an I2CM error (60_exceptions.md R291). -/
def I2cError.code : I2cError → BitVec 4
  | .cmdReserved => 1#4
  | .cmdDisabled => 2#4
  | .cmdSequence => 3#4
  | .nackAddr => 4#4
  | .nackData => 5#4
  | .timeoutStart => 6#4
  | .timeoutAddr => 7#4
  | .timeoutData => 8#4
  | .timeoutStop => 9#4

/-- The error flags of I2CM. -/
inductive I2cFlag where
  | nackf | tof | cmderr
  deriving DecidableEq, Repr

/-- The one flag an I2CM error sets (60_exceptions.md R293). -/
def I2cError.flag : I2cError → I2cFlag
  | .cmdReserved | .cmdDisabled | .cmdSequence => .cmderr
  | .nackAddr | .nackData => .nackf
  | .timeoutStart | .timeoutAddr | .timeoutData | .timeoutStop => .tof

/-- The 2-bit code of an FPROG state (10_state.md R48). -/
def FlOpstate.code : FlOpstate → BitVec 2
  | .idle => 0#2
  | .erase => 1#2
  | .program => 2#2
  | .verify => 3#2

/-- The code of an FPROG error (60_exceptions.md R292). -/
def FlError.code : FlError → BitVec 4
  | .cmdReserved => 1#4
  | .busy => 2#4
  | .locked => 3#4
  | .key => 4#4
  | .range => 5#4
  | .align => 6#4
  | .wrp => 7#4
  | .notErased => 8#4
  | .eraseFail => 9#4
  | .progFail => 10#4
  | .arrayTimeout => 11#4
  | .verify => 12#4

/-- The error flags of FPROG. -/
inductive FlFlag where
  | wrperr | pgerr | verr | cmderr
  deriving DecidableEq, Repr

/-- The one flag an FPROG error sets (60_exceptions.md R293). -/
def FlError.flag : FlError → FlFlag
  | .cmdReserved | .busy | .locked | .key | .range | .align => .cmderr
  | .wrp => .wrperr
  | .notErased | .eraseFail | .progFail | .arrayTimeout => .pgerr
  | .verify => .verr

/-- The value of ERRCODE: 0 when no error is recorded (60_exceptions.md R291). -/
def i2cErrcode : Option I2cError → BitVec 4
  | none => 0#4
  | some e => e.code

/-- The value of ERRCODE: 0 when no error is recorded (60_exceptions.md R292). -/
def flErrcode : Option FlError → BitVec 4
  | none => 0#4
  | some e => e.code

namespace I2cState

/-- `SB`, "start generated" (10_state.md R43). -/
def sb (i : I2cState) : Bool := i.st == .started

/-- `MSL`, "master" (10_state.md R43). -/
def msl (i : I2cState) : Bool :=
  i.st == .started || i.st == .addressing || i.st == .ready || i.st == .transmitting || i.st == .stopping

/-- `BUSY`, "busy" (10_state.md R43). -/
def busy (i : I2cState) : Bool :=
  i.st == .starting || i.st == .started || i.st == .addressing || i.st == .ready || i.st == .transmitting ||
    i.st == .stopping

/-- `ADDR`, "address acknowledged" (10_state.md R43). -/
def addrAcked (i : I2cState) : Bool := i.st == .ready && !i.sent

/-- `TXE`, "transmit register empty" (10_state.md R43). -/
def txe (i : I2cState) : Bool := i.st == .ready

/-- `BTF`, "byte transfer complete" (10_state.md R43). -/
def btf (i : I2cState) : Bool := i.st == .ready && i.sent

/-- `TRA` (10_state.md R43). -/
def tra (i : I2cState) : Bool := i.st == .ready || i.st == .transmitting

/-- Every I2CM error flag is 0. -/
def clean (i : I2cState) : Bool := !i.nackf && !i.tof && !i.cmderr

/-- The level of SCL at a sample: open-drain wired-AND of the master's output and the rest of the bus (10_state.md R42). -/
def sclLevel (i : I2cState) (env : BusLines) : Bool := !i.sclDrv && env.scl

/-- The level of SDA at a sample (10_state.md R42). -/
def sdaLevel (i : I2cState) (env : BusLines) : Bool := !i.sdaDrv && env.sda

/-- I2C_CTRL as read: bit 0 `EN` (30_encoding.md R117). -/
def ctrlWord (i : I2cState) : Word := 0#31 ++ BitVec.ofBool i.en

/-- I2C_TIMING as read: `CCR` 11:0, `FS` 15, `TRISE` 21:16 (30_encoding.md R118). -/
def timingWord (i : I2cState) : Word := 0#10 ++ i.trise ++ BitVec.ofBool i.fs ++ 0#3 ++ i.ccr

/-- I2C_TIMEOUT as read: bits 15:0 `TO` (30_encoding.md R119). -/
def timeoutWord (i : I2cState) : Word := 0#16 ++ i.budget

/-- I2C_STAT as read with the drawn line levels, from bit 31 down (30_encoding.md R120). -/
def statWord (i : I2cState) (env : BusLines) : Word :=
  0#4 ++ i.st.code ++ 0#6 ++ BitVec.ofBool (i.sdaLevel env) ++ BitVec.ofBool (i.sclLevel env) ++
    i2cErrcode i.errcode ++ 0#1 ++ BitVec.ofBool i.cmderr ++ BitVec.ofBool i.tof ++ BitVec.ofBool i.nackf ++
    BitVec.ofBool i.spend ++ BitVec.ofBool i.tra ++ BitVec.ofBool i.btf ++ BitVec.ofBool i.txe ++
    BitVec.ofBool i.addrAcked ++ BitVec.ofBool i.busy ++ BitVec.ofBool i.msl ++ BitVec.ofBool i.sb

end I2cState

namespace FlashState

/-- `BSY` (10_state.md R49). -/
def bsy (f : FlashState) : Bool := f.opstate != .idle

/-- Every FPROG error flag is 0. -/
def clean (f : FlashState) : Bool := !f.wrperr && !f.pgerr && !f.verr && !f.cmderr

/-- FL_STAT as read, from bit 31 down (30_encoding.md R131). -/
def statWord (f : FlashState) : Word :=
  0#14 ++ f.opstate.code ++ 0#3 ++ BitVec.ofBool f.keyseq ++ flErrcode f.errcode ++ 0#1 ++
    BitVec.ofBool f.cmderr ++ BitVec.ofBool f.verr ++ BitVec.ofBool f.pgerr ++ BitVec.ofBool f.wrperr ++
    BitVec.ofBool f.eop ++ BitVec.ofBool f.locked ++ BitVec.ofBool f.bsy

end FlashState

/-- The error mask of I2C_STAT (30_encoding.md R120). -/
def i2cErrMask : Word := 0x00000700#32

/-- The error mask of FL_STAT (30_encoding.md R131). -/
def flErrMask : Word := 0x00000078#32

/-- The W1C mask of FL_STAT (30_encoding.md R131). -/
def flW1cMask : Word := 0x0000007C#32

/-- The source's error taxonomy (60_exceptions.md R291, R292), and the host programming errors it does not name. -/
inductive Taxonomy where
  | busTimeout | busNack | eraseFailed | programFailed | verifyMismatch | hostError
  deriving DecidableEq, Repr

/-- The source's class of an I2CM error (60_exceptions.md R291). -/
def I2cError.taxonomy : I2cError → Taxonomy
  | .cmdReserved | .cmdDisabled | .cmdSequence => .hostError
  | .nackAddr | .nackData => .busNack
  | .timeoutStart | .timeoutAddr | .timeoutData | .timeoutStop => .busTimeout

/-- The class of a failure of an erase or a program. -/
def FlKind.failed : FlKind → Taxonomy
  | .erase => .eraseFailed
  | .program => .programFailed

/-- The source's class of an FPROG error, by the kind of the operation (41_flash_programmer.md R232). -/
def FlError.taxonomy (kind : FlKind) : FlError → Taxonomy
  | .wrp | .arrayTimeout => kind.failed
  | .eraseFail => .eraseFailed
  | .notErased | .progFail => .programFailed
  | .verify => .verifyMismatch
  | .cmdReserved | .busy | .locked | .key | .range | .align => .hostError

end Sys2Proof.Machine
end

