-- ==== Sys2Proof/Machine/Operands.lean ====
section
/-! DEFINITION. Operand assembly (30_encoding.md R133, R134), the fields a register write stores (R117 to R119),
and the target and intended content of a flash operation (41_flash_programmer.md R227). -/

namespace Sys2Proof.Machine

/-- The address frame byte of a target: `{a[6:0], 0}`, the low bit being the write-intent bit (30_encoding.md R133). -/
def addressFrame (a : BitVec 7) : Byte := a ++ 0#1

/-- The fields a write of `v` stores in I2C_TIMING (30_encoding.md R118). -/
def I2cState.withTiming (i : I2cState) (v : Word) : I2cState :=
  { i with ccr := v.extractLsb' 0 12, fs := v.getLsbD 15, trise := v.extractLsb' 16 6 }

/-- The field a write of `v` stores in I2C_TIMEOUT; `i2c.wcnt` is not touched (30_encoding.md R119). -/
def I2cState.withTimeout (i : I2cState) (v : Word) : I2cState := { i with budget := v.extractLsb' 0 16 }

/-- Byte `i` of a word, bits `8i+7 : 8i` (20_memory.md R84, 30_encoding.md R128). -/
def byteLane (v : Word) (i : Nat) : Byte := v.extractLsb' (8 * i) 8

/-- The length `|T|` of an operation's target: a page or a word (41_flash_programmer.md R227). -/
def targetLength (p : Params) : FlKind → Nat
  | .erase => p.pageSize
  | .program => Config.wordBytes

/-- The intended content `I` of an operation's target, as its bytes in order (41_flash_programmer.md R227). -/
def intendedBytes (p : Params) : FlKind → Word → List Byte
  | .erase, _ => List.replicate p.pageSize Config.erasedByte
  | .program, v => [byteLane v 0, byteLane v 1, byteLane v 2, byteLane v 3]

/-- `ERASED_WORD`: the 32-bit value with every byte ERASED_BYTE (41_flash_programmer.md R225). -/
def erasedWord : Nat := littleEndian (List.replicate Config.wordBytes Config.erasedByte)

/-- The first address of the operation in progress, as a natural. -/
def FlashState.targetBase (f : FlashState) : Nat := f.opAddr.toNat

/-- The page index of an address, `(a - FLASH_BASE) div PAGE_SIZE` (41_flash_programmer.md R222). -/
def pageIndex (p : Params) (a : Nat) : Nat := (a - p.flashBase) / p.pageSize

/-- The alignment a command asks of its address (41_flash_programmer.md R221). -/
def alignedFor (p : Params) : FlKind → Nat → Bool
  | .erase, a => (a - p.flashBase) % p.pageSize == 0
  | .program, a => a % 4 == 0

end Sys2Proof.Machine
end

