-- ==== Sys2Proof/Machine/Ops.lean ====
section
/-! DEFINITION. The shared operations: recording an error (60_exceptions.md R295, this hardware's taking of an
exception) and clearing it (R300, R303, its return), HostBusError (R311), the ownership of the bus, and reset
(70_reset_and_hazards.md R320 to R322). -/

namespace Sys2Proof.Machine

/-- What one I2CM action leaves: its state, and the events it appends to the wire trace. I2CM touches nothing else
of the block (70_reset_and_hazards.md R327). -/
structure I2cEffect where
  i2c : I2cState
  events : List BusEvent
  deriving DecidableEq, Repr

/-- What one FPROG action leaves: its state and the array. FPROG touches nothing else (70_reset_and_hazards.md R327). -/
structure FlEffect where
  fl : FlashState
  array : Cells
  deriving DecidableEq, Repr

namespace State

/-- Take an I2CM action's effect: `emit` appends its events to the trace (00_scope.md R17). -/
def applyI2c (s : State) (e : I2cEffect) : State := { s with i2c := e.i2c, trace := s.trace ++ e.events }

/-- Take an FPROG action's effect. -/
def applyFl (s : State) (e : FlEffect) : State := { s with fl := e.fl, array := e.array }

/-- Set I2CM's state: what a host access to an I2CM register does when it appends nothing to the trace. -/
def setI2c (s : State) (i : I2cState) : State := { s with i2c := i }

/-- Set FPROG's state: what a host access to an FPROG register does. Only ticks and a reset change the array
(41_flash_programmer.md R226). -/
def setFl (s : State) (f : FlashState) : State := { s with fl := f }

/-- Set what the host port answers. -/
def respond (s : State) (r : HostResponse) : State := { s with response := r }

end State

/-! ### Recording and clearing errors -/

/-- Set the error flag of I2CM that `c` names. -/
def I2cState.setFlag (i : I2cState) : I2cFlag → I2cState
  | .nackf => { i with nackf := true }
  | .tof => { i with tof := true }
  | .cmderr => { i with cmderr := true }

/-- `raise code` in I2CM: the code is captured if every error flag is 0, and its flag is set (60_exceptions.md R295). -/
def I2cState.raise (i : I2cState) (c : I2cError) : I2cState :=
  { i.setFlag c.flag with errcode := if i.clean then some c else i.errcode }

/-- Set the error flag of FPROG that `c` names. -/
def FlashState.setFlag (f : FlashState) : FlFlag → FlashState
  | .wrperr => { f with wrperr := true }
  | .pgerr => { f with pgerr := true }
  | .verr => { f with verr := true }
  | .cmderr => { f with cmderr := true }

/-- `raise code` in FPROG (60_exceptions.md R295). -/
def FlashState.raise (f : FlashState) (c : FlError) : FlashState :=
  { f.setFlag c.flag with errcode := if f.clean then some c else f.errcode }

/-- Forget the code when every error flag of I2CM is 0 (60_exceptions.md R300). -/
def I2cState.settleErrcode (i : I2cState) : I2cState := { i with errcode := if i.clean then none else i.errcode }

/-- A host write of `v` to I2C_STAT: the W1C bits (60_exceptions.md R300, 30_encoding.md R121). -/
def I2cState.clearStatus (i : I2cState) (v : Word) : I2cState :=
  { i with
      nackf := i.nackf && !v.getLsbD 8
      tof := i.tof && !v.getLsbD 9
      cmderr := i.cmderr && !v.getLsbD 10 }.settleErrcode

/-- Forget the code when every error flag of FPROG is 0 (60_exceptions.md R300). -/
def FlashState.settleErrcode (f : FlashState) : FlashState := { f with errcode := if f.clean then none else f.errcode }

/-- A host write of `v` to FL_STAT: the W1C bits (60_exceptions.md R300). -/
def FlashState.clearStatus (f : FlashState) (v : Word) : FlashState :=
  { f with
      eop := f.eop && !v.getLsbD 2
      wrperr := f.wrperr && !v.getLsbD 3
      pgerr := f.pgerr && !v.getLsbD 4
      verr := f.verr && !v.getLsbD 5
      cmderr := f.cmderr && !v.getLsbD 6 }.settleErrcode

/-! ### The bus and the model fault -/

/-- I2CM owns the bus (40_i2c_master.md R159). -/
def I2cState.owned (i : I2cState) : Bool := i.msl || (i.st == .starting && i.ph == .s1)

/-- The `Release` event of an action that lets go of the bus without a stop condition, if I2CM owns it (10_state.md R47). -/
def I2cState.releaseEvents (i : I2cState) : List BusEvent := if i.owned then [.release] else []

/-- `fault HostBusError`: the mark is set, `h_err` answers, nothing else changes (60_exceptions.md R311, 10_state.md R53). -/
def hostBusError (cause : BusErrorCause) (s : State) : Host.Outcome State Fault Refusal :=
  .fault (.hostBusError cause { s with faulted := true, response := .error })

/-! ### Reset -/

/-- The array after a reset: an operation that is cut short in AWAIT leaves its target as drawn; in ISSUE and in
VERIFY the array keeps its content (70_reset_and_hazards.md R322). -/
def resetArray (p : Params) (content : List Byte) (f : FlashState) (m : Cells) : Cells :=
  if (f.opstate = .erase ∨ f.opstate = .program) ∧ f.ph = .await then
    writeBytes m f.targetBase (drawnBytes content f.targetBase (targetLength p f.kind))
  else m

/-- Reset, one atomic step: every I2CM and FPROG element at its reset value, `Release` recorded if the bus was owned,
the array kept but for a target cut short, trace, fault mark and parameters kept (70_reset_and_hazards.md R320 to R322).
DESIGN CHOICE (log 23): the host's pending accesses and the port's last answer are kept too. -/
def takeReset (content : List Byte) (s : State) : State :=
  { s with
      i2c := I2cState.reset
      fl := FlashState.reset
      array := resetArray s.params content s.fl s.array
      trace := s.trace ++ s.i2c.releaseEvents }

end Sys2Proof.Machine
end

