-- ==== Sys2Proof/Machine/FlashEngine.lean ====
section
/-! DEFINITION. The FPROG sequencer, one step per tick (41_flash_programmer.md R224 to R229). Each action is a
function of the parameters, FPROG's own state and the array. -/

namespace Sys2Proof.Machine

/-- The status the port carries for a draw: NONE is BUSY, OK and SILENT are OK, FAIL is FAIL (41_flash_programmer.md R226). -/
def ArrayAnswer.status : ArrayAnswer → ArrayStatus
  | .noAnswer => .busy
  | .ok => .ok
  | .silent => .ok
  | .fail => .fail

namespace FlashState

/-- `finish()` ends an operation (41_flash_programmer.md R224). -/
def finish (f : FlashState) : FlashState := { f with opstate := .idle, ph := .issue, wcnt := 0 }

/-- Phase ISSUE: the erased test of a program, then the array is driven (41_flash_programmer.md R225). -/
def issue (f : FlashState) (m : Cells) : FlEffect :=
  if f.kind = .program ∧ arrayRead m f.targetBase Config.wordBytes ≠ erasedWord then
    ⟨(f.raise .notErased).finish, m⟩
  else ⟨{ f with ph := .await, wcnt := 0 }, m⟩

/-- The target with the content the environment drew: `draw c : bytes(|T|); ArraySet(T, c)` (41_flash_programmer.md R226). -/
def drawTarget (p : Params) (content : List Byte) (f : FlashState) (m : Cells) : Cells :=
  writeBytes m f.targetBase (drawnBytes content f.targetBase (targetLength p f.kind))

/-- The code of an operation the array answers FAIL to (41_flash_programmer.md R226). -/
def failCode (f : FlashState) : FlError :=
  match f.kind with
  | .erase => .eraseFail
  | .program => .progFail

/-- What FPROG does on the status it reads on `a_rdata` in AWAIT: all it sees of the array's answer
(41_flash_programmer.md R226, 30_encoding.md R113 (c)). -/
def awaitStatus (p : Params) (status : ArrayStatus) (f : FlashState) : FlashState :=
  match status with
  | .busy =>
    if p.flashOpTimeout ≤ f.wcnt + 1 then (f.raise .arrayTimeout).finish else { f with wcnt := f.wcnt + 1 }
  | .ok => { f with opstate := .verify }
  | .fail => (f.raise f.failCode).finish

/-- What the array holds after a tick of AWAIT, by its answer (41_flash_programmer.md R226). -/
def awaitArray (p : Params) (answer : ArrayAnswer) (content : List Byte) (f : FlashState) (m : Cells) : Cells :=
  match answer with
  | .noAnswer => if p.flashOpTimeout ≤ f.wcnt + 1 then f.drawTarget p content m else m
  | .ok => writeBytes m f.targetBase (intendedBytes p f.kind f.opData)
  | .silent => f.drawTarget p content m
  | .fail => f.drawTarget p content m

/-- Phase AWAIT: the array's answer, of which FPROG reads the status (41_flash_programmer.md R226). -/
def await (p : Params) (answer : ArrayAnswer) (content : List Byte) (f : FlashState) (m : Cells) : FlEffect :=
  ⟨f.awaitStatus p answer.status, f.awaitArray p answer content m⟩

/-- VERIFY: the target is read back and compared with the intended content (41_flash_programmer.md R228). -/
def verify (p : Params) (f : FlashState) (m : Cells) : FlEffect :=
  if readBytes m f.targetBase (targetLength p f.kind) = intendedBytes p f.kind f.opData then
    ⟨{ f with eop := true }.finish, m⟩
  else ⟨(f.raise .verify).finish, m⟩

/-- One FPROG tick (41_flash_programmer.md R225). In IDLE no tick is enabled: a scheduled one does nothing (log 4). -/
def tick (p : Params) (answer : ArrayAnswer) (content : List Byte) (f : FlashState) (m : Cells) : FlEffect :=
  match f.opstate, f.ph with
  | .idle, _ => ⟨f, m⟩
  | .erase, .issue => f.issue m
  | .program, .issue => f.issue m
  | .erase, .await => f.await p answer content m
  | .program, .await => f.await p answer content m
  | .verify, _ => f.verify p m

end FlashState

end Sys2Proof.Machine
end

