-- ==== Sys2Proof/Machine/FlashCommands.lean ====
section
/-! DEFINITION. The meanings of the key word and of the FPROG commands (41_flash_programmer.md R211 to R223). -/

namespace Sys2Proof.Machine

/-- The error the address checks and the protection check find, if any: RANGE, then ALIGN, then WRP
(41_flash_programmer.md R221 to R223). -/
def addressError (p : Params) (kind : FlKind) (a : Nat) : Option FlError :=
  if !inRegion p a then some .range
  else if !alignedFor p kind a then some .align
  else if p.wrp.contains (pageIndex p a) then some .wrp
  else none

/-- The error an ERASE_PAGE or PROGRAM_WORD is rejected with, if any: BUSY, LOCKED, then the address checks
(41_flash_programmer.md R220 (3), (5), (6)). -/
def FlashState.rejection (p : Params) (kind : FlKind) (f : FlashState) : Option FlError :=
  if f.bsy then some .busy
  else if f.locked then some .locked
  else addressError p kind f.addr.toNat

/-- The state an operation starts in (41_flash_programmer.md R217, R218). -/
def FlKind.opstate : FlKind → FlOpstate
  | .erase => .erase
  | .program => .program

/-- What an accepted operation does: the operands are latched and the sequencer starts (41_flash_programmer.md R217,
R218, R220). -/
def FlashState.accept (kind : FlKind) (f : FlashState) : FlashState :=
  { f with opAddr := f.addr, opData := f.data, kind := kind, opstate := kind.opstate, ph := .issue, wcnt := 0 }

/-- ERASE_PAGE or PROGRAM_WORD: one error and nothing else, or the accepted operation (41_flash_programmer.md R220). -/
def FlashState.operate (p : Params) (kind : FlKind) (f : FlashState) : FlashState :=
  match f.rejection p kind with
  | some e => f.raise e
  | none => f.accept kind

/-- LOCK (41_flash_programmer.md R219). -/
def FlashState.lock (f : FlashState) : FlashState :=
  if f.bsy then f.raise .busy else { f with locked := true, keyseq := false }

/-- A key word (41_flash_programmer.md R211, R213). -/
def FlashState.keyWord (p : Params) (v : Word) (f : FlashState) : FlashState :=
  if !f.locked then f
  else if !f.keyseq then
    if v = p.key1 then { f with keyseq := true } else f.raise .key
  else
    if v = p.key2 then { f with keyseq := false, locked := false } else { f with keyseq := false }.raise .key

/-- A reserved value written to FL_CMD: CMD_RESERVED and no other effect (41_flash_programmer.md R220 (1)). -/
def reservedFl (s : State) : State := s.setFl (s.fl.raise .cmdReserved)

/-- FL.NOP: allowed in every state, changes nothing and records no error (41_flash_programmer.md R216). -/
def execFlNop (s : State) : Host.Outcome State Fault Refusal := .next s

/-- FL.ERASE_PAGE (41_flash_programmer.md R217). -/
def execFlErasePage (s : State) : Host.Outcome State Fault Refusal :=
  .next (s.setFl (s.fl.operate s.params .erase))

/-- FL.PROGRAM_WORD (41_flash_programmer.md R218). -/
def execFlProgramWord (s : State) : Host.Outcome State Fault Refusal :=
  .next (s.setFl (s.fl.operate s.params .program))

/-- FL.LOCK (41_flash_programmer.md R219). -/
def execFlLock (s : State) : Host.Outcome State Fault Refusal := .next (s.setFl s.fl.lock)

/-- FL.KEY(key) (41_flash_programmer.md R211, R213). -/
def execFlKey (key : Word) (s : State) : Host.Outcome State Fault Refusal :=
  .next (s.setFl (s.fl.keyWord s.params key))

end Sys2Proof.Machine
end

