-- ==== Sys2Proof/Machine/I2cEngine.lean ====
section
/-! DEFINITION. The I2CM state machine: one micro-phase per tick (40_i2c_master.md R160 to R177), and the enable of
R180. Each action is a function of I2CM's own state and the lines it samples, answering the new state and the
events it appends to the wire trace. -/

namespace Sys2Proof.Machine

namespace I2cState

/-- An action that appends nothing to the trace. -/
def quiet (i : I2cState) : I2cEffect := ⟨i, []⟩

/-- `timeout(code)`: both lines released without a stop condition, a pending start dropped, the code recorded
(40_i2c_master.md R174). -/
def timeout (i : I2cState) (code : I2cError) : I2cEffect :=
  ⟨{ i with sclDrv := false, sdaDrv := false, spend := false, wcnt := 0#16, st := .idle, ph := .noPhase }.raise code,
    i.releaseEvents⟩

/-- `wait(cond, code)`: pass, time out or stay (40_i2c_master.md R161). -/
def wait (i : I2cState) (cond : Bool) (code : I2cError) (pass : I2cState → I2cEffect) : I2cEffect :=
  if cond then pass { i with wcnt := 0#16 }
  else if i.budget.toNat ≤ i.wcnt.toNat then i.timeout code
  else quiet { i with wcnt := i.wcnt + 1#16 }

/-- The timeout code of a frame's waits: by the state (40_i2c_master.md R166, R175). -/
def frameTimeout (i : I2cState) : I2cError := if i.st = .addressing then .timeoutAddr else .timeoutData

/-- Phase S0: wait for a free bus, then make the start condition (40_i2c_master.md R162). -/
def phaseS0 (i : I2cState) (env : BusLines) : I2cEffect :=
  i.wait (i.sclLevel env && i.sdaLevel env) .timeoutStart fun j => ⟨{ j with sdaDrv := true, ph := .s1 }, [.start]⟩

/-- Phase S1: take SCL low (40_i2c_master.md R163). -/
def phaseS1 (i : I2cState) : I2cEffect := quiet { i with sclDrv := true, st := .started, ph := .noPhase }

/-- Phase B0: put the next bit on SDA while SCL is low (40_i2c_master.md R164). -/
def phaseB0 (i : I2cState) : I2cEffect := quiet { i with sdaDrv := !i.shreg.getLsbD 7, ph := .b1 }

/-- Phase B1: release SCL (40_i2c_master.md R165). -/
def phaseB1 (i : I2cState) : I2cEffect := quiet { i with sclDrv := false, ph := .b2 }

/-- Phase B2: wait for SCL high (40_i2c_master.md R166). -/
def phaseB2 (i : I2cState) (env : BusLines) : I2cEffect :=
  i.wait (i.sclLevel env) i.frameTimeout fun j => quiet { j with ph := .b3 }

/-- Phase B3: take SCL low and shift (40_i2c_master.md R167). -/
def phaseB3 (i : I2cState) : I2cEffect :=
  quiet { i with
    sclDrv := true
    shreg := i.shreg <<< 1
    bitcnt := i.bitcnt - 1
    ph := if i.bitcnt - 1 = 0 then .a0 else .b0 }

/-- Phase A0: release SDA for the target's acknowledge (40_i2c_master.md R168). -/
def phaseA0 (i : I2cState) : I2cEffect := quiet { i with sdaDrv := false, ph := .a1 }

/-- Phase A1: release SCL for the acknowledge clock (40_i2c_master.md R169). -/
def phaseA1 (i : I2cState) : I2cEffect := quiet { i with sclDrv := false, ph := .a2 }

/-- Phase A2: wait for SCL high, then sample the acknowledge in the same tick (40_i2c_master.md R170). -/
def phaseA2 (i : I2cState) (env : BusLines) : I2cEffect :=
  i.wait (i.sclLevel env) i.frameTimeout fun j =>
    ⟨{ j with ack := !j.sdaLevel env, ph := .a3 }, [.frame j.txbyte (!j.sdaLevel env)]⟩

/-- The code of a frame that is not acknowledged (40_i2c_master.md R171). -/
def nackCode (i : I2cState) : I2cError := if i.st = .addressing then .nackAddr else .nackData

/-- Phase A3: take SCL low and act on the acknowledge: READY, or the automatic stop (40_i2c_master.md R171, R176). -/
def phaseA3 (i : I2cState) : I2cEffect :=
  if i.ack then
    quiet { i with sclDrv := true, sent := i.st != .addressing, st := .ready, ph := .noPhase }
  else
    quiet ({ i with sclDrv := true, st := .stopping, ph := .p0, wcnt := 0#16 }.raise i.nackCode)

/-- Phase P0: SDA low while SCL is low (40_i2c_master.md R172). -/
def phaseP0 (i : I2cState) : I2cEffect := quiet { i with sdaDrv := true, ph := .p1 }

/-- Phase P1: release SCL (40_i2c_master.md R172). -/
def phaseP1 (i : I2cState) : I2cEffect := quiet { i with sclDrv := false, ph := .p2 }

/-- Phase P2: wait for SCL high (40_i2c_master.md R172). -/
def phaseP2 (i : I2cState) (env : BusLines) : I2cEffect :=
  i.wait (i.sclLevel env) .timeoutStop fun j => quiet { j with ph := .p3 }

/-- Phase P3: make the stop condition, then go idle or start the pending start (40_i2c_master.md R173). -/
def phaseP3 (i : I2cState) : I2cEffect :=
  if i.spend then
    ⟨{ i with sdaDrv := false, spend := false, st := .starting, ph := .s0, wcnt := 0#16 }, [.stop]⟩
  else
    ⟨{ i with sdaDrv := false, st := .idle, ph := .noPhase }, [.stop]⟩

/-- A tick is enabled (40_i2c_master.md R160). -/
def tickEnabled (i : I2cState) : Bool :=
  i.st == .starting || i.st == .addressing || i.st == .transmitting || i.st == .stopping

/-- The action of the current phase (40_i2c_master.md R160). NONE has no action; no enabled state has it (log 17). -/
def phaseAction (i : I2cState) (env : BusLines) : I2cEffect :=
  match i.ph with
  | .noPhase => quiet i
  | .s0 => i.phaseS0 env
  | .s1 => i.phaseS1
  | .b0 => i.phaseB0
  | .b1 => i.phaseB1
  | .b2 => i.phaseB2 env
  | .b3 => i.phaseB3
  | .a0 => i.phaseA0
  | .a1 => i.phaseA1
  | .a2 => i.phaseA2 env
  | .a3 => i.phaseA3
  | .p0 => i.phaseP0
  | .p1 => i.phaseP1
  | .p2 => i.phaseP2 env
  | .p3 => i.phaseP3

/-- One I2CM tick with the lines as drawn. In OFF, IDLE, STARTED and READY no tick is enabled and I2CM's state
changes only through a host access or reset (40_i2c_master.md R160): a scheduled one does nothing (log 4). -/
def tick (i : I2cState) (env : BusLines) : I2cEffect := if i.tickEnabled then i.phaseAction env else quiet i

/-- A host write of `v` to I2C_CTRL (40_i2c_master.md R180). -/
def writeCtrl (i : I2cState) (v : Word) : I2cEffect :=
  if v.getLsbD 0 then
    if i.en then quiet i else quiet { i with en := true, st := .idle, ph := .noPhase }
  else if i.en then
    ⟨{ i with
        en := false, sclDrv := false, sdaDrv := false, st := .off, ph := .noPhase
        spend := false, wcnt := 0#16, sent := false, bitcnt := 0 },
      i.releaseEvents⟩
  else quiet i

end I2cState

end Sys2Proof.Machine
end

