-- ==== Sys2Proof/Machine/I2cCommands.lean ====
section
/-! DEFINITION. The meanings of the I2CM commands: one write to I2C_CMD each (40_i2c_master.md R181 to R186). -/

namespace Sys2Proof.Machine

/-- The checks of a valid command other than NOP: CMD_DISABLED, then CMD_SEQUENCE, then what an accepted command does
(40_i2c_master.md R186 (3) and (4)). A rejected command changes nothing but the error state (30_encoding.md R137). -/
def I2cState.command (i : I2cState) (allowed : Bool) (accepted : I2cState) : I2cState :=
  if !i.en then i.raise .cmdDisabled
  else if allowed then accepted
  else i.raise .cmdSequence

/-- A reserved value written to I2C_CMD: CMD_RESERVED and no other effect (40_i2c_master.md R186 (1)). -/
def reservedI2c (s : State) : State := s.setI2c (s.i2c.raise .cmdReserved)

/-- What an accepted START does, from IDLE and from STOPPING (40_i2c_master.md R181). -/
def I2cState.acceptStart (i : I2cState) : I2cState :=
  if i.st = .idle then { i with st := .starting, ph := .s0, wcnt := 0#16 } else { i with spend := true }

/-- START is allowed in IDLE, and in STOPPING when `spend = 0` (40_i2c_master.md R181, R186). -/
def I2cState.allowsStart (i : I2cState) : Bool := i.st == .idle || (i.st == .stopping && !i.spend)

/-- Load a frame byte and begin to shift it out in a state (40_i2c_master.md R182, R183). -/
def I2cState.loadFrame (i : I2cState) (b : Byte) (st : I2cSt) : I2cState :=
  { i with txbyte := b, shreg := b, bitcnt := 8, st := st, ph := .b0, wcnt := 0#16 }

/-- STOP is allowed in STARTED and READY (40_i2c_master.md R184, R186). -/
def I2cState.allowsStop (i : I2cState) : Bool := i.st == .started || i.st == .ready

/-- What an accepted STOP does (40_i2c_master.md R184). -/
def I2cState.acceptStop (i : I2cState) : I2cState := { i with st := .stopping, ph := .p0, wcnt := 0#16 }

/-- I2C.NOP: allowed in every state, changes nothing and records no error (40_i2c_master.md R185). -/
def execI2cNop (s : State) : Host.Outcome State Fault Refusal := .next s

/-- I2C.START (40_i2c_master.md R181). -/
def execI2cStart (s : State) : Host.Outcome State Fault Refusal :=
  .next (s.setI2c (s.i2c.command s.i2c.allowsStart s.i2c.acceptStart))

/-- I2C.ADDRW(a): allowed in STARTED (40_i2c_master.md R182). -/
def execI2cAddrw (a : BitVec 7) (s : State) : Host.Outcome State Fault Refusal :=
  .next (s.setI2c (s.i2c.command (s.i2c.st == .started) (s.i2c.loadFrame (addressFrame a) .addressing)))

/-- I2C.WRITE(b): allowed in READY (40_i2c_master.md R183). -/
def execI2cWrite (b : Byte) (s : State) : Host.Outcome State Fault Refusal :=
  .next (s.setI2c (s.i2c.command (s.i2c.st == .ready) (s.i2c.loadFrame b .transmitting)))

/-- I2C.STOP: allowed in STARTED and READY (40_i2c_master.md R184). -/
def execI2cStop (s : State) : Host.Outcome State Fault Refusal :=
  .next (s.setI2c (s.i2c.command s.i2c.allowsStop s.i2c.acceptStop))

end Sys2Proof.Machine
end

