-- ==== Sys2Proof/Machine/Dispatch.lean ====
section
/-! DEFINITION. The meaning of every instruction: one arm per constructor of Instr. -/

namespace Sys2Proof.Machine

-- 40_i2c_master.md R181 to R185; 41_flash_programmer.md R211, R216 to R219.
def exec (i : Instr) (s : State) : Host.Outcome State Fault Refusal :=
  match i with
  | .i2cNop => Sys2Proof.Machine.execI2cNop s
  | .i2cStart => Sys2Proof.Machine.execI2cStart s
  | .i2cAddrw a => Sys2Proof.Machine.execI2cAddrw a s
  | .i2cWrite b => Sys2Proof.Machine.execI2cWrite b s
  | .i2cStop => Sys2Proof.Machine.execI2cStop s
  | .flNop => Sys2Proof.Machine.execFlNop s
  | .flErasePage => Sys2Proof.Machine.execFlErasePage s
  | .flProgramWord => Sys2Proof.Machine.execFlProgramWord s
  | .flLock => Sys2Proof.Machine.execFlLock s
  | .flKey key => Sys2Proof.Machine.execFlKey key s

end Sys2Proof.Machine
end

