-- ==== Sys2Proof/Machine/HostPort.lean ====
section
/-! DEFINITION. The host port: the address map (20_memory.md R80, 30_encoding.md R116), reads and writes of the
registers, reads of the flash region, the hold, and one turn of each agent (00_scope.md R11). -/

namespace Sys2Proof

/-- The offset of a register (30_encoding.md R116). -/
def Reg.offset : Reg → Nat
  | .i2cCtrl => 0x00
  | .i2cTiming => 0x04
  | .i2cTimeout => 0x08
  | .i2cCmd => 0x0C
  | .i2cStat => 0x10
  | .flKey => 0x20
  | .flCmd => 0x24
  | .flAddr => 0x28
  | .flData => 0x2C
  | .flStat => 0x30

/-- The register at an offset; the six slots without one are reserved (30_encoding.md R116, 20_memory.md R87). -/
def Reg.ofOffset (off : Nat) : Option Reg :=
  match off with
  | 0x00 => some .i2cCtrl
  | 0x04 => some .i2cTiming
  | 0x08 => some .i2cTimeout
  | 0x0C => some .i2cCmd
  | 0x10 => some .i2cStat
  | 0x20 => some .flKey
  | 0x24 => some .flCmd
  | 0x28 => some .flAddr
  | 0x2C => some .flData
  | 0x30 => some .flStat
  | _ => none

end Sys2Proof

namespace Sys2Proof.Machine

/-! ### Registers -/

/-- What a read of a register returns; a write-only register returns 0. Reads have no side effect; the lines are
sampled by a read of I2C_STAT (20_memory.md R87, R92, 30_encoding.md R115). -/
def readReg (r : Reg) (env : BusLines) (s : State) : Word :=
  match r with
  | .i2cCtrl => s.i2c.ctrlWord
  | .i2cTiming => s.i2c.timingWord
  | .i2cTimeout => s.i2c.timeoutWord
  | .i2cCmd => 0#32
  | .i2cStat => s.i2c.statWord env
  | .flKey => 0#32
  | .flCmd => 0#32
  | .flAddr => s.fl.addr
  | .flData => s.fl.data
  | .flStat => s.fl.statWord

/-- A reserved value written to a command register: CMD_RESERVED of the engine, and no other effect
(30_encoding.md R126, R132). -/
def reservedWrite (e : ReservedWord) (s : State) : State :=
  match e with
  | .i2cCmd _ => reservedI2c s
  | .flCmd _ => reservedFl s
  | .flKey _ => s

/-- A write to a command register: the decoded instruction, or the reserved value's error (30_encoding.md R135 to R137). -/
def writeCommand (r : CmdReg) (v : Word) (s : State) : Host.Outcome State Fault Refusal :=
  match decode r v with
  | .ok i => exec i s
  | .error e => .next (reservedWrite e s)

/-- A write of `v` to a register (30_encoding.md R115 to R131, 20_memory.md R92). -/
def writeReg (r : Reg) (v : Word) (s : State) : Host.Outcome State Fault Refusal :=
  match r with
  | .i2cCtrl => .next (s.applyI2c (s.i2c.writeCtrl v))
  | .i2cTiming => .next (s.setI2c (s.i2c.withTiming v))
  | .i2cTimeout => .next (s.setI2c (s.i2c.withTimeout v))
  | .i2cCmd => writeCommand .i2cCmd v s
  | .i2cStat => .next (s.setI2c (s.i2c.clearStatus v))
  | .flKey => writeCommand .flKey v s
  | .flCmd => writeCommand .flCmd v s
  | .flAddr => .next (s.setFl { s.fl with addr := v })
  | .flData => .next (s.setFl { s.fl with data := v })
  | .flStat => .next (s.setFl (s.fl.clearStatus v))

/-! ### Host accesses -/

/-- Where an access lands: a register window offset, an address of the flash region, or neither (20_memory.md R80, R81). -/
inductive Place where
  | window (off : Nat)
  | region (a : Nat)
  | outside (a : Nat)
  deriving DecidableEq, Repr

/-- Where a host address lands (20_memory.md R80, R81, 30_encoding.md R111). -/
def placeAddr (p : Params) (a : Nat) : Place :=
  if p.blkBase ≤ a ∧ a < p.blkBase + Config.windowSize then .window (a - p.blkBase)
  else if inRegion p a then .region a
  else .outside a

/-- Where a target lands: `HostWrite(off, v)` and `HostRead(off)` are accesses to host address `BLK_BASE + off`
(00_scope.md R16, 20_memory.md R80). -/
def placeOf (p : Params) : HostTarget → Place
  | .reg off => if off < Config.windowSize then .window off else placeAddr p (p.blkBase + off)
  | .addr a => placeAddr p a.toNat

/-- An access to the register window: accepted only as an aligned 32-bit word; a reserved slot reads 0 and ignores
writes (20_memory.md R86, R87). -/
def windowAccess (env : BusLines) (off : Nat) (acc : HostAccess) (s : State) : Host.Outcome State Fault Refusal :=
  if acc.size ≠ .four ∨ off % 4 ≠ 0 then hostBusError .registerAccess s
  else
    match Reg.ofOffset off, acc.wdata with
    | some r, none => .next (s.respond (.value (readReg r env s)))
    | some r, some v => writeReg r v (s.respond .written)
    | none, none => .next (s.respond (.value 0#32))
    | none, some _ => .next (s.respond .written)

/-- An access to the flash region while it is not held: an aligned read returns `ArrayRead(a, n)`, zero-extended;
a misaligned read and every write fault (20_memory.md R82, R89). -/
def regionAccess (a : Nat) (acc : HostAccess) (s : State) : Host.Outcome State Fault Refusal :=
  match acc.wdata with
  | some _ => hostBusError .flashWrite s
  | none =>
    if a % acc.size.bytes ≠ 0 then hostBusError .flashMisaligned s
    else .next (s.respond (.value (BitVec.ofNat 32 (arrayRead s.array a acc.size.bytes))))

/-- Perform an access (20_memory.md R80 to R89). -/
def performAccess (env : BusLines) (acc : HostAccess) (s : State) : Host.Outcome State Fault Refusal :=
  match placeOf s.params acc.target with
  | .window off => windowAccess env off acc s
  | .region a => regionAccess a acc s
  | .outside a => .refused (.notTheBlock a)

/-- A read of the flash region is held while BSY = 1 (20_memory.md R90). -/
def isHeld (acc : HostAccess) (s : State) : Bool :=
  s.fl.bsy && acc.wdata.isNone &&
    match placeOf s.params acc.target with
    | .region _ => true
    | _ => false

/-- The host's turn: its next access is performed, or, if it is held, stays where it is (20_memory.md R90, R95;
log 5). With no access to perform nothing happens. -/
def hostTurn (env : BusLines) (s : State) : Host.Outcome State Fault Refusal :=
  match s.hostQ with
  | [] => .next s
  | acc :: rest =>
    if isHeld acc s then .next (s.respond .held)
    else performAccess env acc { s with hostQ := rest }

/-! ### One turn -/

/-- The step of one agent, or a reset (00_scope.md R11). -/
def takeTurn (t : Turn) (s : State) : Host.Outcome State Fault Refusal :=
  match t with
  | .host env => hostTurn env s
  | .i2cTick env => .next (s.applyI2c (s.i2c.tick env))
  | .flTick answer content => .next (s.applyFl (s.fl.tick s.params answer content s.array))
  | .reset content => .next (takeReset content s)

/-! ### Placing an instruction -/

/-- The host access that is an instruction in its machine form (42_driver_sequences.md R263). -/
def instrAccess (i : Instr) : HostAccess := ⟨.reg i.reg.offset, .four, some i.word⟩

/-- The host access of a numbered word: to the register the number names, or, where it names none, to the register
of the instruction the table gives it (log 12). -/
def tableAccess (nbits w : Nat) : HostAccess :=
  let off := tableWordRegister nbits w
  let named :=
    if off = 0 then
      match decodeTableWord nbits w with
      | some i => i.reg.offset
      | none => Reg.i2cCmd.offset
    else off
  ⟨.reg named, .four, some (BitVec.ofNat 32 w)⟩

/-- An access at the head of the host's queue, and the host's turn next (log 3). The lines of that turn are only
sampled by a read of I2C_STAT. -/
def placeAccess (acc : HostAccess) (s : State) : State :=
  { s with hostQ := acc :: s.hostQ, sched := .host ⟨true, true⟩ :: s.sched }

end Sys2Proof.Machine
end

