-- ==== Sys2Proof/Machine/Step.lean ====
section
/-! DEFINITION. One step of the block (00_scope.md R11): the agent at the head of the schedule moves. -/

namespace Sys2Proof.Machine

/-- One step: the turn at the head of the schedule is taken, with the draws it lists. With nothing scheduled no
agent moves and the state stays as it is (log 2). -/
def step (s : State) : Host.Outcome State Fault Refusal :=
  match s.sched with
  | [] => .next s
  | t :: rest => takeTurn t { s with sched := rest }

/-- The state in which the next step performs the host write of that instruction word: the write is the host's next
access and the host moves next (log 3, log 12). -/
def State.withFetchWord (s : State) (nbits w : Nat) : State := placeAccess (tableAccess nbits w) s

end Sys2Proof.Machine
end

