-- ==== Sys2Proof/Machine/Driver.lean ====
section
/-! DEFINITION. The host agent (00_scope.md R6, R10): host programs in the notation of 42_driver_sequences.md R260,
their small steps (R261, R262), and the source's driver sequences as macros (R265 to R274). It stands above the
block: a host program's statement index is not block state (10_state.md R31). -/

namespace Sys2Proof

/-- Statements in order. -/
def HostProg.block : List HostProg → HostProg
  | [] => .done
  | p :: ps => .seq p (block ps)

end Sys2Proof

namespace Sys2Proof.Machine

/-! ### Host programs -/

/-- How a host program ended (42_driver_sequences.md R260). -/
inductive HostResult where
  | ok
  | err (tag : ErrTag) (x : Nat)
  /-- Ended by HALT. DESIGN CHOICE (log 15): R260 gives HALT no result, so it has one of its own. -/
  | halted
  deriving DecidableEq, Repr

/-- The names a program has bound. -/
abbrev Bindings := List (String × Nat)

/-- One entry of a program's control point (42_driver_sequences.md R261). -/
inductive HostFrame where
  /-- Statements still to run. -/
  | run (p : HostProg)
  /-- A `FOR` at its counter's next value. -/
  | loop (i : String) (cur stop stride : Nat) (body : HostProg)
  /-- The end of a called macro: the caller's names come back. -/
  | back (names : Bindings)
  deriving DecidableEq, Repr

/-- A host program in progress: control point, names, the payload (10_state.md R54), and its result once it ended. -/
structure HostCtx where
  stack : List HostFrame
  names : Bindings
  payload : List Host.Cell
  result : Option HostResult
  deriving DecidableEq, Repr

/-- The value of a name; a name that is not bound reads 0 (log 15). -/
def lookupName : Bindings → String → Nat
  | [], _ => 0
  | c :: m, x => if c.1 = x then c.2 else lookupName m x

/-- The value of an expression over naturals (42_driver_sequences.md R260). DESIGN CHOICE (log 15): a subtraction stops
at 0, `div` by 0 is 0, `mod` by 0 is the dividend, and a byte at or beyond the end of a list is 0. -/
def evalExpr (m : Bindings) : Expr → Nat
  | .lit n => n
  | .var x => lookupName m x
  | .add a b => evalExpr m a + evalExpr m b
  | .sub a b => evalExpr m a - evalExpr m b
  | .mul a b => evalExpr m a * evalExpr m b
  | .div a b => evalExpr m a / evalExpr m b
  | .mod a b => evalExpr m a % evalExpr m b
  | .shl a b => evalExpr m a <<< evalExpr m b
  | .shr a b => evalExpr m a >>> evalExpr m b
  | .band a b => evalExpr m a &&& evalExpr m b
  | .bor a b => evalExpr m a ||| evalExpr m b
  | .byteOf bs i => (bs.getD (evalExpr m i) 0#8).toNat

/-- The value of a condition (42_driver_sequences.md R260). -/
def evalCond (m : Bindings) : Cond → Bool
  | .eq a b => evalExpr m a == evalExpr m b
  | .ne a b => evalExpr m a != evalExpr m b
  | .gt a b => decide (evalExpr m b < evalExpr m a)
  | .or c d => evalCond m c || evalCond m d

/-- A byte of the host's own memory: the payload, or the free Config.hostMemoryByte elsewhere (log 16). -/
def payloadByte : List Host.Cell → Nat → Byte
  | [], a => Config.hostMemoryByte a
  | c :: m, a => if c.1 = a then c.2 else payloadByte m a

/-- The `n` payload bytes at `a`. -/
def payloadBytes (m : List Host.Cell) : Nat → Nat → List Byte
  | _, 0 => []
  | a, n + 1 => payloadByte m a :: payloadBytes m (a + 1) n

/-- `MemRead(a, n)`, little-endian (00_scope.md R16). -/
def memRead (m : List Host.Cell) (a n : Nat) : Nat := littleEndian (payloadBytes m a n)

/-- `WORD_AT(src, off, len)`: the payload's bytes from `off`, at most four, never at or beyond `src + len`, in the
low byte lanes (42_driver_sequences.md R273). -/
def wordAt (m : List Host.Cell) (src off len : Nat) : Nat :=
  if off + 4 ≤ len then memRead m (src + off) 4 else memRead m (src + off) (len - off)

/-- Replace or add a binding. -/
def bindName (m : Bindings) (x : String) (v : Nat) : Bindings := (x, v) :: m.filter fun c => c.1 != x

namespace HostCtx

/-- A program about to run its first statement. -/
def start (p : HostProg) (payload : List Host.Cell) : HostCtx := ⟨[.run p], [], payload, none⟩

/-- Bind a name. -/
def set (c : HostCtx) (x : String) (v : Nat) : HostCtx := { c with names := bindName c.names x v }

/-- Bind a name if one is given. -/
def setOpt (c : HostCtx) (x : Option String) (v : Nat) : HostCtx :=
  match x with
  | none => c
  | some y => c.set y v

/-- The program ends with a result. -/
def finish (c : HostCtx) (r : HostResult) : HostCtx := { c with stack := [], result := some r }

/-- `RET Ok`: back to the caller, or the end of the program (42_driver_sequences.md R260). -/
def returnOk (c : HostCtx) : List HostFrame → HostCtx
  | [] => c.finish .ok
  | .back names :: rest => { c with stack := rest, names := names }
  | _ :: rest => c.returnOk rest

/-- `RET Err(tag, x)`: every caller returns the same Err at once, so the program ends with it
(42_driver_sequences.md R260). -/
def returnErr (c : HostCtx) (tag : ErrTag) (x : Nat) : HostCtx := c.finish (.err tag x)

/-- The host access the next statement makes, if it makes one (42_driver_sequences.md R261, R263). DESIGN CHOICE
(log 15): a value written by WR and an address read by LDF are taken modulo 2^32; an LDF is a host read at its address
wherever that lies, so that in the register window, where R260 gives it no meaning, it reads as any host access there. -/
def nextAccess (c : HostCtx) : Option HostAccess :=
  match c.stack with
  | .run (.wr r e) :: _ => some ⟨.reg r.offset, .four, some (BitVec.ofNat 32 (evalExpr c.names e))⟩
  | .run (.rd r _) :: _ => some ⟨.reg r.offset, .four, none⟩
  | .run (.wait r _ _ _ _) :: _ => some ⟨.reg r.offset, .four, none⟩
  | .run (.ldf _ a n) :: _ => some ⟨.addr (BitVec.ofNat 32 (evalExpr c.names a)), n, none⟩
  | _ => none

/-- One read of a `WAIT`: the error test comes before the success test; a read that passes neither leaves the
statement index where it is (42_driver_sequences.md R261, R262). DESIGN CHOICE (log 15): R262 says only that the
enclosing macro returns the Err; in a program with no macro around its WAIT the program ends with it. -/
def waitRead (c : HostCtx) (rest : List HostFrame) (r : Reg) (mask val errmask : Nat) (x : Option String) (v : Nat) :
    HostCtx :=
  if v &&& errmask ≠ 0 then c.returnErr (.reg r) v
  else if v &&& mask = val then { c with stack := rest }.setOpt x v
  else c

/-- The program after its access was answered with the value `v` (0 for a write). -/
def answered (c : HostCtx) (v : Nat) : HostCtx :=
  match c.stack with
  | .run (.wr _ _) :: rest => { c with stack := rest }
  | .run (.rd _ x) :: rest => { c with stack := rest }.set x v
  | .run (.wait r mask val errmask x) :: rest =>
    c.waitRead rest r (evalExpr c.names mask) (evalExpr c.names val) (evalExpr c.names errmask) x v
  | .run (.ldf x _ _) :: rest => { c with stack := rest }.set x v
  | _ => c

/-- The arguments of a called macro, evaluated in the caller's names. -/
def evalArgs (names : Bindings) (args : List (String × Expr)) : Bindings :=
  args.map fun a => (a.1, evalExpr names a.2)

/-- A statement that touches no block state (42_driver_sequences.md R260, R261). DESIGN CHOICE (log 15): a FOR reads
its start, bound and step once, when it is entered; with step 0, which R260 forbids, it repeats its body for ever; its
counter is the loop's own, so that a body that rebinds the counter's name changes no later pass; names bound by a FOR
or in the body of a FOR or IF stay bound after it; the arguments of a CALL are evaluated once, when it is made; HALT
ends with the result `halted`; a program or macro that runs off its end ends with Ok. -/
def localMove (c : HostCtx) : HostCtx :=
  match c.stack with
  | [] => c.finish .ok
  | .back names :: rest => { c with stack := rest, names := names }
  | .loop i cur stop stride body :: rest =>
    if cur < stop then
      { c with stack := .run body :: .loop i (cur + stride) stop stride body :: rest }.set i cur
    else { c with stack := rest }
  | .run p :: rest =>
    match p with
    | .done => { c with stack := rest }
    | .seq q r => { c with stack := .run q :: .run r :: rest }
    | .ld x a n => { c with stack := rest }.set x (memRead c.payload (evalExpr c.names a) n.bytes)
    | .bind x e => { c with stack := rest }.set x (evalExpr c.names e)
    | .bindWordAt x src off len =>
      { c with stack := rest }.set x
        (wordAt c.payload (evalExpr c.names src) (evalExpr c.names off) (evalExpr c.names len))
    | .forLoop i a b s body =>
      { c with stack := .loop i (evalExpr c.names a) (evalExpr c.names b) (evalExpr c.names s) body :: rest }
    | .ifThen d body => { c with stack := if evalCond c.names d then .run body :: rest else rest }
    | .call args body =>
      { c with stack := .run body :: .back c.names :: rest, names := evalArgs c.names args }
    | .retOk => c.returnOk rest
    | .retErr tag e => c.returnErr tag (evalExpr c.names e)
    | .halt => c.finish .halted
    | .wr _ _ | .rd _ _ | .wait _ _ _ _ _ | .ldf _ _ _ => c

end HostCtx

/-- The host's program together with the block. -/
structure HostSystem where
  ctx : HostCtx
  block : State
  deriving DecidableEq, Repr

/-- The value of a response as the program sees it. -/
def responseValue : HostResponse → Nat
  | .value v => v.toNat
  | .idle | .written | .held | .error => 0

/-- The host's move with a program: a statement that makes an access is one step of the block (a held one keeps the
statement index); any other statement takes no block step; an ended program does nothing (42_driver_sequences.md
R261, 20_memory.md R90, R95). -/
def HostSystem.hostMove (env : BusLines) (y : HostSystem) : Host.Outcome HostSystem Fault Refusal :=
  if y.ctx.result.isSome then .next y
  else
    match y.ctx.nextAccess with
    | none => .next { y with ctx := y.ctx.localMove }
    | some acc =>
      match hostTurn env { y.block with hostQ := [acc] } with
      | .next b =>
        if b.response = .held then .next { y with block := { b with hostQ := [] } }
        else .next ⟨y.ctx.answered (responseValue b.response), b⟩
      | .fault f => .fault f
      | .refused r => .refused r

/-- One turn of the system: the host's move, or the block's own step (00_scope.md R11, 20_memory.md R96). DESIGN CHOICE
(log 23): a reset of the block leaves the host's program where it is. -/
def HostSystem.turn (t : Turn) (y : HostSystem) : Host.Outcome HostSystem Fault Refusal :=
  match t with
  | .host env => y.hostMove env
  | .i2cTick _ | .flTick _ _ | .reset _ =>
    match takeTurn t y.block with
    | .next b => .next { y with block := b }
    | .fault f => .fault f
    | .refused r => .refused r

/-! ### Named constants (42_driver_sequences.md R264) -/

/-- `ST_SELECT`: `SB`, `MSL`, `BUSY`. -/
def stSelect : Nat := 0x00000007
/-- `ST_ADDR`. -/
def stAddr : Nat := 0x00000008
/-- `ST_TXE`. -/
def stTxe : Nat := 0x00000010
/-- `ST_BTF`. -/
def stBtf : Nat := 0x00000020
/-- `FL_BSY`. -/
def flBsy : Nat := 0x00000001
/-- `CMD_START`. -/
def cmdStart : Nat := 0x00000001
/-- `CMD_STOP`. -/
def cmdStop : Nat := 0x00000004
/-- `FC_ERASE`. -/
def fcErase : Nat := 0x00000001
/-- `FC_PROGRAM`. -/
def fcProgram : Nat := 0x00000002
/-- `FC_LOCK`. -/
def fcLock : Nat := 0x00000003

/-- `ADDRW(a) = 0x00000002 | (a << 8)`. -/
def exprAddrw (a : Expr) : Expr := .bor (.lit 2) (.shl a (.lit 8))

/-- `WRITE(b) = 0x00000003 | (b << 8)`. -/
def exprWrite (b : Expr) : Expr := .bor (.lit 3) (.shl b (.lit 8))

/-! ### The I2C macros -/

/-- `I2C_INIT()` (42_driver_sequences.md R265). -/
def macroI2cInit (p : Params) : HostProg := .block [
  .wr .i2cCtrl (.lit 0),
  .wr .i2cTiming (.bor (.bor (.shl (.lit p.triseInit.toNat) (.lit 16)) (.lit (1 <<< 15))) (.lit p.ccrInit.toNat)),
  .wr .i2cTimeout (.lit p.toInit.toNat),
  .wr .i2cCtrl (.lit 1),
  .retOk ]

/-- A `WAIT` on I2C_STAT for every bit of a mask, result discarded. -/
def waitI2c (mask errmask : Nat) : HostProg := .wait .i2cStat (.lit mask) (.lit mask) (.lit errmask) none

/-- The four steps of the source's write, with the error mask its waits test (42_driver_sequences.md R266, R267). -/
def transferBody (a : Nat) (b : List Byte) (errmask : Nat) : HostProg := .block [
  .wr .i2cCmd (.lit cmdStart),
  waitI2c stSelect errmask,
  .wr .i2cCmd (exprAddrw (.lit a)),
  waitI2c stAddr errmask,
  .forLoop "i" (.lit 0) (.lit b.length) (.lit 1) (.block [
    .wr .i2cCmd (exprWrite (.byteOf b (.var "i"))),
    waitI2c stBtf errmask ]),
  waitI2c stTxe errmask,
  .wr .i2cCmd (.lit cmdStop),
  .retOk ]

/-- `I2C_WRITE(a, b[0..n-1])` (42_driver_sequences.md R266). DESIGN CHOICE (log 15): the address and the bytes are
constants of the program, not values bound at run time. -/
def macroI2cWrite (a : Nat) (b : List Byte) : HostProg := .block [
  .ifThen (.or (.gt (.lit a) (.lit 127)) (.eq (.lit b.length) (.lit 0))) (.retErr .invalid (.lit 0)),
  .wr .i2cStat (.lit i2cErrMask.toNat),
  transferBody a b i2cErrMask.toNat ]

/-- `I2C_WRITE_LEGACY(a, b[0..n-1])`: no precondition test, no clearing write, error mask 0 (42_driver_sequences.md R267).
Its arguments are constants, as those of I2C_WRITE (log 15). -/
def macroI2cWriteLegacy (a : Nat) (b : List Byte) : HostProg := transferBody a b 0

/-- The class of the code in bits 15:12 of an `Err(I2C_STAT, r)` result (42_driver_sequences.md R268): 4 and 5 are
BusNack, 6 to 9 BusTimeout, 1 to 3 a host error; no other code is recorded. -/
def classifyI2c (r : Word) : Option Taxonomy :=
  match (r.extractLsb' 12 4).toNat with
  | 1 | 2 | 3 => some .hostError
  | 4 | 5 => some .busNack
  | 6 | 7 | 8 | 9 => some .busTimeout
  | _ => none

/-! ### The flash macros -/

/-- Unlock, one command, its busy-wait, lock, and the error exit: the part the two flash macros share
(42_driver_sequences.md R270, R272). `setup` writes the operands. -/
def flashOperation (p : Params) (setup : List HostProg) (cmd : Nat) : HostProg := .block [
  .wr .flStat (.lit flW1cMask.toNat),
  .wr .flKey (.lit p.key1.toNat),
  .wr .flKey (.lit p.key2.toNat),
  .block setup,
  .wr .flCmd (.lit cmd),
  .wait .flStat (.lit flBsy) (.lit 0) (.lit 0) (some "s"),
  .wr .flCmd (.lit fcLock),
  .ifThen (.ne (.band (.var "s") (.lit flErrMask.toNat)) (.lit 0)) (.retErr (.reg .flStat) (.var "s")) ]

/-- `ERASE_PAGES(base, total)`, with its arguments under those names (42_driver_sequences.md R270); it always ends (R276,
HostSystem.AlwaysEnds). -/
def macroErasePages (p : Params) : HostProg := .block [
  .ifThen (.or (.eq (.var "total") (.lit 0)) (.ne (.mod (.var "total") (.lit p.pageSize)) (.lit 0)))
    (.retErr .invalid (.lit 0)),
  .forLoop "off" (.lit 0) (.var "total") (.lit p.pageSize)
    (flashOperation p [.wr .flAddr (.add (.var "base") (.var "off"))] fcErase),
  .retOk ]

/-- `PROGRAM_WORDS(base, src, len)`, with its arguments under those names (42_driver_sequences.md R272); it always ends
(R276, HostSystem.AlwaysEnds). -/
def macroProgramWords (p : Params) : HostProg := .block [
  .forLoop "off" (.lit 0) (.var "len") (.lit 4) (.block [
    .bindWordAt "w" (.var "src") (.var "off") (.var "len"),
    flashOperation p [.wr .flAddr (.add (.var "base") (.var "off")), .wr .flData (.var "w")] fcProgram ]),
  .retOk ]

/-- `FLASH_UPDATE(src, len)`, with its arguments under those names (42_driver_sequences.md R274); it always ends (R276,
HostSystem.AlwaysEnds). -/
def macroFlashUpdate (p : Params) : HostProg := .block [
  .ifThen (.or (.eq (.var "len") (.lit 0)) (.gt (.var "len") (.lit p.regionSize))) (.retErr .invalid (.lit 0)),
  .bind "total" (.mul (.div (.sub (.add (.var "len") (.lit p.pageSize)) (.lit 1)) (.lit p.pageSize)) (.lit p.pageSize)),
  .call [("base", .lit p.flashBase), ("total", .var "total")] (macroErasePages p),
  .call [("base", .lit p.flashBase), ("src", .var "src"), ("len", .var "len")] (macroProgramWords p),
  .retOk ]

end Sys2Proof.Machine
end

