-- ==== Sys2Proof/Machine/Ports.lean ====
section
/-! DEFINITION. The outputs of the block's ports as functions of the state (30_encoding.md R110 to R114): the host
port's answer, the I2C pins, the flash array port. Clock and reset (R110) are turns of the schedule; there is no
interrupt and no DMA output (R114). -/

namespace Sys2Proof.Machine

/-- `scl_o` (30_encoding.md R112). -/
def State.sclO (s : State) : Bool := s.i2c.sclDrv

/-- `sda_o` (30_encoding.md R112). -/
def State.sdaO (s : State) : Bool := s.i2c.sdaDrv

/-- `scl_i`, the sampled level (30_encoding.md R112, 10_state.md R42). -/
def State.sclI (s : State) (env : BusLines) : Bool := s.i2c.sclLevel env

/-- `sda_i`, the sampled level (30_encoding.md R112, 10_state.md R42). -/
def State.sdaI (s : State) (env : BusLines) : Bool := s.i2c.sdaLevel env

/-- `h_ready`: 0 holds the access (30_encoding.md R111). -/
def State.hReady (s : State) : Bool := s.response != .held

/-- `h_err`: 1 answers the access with HostBusError (30_encoding.md R111). -/
def State.hErr (s : State) : Bool := s.response == .error

/-- `h_rdata` of an accepted read; no value is returned otherwise (30_encoding.md R111, 20_memory.md R86). -/
def State.hRdata (s : State) : Option Word :=
  match s.response with
  | .value v => some v
  | .idle | .written | .held | .error => none

/-- `a_op` (30_encoding.md R113). -/
inductive ArrayOp where
  | none | read | erase | program
  deriving DecidableEq, Repr

/-- `a_op` of an operation in AWAIT (41_flash_programmer.md R225). -/
def FlKind.arrayOp : FlKind → ArrayOp
  | .erase => .erase
  | .program => .program

/-- `a_op`: READ for the host while idle; before the array is driven (ISSUE) an erase asks nothing and a program
reads its target; the operation while AWAIT; READ in VERIFY (30_encoding.md R113, 41_flash_programmer.md R225, R228).
The value in ISSUE is DEDUCED (log 14). -/
def FlashState.arrayOp (f : FlashState) : ArrayOp :=
  match f.opstate, f.ph with
  | .idle, _ => .read
  | .verify, _ => .read
  | .erase, .issue => .none
  | .program, .issue => .read
  | .erase, .await => f.kind.arrayOp
  | .program, .await => f.kind.arrayOp

/-- The address and width of the host's flash-region read, if one is its next access. -/
def State.hostRead (s : State) : Option (Nat × Size) :=
  match s.hostQ with
  | [] => none
  | acc :: _ =>
    match placeOf s.params acc.target, acc.wdata with
    | .region a, none => some (a, acc.size)
    | _, _ => none

/-- `a_addr`: the host's read while idle, `fl.op_addr` while busy (30_encoding.md R113 (a)). -/
def State.aAddr (s : State) : Option Nat := if s.fl.bsy then some s.fl.targetBase else s.hostRead.map Prod.fst

/-- `a_wdata`: `fl.op_data` during a program (30_encoding.md R113 (b)), and in AWAIT for either kind, since ISSUE
drives it whatever the kind (41_flash_programmer.md R225). `none` is a value that no rule states. DESIGN CHOICE
(log 14): "during a program" is `opstate = PROGRAM`, ISSUE among it and VERIFY not; an erase drives it in AWAIT only. -/
def State.aWdata (s : State) : Option Word :=
  match s.fl.opstate, s.fl.ph with
  | .program, _ => some s.fl.opData
  | .erase, .await => some s.fl.opData
  | .erase, .issue => none
  | .idle, _ => none
  | .verify, _ => none

/-- What `a_rdata` carries (30_encoding.md R113 (c)). -/
inductive ArrayRdata where
  /-- Nothing was asked: `a_op = NONE`, or no host read is pending while idle. -/
  | nothing
  /-- The array's status. -/
  | status (st : ArrayStatus)
  /-- Read data. -/
  | data (v : Word)
  deriving DecidableEq, Repr

/-- An erase or program is outstanding: driven and not yet answered to its end (30_encoding.md R113 (c)). That it is
not before ISSUE has driven the array is DEDUCED (log 14): a program's ISSUE reads data. -/
def FlashState.outstanding (f : FlashState) : Bool := f.arrayOp == .erase || f.arrayOp == .program

/-- The read data of `n` bytes at an address, zero-extended (00_scope.md R16). -/
def State.readData (s : State) (a n : Nat) : ArrayRdata := .data (BitVec.ofNat 32 (arrayRead s.array a n))

/-- The input `a_rdata` under the array's answer: the status while an erase or program is outstanding; read data in
VERIFY again and for a program's erased test, from `fl.op_addr`; read data of the host's read while idle
(30_encoding.md R113 (c), 41_flash_programmer.md R225, R226, R228). -/
def State.aRdata (s : State) (answer : ArrayAnswer) : ArrayRdata :=
  if s.fl.outstanding then .status answer.status
  else if s.fl.bsy then
    match s.fl.arrayOp with
    | .none => .nothing
    | .read | .erase | .program => s.readData s.fl.targetBase Config.wordBytes
  else
    match s.hostRead with
    | none => .nothing
    | some r => s.readData r.1 r.2.bytes

end Sys2Proof.Machine
end

