-- ==== Sys2Proof/Safety.lean ====
section
/-! DEFINITION. The words statements are made in: which outcomes are faults, the acceptance table of
40_i2c_master.md R186, the well-formedness of the wire trace, and the invariant of the block. -/

namespace Sys2Proof.Machine

/-- Some number of steps lead from `s` to `t`, each answering a next state. -/
inductive Reaches : State → State → Prop where
  | refl (s : State) : Reaches s s
  | step {s t u : State} : step s = .next t → Reaches t u → Reaches s u

/-- A step ends in the spec's model fault (60_exceptions.md R311). -/
def Faults (s : State) : Prop := ∃ cause after, step s = .fault (.hostBusError cause after)

/-- A run is safe: no state it reaches faults at its next step (10_state.md R53). -/
def SafeRun (s : State) : Prop := ∀ t, Reaches s t → ¬ Faults t

/-- The table of 40_i2c_master.md R186, row by row: the command is accepted in the state. OFF has no column (its
commands are rejected before the table is read). -/
def i2cAccepts : Instr → I2cSt → Bool → Bool
  | .i2cStart, .idle, _ => true
  | .i2cStart, .stopping, spend => !spend
  | .i2cAddrw _, .started, _ => true
  | .i2cWrite _, .ready, _ => true
  | .i2cStop, .started, _ => true
  | .i2cStop, .ready, _ => true
  | _, _, _ => false

/-- I2CM with the command error `c` recorded and nothing else changed (60_exceptions.md R293, R295). -/
def I2cState.withCmdError (i : I2cState) (c : I2cError) : I2cState :=
  { i with
      cmderr := true
      errcode := if i.nackf = false ∧ i.tof = false ∧ i.cmderr = false then some c else i.errcode }

/-- The code FPROG's ERRCODE holds after an error `c` (60_exceptions.md R295). -/
def FlashState.captured (f : FlashState) (c : FlError) : Option FlError :=
  if f.wrperr = false ∧ f.pgerr = false ∧ f.verr = false ∧ f.cmderr = false then some c else f.errcode

/-- FPROG with the command error `c` recorded and nothing else changed (60_exceptions.md R293, R295). -/
def FlashState.withCmdError (f : FlashState) (c : FlError) : FlashState :=
  { f with cmderr := true, errcode := f.captured c }

/-! ### Runs and views that statements use -/

/-- `n` steps, stopping at the first that does not answer a next state. -/
def runSteps : Nat → State → Host.Outcome State Fault Refusal
  | 0, s => .next s
  | n + 1, s =>
    match step s with
    | .next t => runSteps n t
    | .fault f => .fault f
    | .refused r => .refused r

/-! ### Infinite runs and weak fairness -/

/-- An infinite run: at each index one turn is taken, by `step`, from the state at that index, with the host's pending
accesses as the host then has them. Turns and accesses are the environment's and the host's, and come anew at each
index, so that the run never ends for want of a schedule and the host may make accesses for ever: every run of a host
that keeps to its queue is among them (00_scope.md R11; log 21). -/
def IsRun (turns : Nat → Turn) (accesses : Nat → List HostAccess) (states : Nat → State) : Prop :=
  ∀ n, step { states n with sched := [turns n], hostQ := accesses n } = .next (states (n + 1))

/-- A turn that is a tick of I2CM. -/
def Turn.isI2cTick : Turn → Bool
  | .i2cTick _ => true
  | .host _ | .flTick _ _ | .reset _ => false

/-- A turn that is a tick of FPROG. -/
def Turn.isFlTick : Turn → Bool
  | .flTick _ _ => true
  | .host _ | .i2cTick _ | .reset _ => false

/-- "An engine that has a tick enabled forever eventually takes it", for one engine (00_scope.md R12). -/
def FairTo (enabled : State → Bool) (isTick : Turn → Bool) (turns : Nat → Turn) (states : Nat → State) : Prop :=
  ∀ N, (∀ n, N ≤ n → enabled (states n) = true) → ∃ n, N ≤ n ∧ isTick (turns n) = true

/-- Weak fairness: fairness to I2CM, whose tick is enabled as 40_i2c_master.md R160 says, and to FPROG, whose tick is
enabled while `opstate != IDLE` (41_flash_programmer.md R225) (00_scope.md R12). -/
def WeaklyFair (turns : Nat → Turn) (states : Nat → State) : Prop :=
  FairTo (fun s => s.i2c.tickEnabled) Turn.isI2cTick turns states ∧
    FairTo (fun s => s.fl.bsy) Turn.isFlTick turns states

/-- An infinite run of the block with the host's program, the turns of the host being the program's moves, one that polls
for ever among them (42_driver_sequences.md R262); it is weakly fair when the block's part of it is. DEDUCED (log 24):
idle turns are admitted, so that a run may give the host no move for ever; HostSystem.IsExecution excludes that. -/
def HostSystem.IsRun (turns : Nat → Turn) (systems : Nat → HostSystem) : Prop :=
  ∀ n, (systems n).turn (turns n) = .next (systems (n + 1))

/-- The program is at a read of the flash region that is held (20_memory.md R90). -/
def HostSystem.held (y : HostSystem) : Bool :=
  match y.ctx.nextAccess with
  | none => false
  | some acc => isHeld acc y.block

/-- The turn is a step that 00_scope.md R11 has in that state: a tick the engine has enabled (40_i2c_master.md R160,
41_flash_programmer.md R225), a move of a program that has not ended and is not held (00_scope.md R13), or a reset. Every
other turn is idle (log 4, log 5). -/
def HostSystem.enabled (y : HostSystem) : Turn → Bool
  | .host _ => y.ctx.result.isNone && !y.held
  | .i2cTick _ => y.block.i2c.tickEnabled
  | .flTick _ _ => y.block.fl.bsy
  | .reset _ => true

/-- Only a reset is enabled: the program has ended and no engine has a tick. -/
def HostSystem.over (y : HostSystem) : Bool := y.ctx.result.isSome && !y.block.i2c.tickEnabled && !y.block.fl.bsy

/-- An execution of the block with a host program: a weakly fair run in which enabled steps come again and again while
there are any but resets, whatever idle turns lie between them (00_scope.md R11, R12). DEDUCED (log 24): nothing is
asked of the host's own turns; that it moves follows, since neither engine ticks for ever on its own. -/
structure HostSystem.IsExecution (turns : Nat → Turn) (systems : Nat → HostSystem) : Prop where
  run : HostSystem.IsRun turns systems
  fair : WeaklyFair turns fun n => (systems n).block
  proceeds : ∀ N, ∃ n, N ≤ n ∧ ((systems n).enabled (turns n) = true ∨ (systems n).over = true)

/-- No turn is a reset, as a claim about a host program assumes (70_reset_and_hazards.md R320). -/
def NoReset (turns : Nat → Turn) : Prop := ∀ n content, turns n ≠ .reset content

/-! ### Views that statements use -/

/-- The condition the current wait waits for, at a sample: a free bus in S0, SCL high in B2, A2 and P2
(40_i2c_master.md R162, R166, R170, R172). -/
def I2cState.waitHolds (i : I2cState) (env : BusLines) : Bool :=
  if i.ph = .s0 then i.sclLevel env && i.sdaLevel env else i.sclLevel env

/-- The code that names where a wait was (40_i2c_master.md R175). -/
def waitCode : I2cSt → I2cPhase → I2cError
  | _, .s0 => .timeoutStart
  | _, .p2 => .timeoutStop
  | .addressing, _ => .timeoutAddr
  | _, _ => .timeoutData

/-- The state with both engines' error flags and codes set to 0: what is left when errors are not looked at
(60_exceptions.md R296). -/
def State.withoutErrors (s : State) : State :=
  { s with
      i2c := { s.i2c with nackf := false, tof := false, cmderr := false, errcode := none }
      fl := { s.fl with wrperr := false, pgerr := false, verr := false, cmderr := false, errcode := none } }

/-- Byte `k` of the intended content (41_flash_programmer.md R227). -/
def intendedByte (kind : FlKind) (data : Word) (k : Nat) : Byte :=
  match kind with
  | .erase => 0xFF#8
  | .program => data.extractLsb' (8 * k) 8

/-- An address outside the range of length `n` at `a`. -/
def outsideRange (a n b : Nat) : Prop := b < a ∨ a + n ≤ b

/-! ### The wire trace -/

/-- One event read by an observer that knows whether the bus is owned: `none` once the trace is malformed. -/
def observe : Option Bool → BusEvent → Option Bool
  | some false, .start => some true
  | some true, .frame _ _ => some true
  | some true, .stop => some false
  | some true, .release => some false
  | _, _ => none

/-- What an observer concludes from a trace: frames, stops and releases stand only between a start and its stop or
release; the answer is whether a start is still open (10_state.md R47, 40_i2c_master.md R159). -/
def traceState (t : List BusEvent) : Option Bool := t.foldl observe (some false)

/-! ### The invariant -/

/-- The micro-phases of each state (10_state.md R37). -/
def phaseFits : I2cSt → I2cPhase → Bool
  | .starting, .s0 | .starting, .s1 => true
  | .addressing, .b0 | .addressing, .b1 | .addressing, .b2 | .addressing, .b3 => true
  | .addressing, .a0 | .addressing, .a1 | .addressing, .a2 | .addressing, .a3 => true
  | .transmitting, .b0 | .transmitting, .b1 | .transmitting, .b2 | .transmitting, .b3 => true
  | .transmitting, .a0 | .transmitting, .a1 | .transmitting, .a2 | .transmitting, .a3 => true
  | .stopping, .p0 | .stopping, .p1 | .stopping, .p2 | .stopping, .p3 => true
  | .off, .noPhase | .idle, .noPhase | .started, .noPhase | .ready, .noPhase => true
  | _, _ => false

/-- A frame is being shifted out or acknowledged. -/
def I2cState.framing (i : I2cState) : Bool := i.st == .addressing || i.st == .transmitting

/-- A data-bit phase. -/
def I2cPhase.isBit : I2cPhase → Bool
  | .b0 | .b1 | .b2 | .b3 => true
  | _ => false

/-- A phase that waits (40_i2c_master.md R161). -/
def I2cPhase.isWait : I2cPhase → Bool
  | .s0 | .b2 | .a2 | .p2 => true
  | _ => false

/-- The drivers each state and phase finds, `(scl_drv, sda_drv)`; `none` is either value (95_test_vectors.md 2.4). -/
def driversExpected : I2cSt → I2cPhase → Option Bool × Option Bool
  | .off, _ => (some false, some false)
  | .idle, _ => (some false, some false)
  | .starting, .s0 => (some false, some false)
  | .starting, .s1 => (some false, some true)
  | .started, _ => (some true, some true)
  | .ready, _ => (some true, some false)
  | _, .b0 => (some true, none)
  | _, .b1 => (some true, none)
  | _, .b2 => (some false, none)
  | _, .b3 => (some false, none)
  | _, .a0 => (some true, none)
  | _, .a1 => (some true, some false)
  | _, .a2 => (some false, some false)
  | _, .a3 => (some false, some false)
  | _, .p0 => (some true, none)
  | _, .p1 => (some true, some true)
  | _, .p2 => (some false, some true)
  | _, .p3 => (some false, some true)
  | _, _ => (none, none)

/-- A driver has the value expected of it. -/
def driverFits (expected : Option Bool) (drv : Bool) : Bool :=
  match expected with
  | none => true
  | some b => drv == b

/-- The invariant of I2CM. -/
structure I2cState.Inv (i : I2cState) : Prop where
  /-- `st = OFF` exactly when `EN = 0` (40_i2c_master.md R180). -/
  off_iff_disabled : i.st = .off ↔ i.en = false
  /-- The phase is one of the state's (10_state.md R37). -/
  phase : phaseFits i.st i.ph = true
  /-- `bitcnt` is 0 to 8 (10_state.md R38). -/
  bitcnt_le : i.bitcnt ≤ 8
  /-- Some bit is still to send in a data-bit phase. -/
  bits_left : i.framing = true → i.ph.isBit = true → 1 ≤ i.bitcnt
  /-- No bit is left in an acknowledge phase. -/
  bits_done : i.framing = true → i.ph.isBit = false → i.bitcnt = 0
  /-- The shifter holds the frame byte less the bits already sent (10_state.md R38). -/
  shifted : i.framing = true → i.shreg = i.txbyte <<< (8 - i.bitcnt)
  /-- The bit on the wire is the shifter's top bit from B1 to B3 (40_i2c_master.md R164). -/
  bit_on_wire : i.framing = true → (i.ph = .b1 ∨ i.ph = .b2 ∨ i.ph = .b3) → i.sdaDrv = !i.shreg.getLsbD 7
  /-- An address frame carries the write-intent bit 0 (30_encoding.md R133). -/
  write_intent : i.st = .addressing → i.txbyte.getLsbD 0 = false
  /-- SCL's driver is where the phase leaves it. -/
  scl : driverFits (driversExpected i.st i.ph).1 i.sclDrv = true
  /-- SDA's driver is where the phase leaves it. -/
  sda : driverFits (driversExpected i.st i.ph).2 i.sdaDrv = true
  /-- A start is pending only while a stop is made (10_state.md R40). -/
  pending : i.spend = true → i.st = .stopping
  /-- The wait counter is 0 outside the waits (60_exceptions.md R306). -/
  wait_reset : i.ph.isWait = false → i.wcnt = 0#16
  /-- `ERRCODE = 0` if and only if every error flag is 0 (60_exceptions.md R300). -/
  errcode : i.errcode = none ↔ i.clean = true

/-- The invariant of FPROG. -/
structure FlashState.Inv (p : Params) (f : FlashState) : Prop where
  /-- `opstate` ERASE goes with `kind` ERASE, PROGRAM with PROGRAM (41_flash_programmer.md R217, R218). -/
  erase_kind : f.opstate = .erase → f.kind = .erase
  program_kind : f.opstate = .program → f.kind = .program
  /-- Idle stands at ISSUE with the counter 0 (41_flash_programmer.md R224). -/
  idle_phase : f.opstate = .idle → f.ph = .issue
  /-- VERIFY is reached from AWAIT (41_flash_programmer.md R226). -/
  verify_phase : f.opstate = .verify → f.ph = .await
  /-- The counter is 0 at ISSUE (41_flash_programmer.md R217, R218, R224). -/
  issue_wcnt : f.ph = .issue → f.wcnt = 0
  /-- The counter is below FLASH_OP_TIMEOUT (10_state.md R32). -/
  wcnt_lt : f.wcnt < p.flashOpTimeout
  /-- While `BSY = 1`, `locked = 0` (41_flash_programmer.md R214). -/
  busy_unlocked : f.bsy = true → f.locked = false
  /-- `keyseq` is 1 only while locked (10_state.md R46). -/
  keyseq_locked : f.keyseq = true → f.locked = true
  /-- The operation in progress passed the address and protection checks (41_flash_programmer.md R221, R222). -/
  target_checked : f.bsy = true → addressError p f.kind f.targetBase = none
  /-- `ERRCODE = 0` if and only if every error flag is 0 (60_exceptions.md R300). -/
  errcode : f.errcode = none ↔ f.clean = true

/-- The invariant of the block. -/
structure State.Inv (s : State) : Prop where
  /-- The parameters keep 00_scope.md R9. -/
  params : s.params.valid = true
  i2c : s.i2c.Inv
  fl : s.fl.Inv s.params
  /-- The array's cells are in canonical form. -/
  array : Memory.wf s.array = true
  /-- The array has no cell outside the region (10_state.md R51). -/
  region : withinRegion s.params s.array = true
  /-- The trace is well formed, and a start is open exactly while I2CM owns the bus (40_i2c_master.md R159). -/
  trace : traceState s.trace = some s.i2c.owned

/-! ### Termination of the driver sequences -/

/-- "Always ends under weak fairness" (42_driver_sequences.md R275, R276): every execution without a reset in which the
program starts, whatever names are bound, whatever the environments draw and whatever state it finds the block in, comes
to the program's end. -/
def HostSystem.AlwaysEnds (prog : HostProg) : Prop :=
  ∀ (turns : Nat → Turn) (systems : Nat → HostSystem), HostSystem.IsExecution turns systems → NoReset turns →
    (systems 0).block.i2c.Inv → (systems 0).ctx.stack = [.run prog] → (systems 0).ctx.result = none →
    ∃ n, (systems n).ctx.result.isSome = true

/-- The driver sequences that always end: I2C_WRITE (42_driver_sequences.md R275), ERASE_PAGES, PROGRAM_WORDS and
FLASH_UPDATE (R276; PAGE_SIZE is not 0 by 00_scope.md R9), and I2C_INIT, which waits for nothing (R265). -/
inductive EndingDriver : HostProg → Prop where
  | i2cInit (p : Params) : EndingDriver (macroI2cInit p)
  | i2cWrite (a : Nat) (b : List Byte) : EndingDriver (macroI2cWrite a b)
  | erasePages (p : Params) (hp : 0 < p.pageSize) : EndingDriver (macroErasePages p)
  | programWords (p : Params) : EndingDriver (macroProgramWords p)
  | flashUpdate (p : Params) (hp : 0 < p.pageSize) : EndingDriver (macroFlashUpdate p)

end Sys2Proof.Machine
end

