-- ==== Sys2Proof/Certificates/Slice0/Obligations.lean ====
section
/-! DEFINITION. The statements about the model. -/

open Sys2Proof Sys2Proof.Machine

/-! ### Encoding -/

/-- Decoding the machine form of an instruction gives the instruction back, with every operand at every value
(30_encoding.md section 3, R124, R125, R129, R130). -/
def Obligations.DecodeInvertsEncode : Prop := ∀ i : Instr, decode (encode i).1 (encode i).2 = .ok i

/-- No word has two readings and no bit of a word is dropped: the instruction a register's decoder reads from a word
has that word as its encoding (30_encoding.md section 6). -/
def Obligations.DecodedWordIsItsEncoding : Prop :=
  ∀ (r : CmdReg) (v : Word) (i : Instr), decode r v = .ok i → encode i = (r, v)

/-- 30_encoding.md R126. -/
def Obligations.I2cWordIsValidOrRejected : Prop :=
  ∀ v : Word,
    ((v.extractLsb' 16 16 = 0#16 ∧ v.extractLsb' 4 4 = 0#4 ∧ (v.extractLsb' 0 4).toNat ≤ 4 ∧
        (v.extractLsb' 0 4 = 0#4 ∨ v.extractLsb' 0 4 = 1#4 ∨ v.extractLsb' 0 4 = 4#4 → v.extractLsb' 8 8 = 0#8) ∧
        (v.extractLsb' 0 4 = 2#4 → v.getLsbD 15 = false)) ↔
      ∃ i, decode .i2cCmd v = .ok i) ∧
    ((∀ i, decode .i2cCmd v ≠ .ok i) →
      ∀ s, writeReg .i2cCmd v s = .next (s.setI2c (s.i2c.withCmdError .cmdReserved)))

/-- 30_encoding.md R132: the four values of R130 are the valid encodings, and every other value is rejected with
CMD_RESERVED and has no other effect. -/
def Obligations.FlashWordIsValidOrRejected : Prop :=
  decode .flCmd 0x00000000#32 = .ok .flNop ∧ decode .flCmd 0x00000001#32 = .ok .flErasePage ∧
  decode .flCmd 0x00000002#32 = .ok .flProgramWord ∧ decode .flCmd 0x00000003#32 = .ok .flLock ∧
  ∀ v : Word, 4 ≤ v.toNat →
    (∀ i, decode .flCmd v ≠ .ok i) ∧
    ∀ s, writeReg .flCmd v s = .next (s.setFl (s.fl.withCmdError .cmdReserved))

/-- Words written out from the encodings of 30_encoding.md R123 to R125, R129, R130. -/
def Obligations.WrittenWordsDecode : Prop :=
  decode .i2cCmd 0x00003C02#32 = .ok (.i2cAddrw 0x3C#7) ∧ decode .i2cCmd 0x00007F02#32 = .ok (.i2cAddrw 127#7) ∧
  decode .i2cCmd 0x00008003#32 = .ok (.i2cWrite 0x80#8) ∧ decode .i2cCmd 0x0000AF03#32 = .ok (.i2cWrite 0xAF#8) ∧
  decode .i2cCmd 0x00000001#32 = .ok .i2cStart ∧ decode .i2cCmd 0x00000004#32 = .ok .i2cStop ∧
  decode .flCmd 0x00000001#32 = .ok .flErasePage ∧ decode .flKey 0x0BADC0DE#32 = .ok (.flKey 0x0BADC0DE#32)

/-! ### A step runs the decoded instruction -/

/-- When the host moves next and its next access is a 32-bit write that lands at the offset of a register, the step is
the write to that register, in the state with the turn and the access taken and the write answered; where the register is
a command register and the word decodes, it is that instruction's meaning there. Every offset of the window is reached by
itself and by its host address (30_encoding.md section 2, 20_memory.md sections 1 and 4). -/
def Obligations.StepRunsDecodedInstruction : Prop :=
  (∀ (s : State) (env : BusLines) (rest : List Turn) (acc : HostAccess) (q : List HostAccess) (off : Nat) (v : Word),
    s.sched = .host env :: rest → s.hostQ = acc :: q → placeOf s.params acc.target = .window off →
    acc.size = .four → acc.wdata = some v →
    (∀ r : Reg, (r, off) ∈ [(.i2cCtrl, 0x00), (.i2cTiming, 0x04), (.i2cTimeout, 0x08), (.i2cCmd, 0x0C), (.i2cStat, 0x10),
        (.flKey, 0x20), (.flCmd, 0x24), (.flAddr, 0x28), (.flData, 0x2C), (.flStat, 0x30)] →
      step s = writeReg r v { s with sched := rest, hostQ := q, response := .written }) ∧
    ∀ (r : CmdReg) (i : Instr), (r, off) ∈ [(.i2cCmd, 0x0C), (.flKey, 0x20), (.flCmd, 0x24)] → decode r v = .ok i →
      step s = exec i { s with sched := rest, hostQ := q, response := .written }) ∧
  ∀ (p : Params) (off : Nat), off < 0x40 →
    placeOf p (.reg off) = .window off ∧ ∀ a : Word, a.toNat = p.blkBase + off → placeOf p (.addr a) = .window off

/-- An instruction word placed where the next step takes its instruction is run by that step, from any state (the
placing is the model's own, log 3 and log 12). -/
def Obligations.PlacedWordRunsItsInstruction : Prop :=
  ∀ (s : State) (nbits w : Nat) (i : Instr), decodeTableWord nbits w = some i →
    step (s.withFetchWord nbits w) = exec i { s with response := .written }

/-! ### The I2CM commands -/

/-- 40_i2c_master.md R185, 41_flash_programmer.md R216. -/
def Obligations.NopsChangeNothing : Prop :=
  decode .i2cCmd 0x00000000#32 = .ok .i2cNop ∧ decode .flCmd 0x00000000#32 = .ok .flNop ∧
  ∀ s : State, exec .i2cNop s = .next s ∧ exec .flNop s = .next s

/-- An accepted START (40_i2c_master.md section 4, START): from IDLE it begins, with `BUSY = 1` at once and `SB` not
yet; from STOPPING with none pending it is queued. Nothing else changes. -/
def Obligations.StartBeginsOrIsQueued : Prop :=
  ∀ s : State, s.i2c.en = true →
    (s.i2c.st = .idle →
      ∃ t, exec .i2cStart s = .next t ∧
        t = { s with i2c := { s.i2c with st := .starting, ph := .s0, wcnt := 0#16 } } ∧
        ∀ env, (t.i2c.statWord env).getLsbD 2 = true ∧ (t.i2c.statWord env).getLsbD 0 = false) ∧
    (s.i2c.st = .stopping → s.i2c.spend = false →
      ∃ t, exec .i2cStart s = .next t ∧ t = { s with i2c := { s.i2c with spend := true } } ∧
        ∀ env, (t.i2c.statWord env).getLsbD 7 = true)

/-- An accepted ADDRW(a) loads the frame byte `a << 1`, the low bit being the write-intent bit, and begins to shift
it out; nothing else changes (40_i2c_master.md section 4, ADDRW; 30_encoding.md section 5). -/
def Obligations.AddrwLoadsTheAddressFrame : Prop :=
  ∀ (s : State) (a : BitVec 7), s.i2c.en = true → s.i2c.st = .started →
    ∃ t, exec (.i2cAddrw a) s = .next t ∧
      t = { s with i2c := { s.i2c with
              txbyte := BitVec.ofNat 8 (2 * a.toNat), shreg := BitVec.ofNat 8 (2 * a.toNat), bitcnt := 8
              st := .addressing, ph := .b0, wcnt := 0#16 } } ∧
      ∀ env, (t.i2c.statWord env).getLsbD 0 = false

/-- An accepted WRITE(b) loads the byte and begins to shift it out; `ADDR`, `BTF` and `TXE` become 0 at once, `TRA`
stays 1, nothing else changes (40_i2c_master.md section 4, WRITE). -/
def Obligations.WriteLoadsTheByte : Prop :=
  ∀ (s : State) (b : Byte), s.i2c.en = true → s.i2c.st = .ready →
    ∃ t, exec (.i2cWrite b) s = .next t ∧
      t = { s with i2c := { s.i2c with
              txbyte := b, shreg := b, bitcnt := 8, st := .transmitting, ph := .b0, wcnt := 0#16 } } ∧
      ∀ env, (t.i2c.statWord env).getLsbD 3 = false ∧ (t.i2c.statWord env).getLsbD 4 = false ∧
        (t.i2c.statWord env).getLsbD 5 = false ∧ (t.i2c.statWord env).getLsbD 6 = true

/-- An accepted STOP begins the stop condition; `SB`, `ADDR`, `TXE`, `BTF`, `TRA` become 0 at once, `MSL` and `BUSY`
stay 1, nothing else changes (40_i2c_master.md section 4, STOP). -/
def Obligations.StopBeginsTheStopCondition : Prop :=
  ∀ s : State, s.i2c.en = true → (s.i2c.st = .started ∨ s.i2c.st = .ready) →
    ∃ t, exec .i2cStop s = .next t ∧
      t = { s with i2c := { s.i2c with st := .stopping, ph := .p0, wcnt := 0#16 } } ∧
      ∀ env, (t.i2c.statWord env).getLsbD 0 = false ∧ (t.i2c.statWord env).getLsbD 3 = false ∧
        (t.i2c.statWord env).getLsbD 4 = false ∧ (t.i2c.statWord env).getLsbD 5 = false ∧
        (t.i2c.statWord env).getLsbD 6 = false ∧ (t.i2c.statWord env).getLsbD 1 = true ∧
        (t.i2c.statWord env).getLsbD 2 = true

/-- 40_i2c_master.md R186: the four checks of a value written to I2C_CMD, in order, for every value and every state;
an accepted command is the decoded instruction's meaning and records no error. -/
def Obligations.I2cCommandChecksInOrder : Prop :=
  ∀ (v : Word) (s : State),
    (validI2cWord v = false → writeReg .i2cCmd v s = .next (s.setI2c (s.i2c.withCmdError .cmdReserved))) ∧
    (validI2cWord v = true → ∃ i, decode .i2cCmd v = .ok i ∧
      (i = .i2cNop → writeReg .i2cCmd v s = .next s) ∧
      (i ≠ .i2cNop → s.i2c.en = false →
        writeReg .i2cCmd v s = .next (s.setI2c (s.i2c.withCmdError .cmdDisabled))) ∧
      (i ≠ .i2cNop → s.i2c.en = true → i2cAccepts i s.i2c.st s.i2c.spend = false →
        writeReg .i2cCmd v s = .next (s.setI2c (s.i2c.withCmdError .cmdSequence))) ∧
      (i ≠ .i2cNop → s.i2c.en = true → i2cAccepts i s.i2c.st s.i2c.spend = true →
        ∃ t, writeReg .i2cCmd v s = .next t ∧ exec i s = .next t ∧ t ≠ s ∧
          t.i2c.nackf = s.i2c.nackf ∧ t.i2c.tof = s.i2c.tof ∧ t.i2c.cmderr = s.i2c.cmderr ∧
          t.i2c.errcode = s.i2c.errcode))

/-! ### The FPROG commands -/

/-- A key word in every state: the first key, the second key, or a key error; ignored while unlocked. KEY1 and then
KEY2 unlock; KEY1 twice is a key error that leaves the sequence abandoned (41_flash_programmer.md section 2). -/
def Obligations.KeyWordsUnlockInSequence : Prop :=
  (∀ (s : State) (v : Word),
    exec (.flKey v) s = .next (s.setFl (
      if s.fl.locked = false then s.fl
      else if s.fl.keyseq = false then
        if v = s.params.key1 then { s.fl with keyseq := true } else s.fl.withCmdError .key
      else if v = s.params.key2 then { s.fl with keyseq := false, locked := false }
      else { s.fl with keyseq := false, cmderr := true, errcode := s.fl.captured .key }))) ∧
  ∀ s : State, s.fl.locked = true → s.fl.keyseq = false →
    ∃ t, exec (.flKey s.params.key1) s = .next t ∧
      exec (.flKey s.params.key2) t = .next { s with fl := { s.fl with locked := false } } ∧
      (s.params.valid = true →
        exec (.flKey s.params.key1) t = .next { s with fl := s.fl.withCmdError .key })

/-- An ERASE_PAGE whose checks pass latches its operands and starts the sequencer; nothing else changes
(41_flash_programmer.md section 3, ERASE_PAGE). -/
def Obligations.ErasePageStartsOnACheckedPage : Prop :=
  ∀ s : State, s.fl.opstate = .idle → s.fl.locked = false →
    s.params.flashBase ≤ s.fl.addr.toNat → s.fl.addr.toNat < s.params.flashBase + s.params.regionSize →
    (s.fl.addr.toNat - s.params.flashBase) % s.params.pageSize = 0 →
    (s.fl.addr.toNat - s.params.flashBase) / s.params.pageSize ∉ s.params.wrp →
    ∃ t, exec .flErasePage s = .next t ∧
      t = { s with fl := { s.fl with
              opAddr := s.fl.addr, opData := s.fl.data, kind := .erase, opstate := .erase, ph := .issue, wcnt := 0 } } ∧
      t.fl.statWord.getLsbD 0 = true ∧ t.fl.statWord.extractLsb' 16 2 = 1#2

/-- A PROGRAM_WORD whose checks pass latches its operands and starts the sequencer; nothing else changes
(41_flash_programmer.md section 3, PROGRAM_WORD). -/
def Obligations.ProgramWordStartsOnACheckedWord : Prop :=
  ∀ s : State, s.fl.opstate = .idle → s.fl.locked = false →
    s.params.flashBase ≤ s.fl.addr.toNat → s.fl.addr.toNat < s.params.flashBase + s.params.regionSize →
    s.fl.addr.toNat % 4 = 0 →
    (s.fl.addr.toNat - s.params.flashBase) / s.params.pageSize ∉ s.params.wrp →
    ∃ t, exec .flProgramWord s = .next t ∧
      t = { s with fl := { s.fl with
              opAddr := s.fl.addr, opData := s.fl.data, kind := .program, opstate := .program, ph := .issue
              wcnt := 0 } } ∧
      t.fl.statWord.getLsbD 0 = true ∧ t.fl.statWord.extractLsb' 16 2 = 2#2

/-- 41_flash_programmer.md R219: LOCK when idle sets `locked` and clears `keyseq`, locked already or not; while busy
it is rejected with BUSY. -/
def Obligations.LockLocksWhenIdle : Prop :=
  decode .flCmd 0x00000003#32 = .ok .flLock ∧
  ∀ s : State,
    (s.fl.opstate = .idle → exec .flLock s = .next { s with fl := { s.fl with locked := true, keyseq := false } }) ∧
    (s.fl.opstate ≠ .idle → exec .flLock s = .next { s with fl := s.fl.withCmdError .busy })

/-- 41_flash_programmer.md R220, R222, R223: what every value written to FL_CMD does in every state, the checks in
their order, one error at most. -/
def Obligations.FlashCommandChecksInOrder : Prop :=
  ∀ (v : Word) (s : State),
    writeReg .flCmd v s = .next (s.setFl (
      if 4 ≤ v.toNat then s.fl.withCmdError .cmdReserved
      else if v = 0#32 then s.fl
      else if s.fl.opstate ≠ .idle then s.fl.withCmdError .busy
      else if v = 3#32 then { s.fl with locked := true, keyseq := false }
      else if s.fl.locked = true then s.fl.withCmdError .locked
      else if s.fl.addr.toNat < s.params.flashBase ∨ s.params.flashBase + s.params.regionSize ≤ s.fl.addr.toNat then
        s.fl.withCmdError .range
      else if (v = 1#32 ∧ (s.fl.addr.toNat - s.params.flashBase) % s.params.pageSize ≠ 0) ∨
          (v = 2#32 ∧ s.fl.addr.toNat % 4 ≠ 0) then
        s.fl.withCmdError .align
      else if (s.fl.addr.toNat - s.params.flashBase) / s.params.pageSize ∈ s.params.wrp then
        { s.fl with wrperr := true, errcode := s.fl.captured .wrp }
      else
        { s.fl with
          opAddr := s.fl.addr, opData := s.fl.data, ph := .issue, wcnt := 0
          kind := if v = 1#32 then .erase else .program
          opstate := if v = 1#32 then .erase else .program }))

/-- In a valid configuration the whole target of a command that passes the address checks lies inside the region,
and an aligned host read of the region never crosses its end (41_flash_programmer.md section 4, 20_memory.md section 3). -/
def Obligations.CheckedTargetsLieInTheRegion : Prop :=
  ∀ (p : Params) (a : Nat), p.valid = true → p.flashBase ≤ a → a < p.flashBase + p.regionSize →
    ((a - p.flashBase) % p.pageSize = 0 → ∀ k, k < p.pageSize → a + k < p.flashBase + p.regionSize) ∧
    ∀ n, (n = 1 ∨ n = 2 ∨ n = 4) → a % n = 0 → ∀ k, k < n → a + k < p.flashBase + p.regionSize

/-- 41_flash_programmer.md R213, R214: a key word while unlocked does nothing; while `BSY = 1`, `locked = 0` (true at
reset, kept by every step), so that a key word while busy does nothing either. -/
def Obligations.BusyMeansUnlocked : Prop :=
  (∀ (s : State) (v : Word), s.fl.locked = false → writeReg .flKey v s = .next s) ∧
  (State.reset.fl.bsy = true → State.reset.fl.locked = false) ∧
  (∀ s t : State, (s.fl.bsy = true → s.fl.locked = false) → step s = .next t →
    (t.fl.bsy = true → t.fl.locked = false)) ∧
  ∀ (s : State) (v : Word), (s.fl.bsy = true → s.fl.locked = false) → s.fl.bsy = true →
    writeReg .flKey v s = .next s

/-! ### What commands never touch -/

/-- The frame of every instruction: a command changes its own engine's state and nothing else, no byte of the array
among it. The per-command statements say which elements of that state. -/
def Obligations.CommandsChangeOnlyTheirEngine : Prop :=
  ∀ (i : Instr) (s t : State), exec i s = .next t →
    (t = { s with i2c := t.i2c } ∨ t = { s with fl := t.fl }) ∧
    (i.reg = .i2cCmd → t.fl = s.fl) ∧ (i.reg ≠ .i2cCmd → t.i2c = s.i2c) ∧
    ∀ a, readByte t.array a = readByte s.array a

/-- 60_exceptions.md R296: two states that differ in error flags and codes only still differ in nothing else after any
instruction, so that whether it is accepted and what it does never depends on them. -/
def Obligations.ErrorsDoNotBlock : Prop :=
  ∀ (i : Instr) (s s' t t' : State), s.withoutErrors = s'.withoutErrors →
    exec i s = .next t → exec i s' = .next t' → t.withoutErrors = t'.withoutErrors

/-! ### The I2CM state machine -/

/-- Phase S0 with a free bus makes the start condition, phase S1 takes SCL low (40_i2c_master.md R163 and the passing
case of section 2). -/
def Obligations.StartConditionTakesTwoTicks : Prop :=
  ∀ (s : State) (env : BusLines) (rest : List Turn), s.sched = .i2cTick env :: rest → s.i2c.st = .starting →
    (s.i2c.ph = .s0 → s.i2c.sclDrv = false → s.i2c.sdaDrv = false → env = ⟨true, true⟩ →
      step s = .next { s with
        sched := rest, trace := s.trace ++ [.start]
        i2c := { s.i2c with sdaDrv := true, ph := .s1, wcnt := 0#16 } }) ∧
    (s.i2c.ph = .s1 →
      ∃ t, step s = .next t ∧
        t = { s with sched := rest, i2c := { s.i2c with sclDrv := true, st := .started, ph := .noPhase } } ∧
        ∀ e, (t.i2c.statWord e).extractLsb' 0 3 = 7#3)

/-- 40_i2c_master.md R164, R165, R167, and the passing case of R166: the four phases of a data bit. -/
def Obligations.DataBitPhases : Prop :=
  ∀ (s : State) (env : BusLines) (rest : List Turn), s.sched = .i2cTick env :: rest →
    (s.i2c.st = .addressing ∨ s.i2c.st = .transmitting) →
    (s.i2c.ph = .b0 →
      step s = .next { s with
        sched := rest, i2c := { s.i2c with sdaDrv := if s.i2c.shreg.getLsbD 7 = false then true else false, ph := .b1 } }) ∧
    (s.i2c.ph = .b1 → step s = .next { s with sched := rest, i2c := { s.i2c with sclDrv := false, ph := .b2 } }) ∧
    (s.i2c.ph = .b2 → s.i2c.sclDrv = false → env.scl = true →
      step s = .next { s with sched := rest, i2c := { s.i2c with ph := .b3, wcnt := 0#16 } }) ∧
    (s.i2c.ph = .b3 → ∀ n, s.i2c.bitcnt = n + 1 →
      step s = .next { s with
        sched := rest
        i2c := { s.i2c with
          sclDrv := true, shreg := s.i2c.shreg.extractLsb' 0 7 ++ 0#1, bitcnt := n
          ph := if n = 0 then .a0 else .b0 } })

/-- 40_i2c_master.md R168, R169, R171, and the passing case of R170: the acknowledge. -/
def Obligations.AcknowledgePhases : Prop :=
  ∀ (s : State) (env : BusLines) (rest : List Turn), s.sched = .i2cTick env :: rest →
    (s.i2c.st = .addressing ∨ s.i2c.st = .transmitting) →
    (s.i2c.ph = .a0 → step s = .next { s with sched := rest, i2c := { s.i2c with sdaDrv := false, ph := .a1 } }) ∧
    (s.i2c.ph = .a1 → step s = .next { s with sched := rest, i2c := { s.i2c with sclDrv := false, ph := .a2 } }) ∧
    (s.i2c.ph = .a2 → s.i2c.sclDrv = false → s.i2c.sdaDrv = false → env.scl = true →
      step s = .next { s with
        sched := rest, trace := s.trace ++ [.frame s.i2c.txbyte (!env.sda)]
        i2c := { s.i2c with ack := !env.sda, ph := .a3, wcnt := 0#16 } }) ∧
    (s.i2c.ph = .a3 → s.i2c.ack = true →
      step s = .next { s with
        sched := rest
        i2c := { s.i2c with
          sclDrv := true, sent := decide (s.i2c.st = .transmitting), st := .ready, ph := .noPhase } }) ∧
    (s.i2c.ph = .a3 → s.i2c.ack = false →
      step s = .next { s with
        sched := rest
        i2c := { s.i2c with
          sclDrv := true, st := .stopping, ph := .p0, wcnt := 0#16, nackf := true
          errcode :=
            if s.i2c.nackf = false ∧ s.i2c.tof = false ∧ s.i2c.cmderr = false then
              some (if s.i2c.st = .addressing then .nackAddr else .nackData)
            else s.i2c.errcode } })

/-- Four ticks with SCL free make the stop condition, and then I2CM is idle, or begins the pending start
(40_i2c_master.md section 2, phases P0 to P3). -/
def Obligations.StopConditionTakesFourTicks : Prop :=
  ∀ (s : State) (e0 e1 e2 e3 : BusLines) (rest : List Turn),
    s.sched = .i2cTick e0 :: .i2cTick e1 :: .i2cTick e2 :: .i2cTick e3 :: rest →
    s.i2c.st = .stopping → s.i2c.ph = .p0 → e2.scl = true →
    (s.i2c.spend = false →
      runSteps 4 s = .next { s with
        sched := rest, trace := s.trace ++ [.stop]
        i2c := { s.i2c with sclDrv := false, sdaDrv := false, wcnt := 0#16, st := .idle, ph := .noPhase } }) ∧
    (s.i2c.spend = true →
      runSteps 4 s = .next { s with
        sched := rest, trace := s.trace ++ [.stop]
        i2c := { s.i2c with
          sclDrv := false, sdaDrv := false, wcnt := 0#16, spend := false, st := .starting, ph := .s0 } })

/-- 40_i2c_master.md R174, R175, and the failing cases of R161: a sample that fails stays and counts, or, with the
budget spent, times out: both lines released, `Release` if the bus is owned (all but S0), a pending start dropped,
IDLE, and the code that names the wait; every such code is the source's BusTimeout. -/
def Obligations.FailedWaitStaysOrTimesOut : Prop :=
  (∀ (s : State) (env : BusLines) (rest : List Turn), s.sched = .i2cTick env :: rest →
    phaseFits s.i2c.st s.i2c.ph = true → s.i2c.ph.isWait = true → s.i2c.waitHolds env = false →
    (s.i2c.wcnt.toNat < s.i2c.budget.toNat →
      step s = .next { s with sched := rest, i2c := { s.i2c with wcnt := BitVec.ofNat 16 (s.i2c.wcnt.toNat + 1) } }) ∧
    (s.i2c.budget.toNat ≤ s.i2c.wcnt.toNat →
      step s = .next { s with
        sched := rest, trace := s.trace ++ if s.i2c.ph = .s0 then [] else [.release]
        i2c := { s.i2c with
          sclDrv := false, sdaDrv := false, spend := false, wcnt := 0#16, st := .idle, ph := .noPhase, tof := true
          errcode :=
            if s.i2c.nackf = false ∧ s.i2c.tof = false ∧ s.i2c.cmderr = false then some (waitCode s.i2c.st s.i2c.ph)
            else s.i2c.errcode } })) ∧
  ∀ st ph, (waitCode st ph).taxonomy = .busTimeout

/-- 40_i2c_master.md R193: with a wait begun (`wcnt = 0`), the failing samples of any list of at most `TO` are tolerated
(and a passing sample then passes the wait), and those of a list of `TO + 1` time out. -/
def Obligations.WaitToleratesExactlyItsBudget : Prop :=
  ∀ (s : State) (bad : List BusLines) (rest : List Turn),
    phaseFits s.i2c.st s.i2c.ph = true → s.i2c.ph.isWait = true → (∀ e ∈ bad, s.i2c.waitHolds e = false) →
    s.i2c.wcnt = 0#16 → s.sched = bad.map Turn.i2cTick ++ rest →
    (bad.length ≤ s.i2c.budget.toNat →
      runSteps bad.length s =
        .next { s with sched := rest, i2c := { s.i2c with wcnt := BitVec.ofNat 16 bad.length } } ∧
      ∀ good, s.i2c.waitHolds good = true → rest.head? = some (.i2cTick good) →
        ∃ t, runSteps (bad.length + 1) s = .next t ∧ t.i2c.tof = s.i2c.tof ∧ t.i2c.st = s.i2c.st ∧
          t.i2c.wcnt = 0#16 ∧ t.i2c.ph ≠ s.i2c.ph) ∧
    (bad.length = s.i2c.budget.toNat + 1 →
      ∃ t, runSteps bad.length s = .next t ∧ t.i2c.st = .idle ∧ t.i2c.tof = true ∧ t.sched = rest)

/-- A frame takes 36 ticks when SCL is free, shifts out exactly its byte, appends exactly one `Frame` with the level
SDA had at the acknowledge sample (the 35th tick), and ends in READY on an acknowledge or in the automatic stop with
the NACK recorded; nothing else changes (40_i2c_master.md sections 2 and 5). -/
def Obligations.FrameTakesThirtySixTicks : Prop :=
  ∀ (s : State) (b : Byte) (envs : List BusLines) (rest : List Turn) (ackSample : BusLines),
    (s.i2c.st = .addressing ∨ s.i2c.st = .transmitting) → s.i2c.ph = .b0 → s.i2c.bitcnt = 8 →
    s.i2c.shreg = b → s.i2c.txbyte = b → s.i2c.wcnt = 0#16 →
    envs.length = 36 → (∀ e ∈ envs, e.scl = true) → envs[34]? = some ackSample →
    s.sched = envs.map Turn.i2cTick ++ rest →
    (ackSample.sda = false →
      runSteps 36 s = .next { s with
        sched := rest, trace := s.trace ++ [.frame b true]
        i2c := { s.i2c with
          shreg := 0#8, bitcnt := 0, ack := true, sclDrv := true, sdaDrv := false
          sent := decide (s.i2c.st = .transmitting), st := .ready, ph := .noPhase } }) ∧
    (ackSample.sda = true →
      runSteps 36 s = .next { s with
        sched := rest, trace := s.trace ++ [.frame b false]
        i2c := { s.i2c with
          shreg := 0#8, bitcnt := 0, ack := false, sclDrv := true, sdaDrv := false, st := .stopping, ph := .p0
          nackf := true
          errcode :=
            if s.i2c.nackf = false ∧ s.i2c.tof = false ∧ s.i2c.cmderr = false then
              some (if s.i2c.st = .addressing then .nackAddr else .nackData)
            else s.i2c.errcode } })

/-- 40_i2c_master.md R177: a step that finds SCL released changes SDA's driver only in phase S0 or P3, or in a timeout,
a disable or a reset, which release both lines at once. -/
def Obligations.SdaMovesWhileSclIsReleasedOnlyAtStartAndStop : Prop :=
  ∀ (s t : State) (u : Turn) (rest : List Turn), s.i2c.Inv → s.sched = u :: rest → step s = .next t →
    s.i2c.sclDrv = false → t.i2c.sdaDrv ≠ s.i2c.sdaDrv →
    (∃ env, u = .i2cTick env ∧ (s.i2c.ph = .s0 ∨ s.i2c.ph = .p3)) ∨
    (∃ env, u = .i2cTick env ∧ s.i2c.ph.isWait = true ∧ s.i2c.waitHolds env = false ∧ t.i2c.st = .idle ∧
      t.i2c.tof = true ∧ t.i2c.sclDrv = false ∧ t.i2c.sdaDrv = false) ∨
    (s.i2c.en = true ∧ t.i2c.en = false ∧ t.i2c.sclDrv = false ∧ t.i2c.sdaDrv = false)

/-- 20_memory.md R97: a condition a host waits on is lost only by a reset, an accepted I2CM command, or a write of
`EN <- 0`; BSY comes back only by an ERASE_PAGE or PROGRAM_WORD that is accepted: unlocked, and its address past the
checks. -/
def Obligations.WaitedConditionsAreStable : Prop :=
  ∀ (s t : State) (u : Turn) (rest : List Turn), s.i2c.Inv → s.sched = u :: rest → step s = .next t →
    ((s.i2c.sb = true ∧ t.i2c.sb = false) ∨ (s.i2c.addrAcked = true ∧ t.i2c.addrAcked = false) ∨
        (s.i2c.btf = true ∧ t.i2c.btf = false) ∨ (s.i2c.txe = true ∧ t.i2c.txe = false) →
      (∃ c, u = .reset c) ∨
      ∃ env acc q v, u = .host env ∧ s.hostQ = acc :: q ∧ acc.wdata = some v ∧
        ((placeOf s.params acc.target = .window 0x0C ∧
            ∃ i, decode .i2cCmd v = .ok i ∧ i2cAccepts i s.i2c.st s.i2c.spend = true) ∨
          (placeOf s.params acc.target = .window 0x00 ∧ v.getLsbD 0 = false))) ∧
    (s.fl.bsy = false → t.fl.bsy = true →
      ∃ env acc q v, u = .host env ∧ s.hostQ = acc :: q ∧ acc.wdata = some v ∧
        placeOf s.params acc.target = .window 0x24 ∧ s.fl.locked = false ∧
        ((v = 1#32 ∧ addressError s.params .erase s.fl.addr.toNat = none) ∨
          (v = 2#32 ∧ addressError s.params .program s.fl.addr.toNat = none)))

/-- 40_i2c_master.md section 2: in OFF, IDLE, STARTED and READY no I2CM tick is enabled, and with FPROG idle no FPROG
tick is; a scheduled one changes nothing (the model's choice, log 4). -/
def Obligations.DisabledTicksChangeNothing : Prop :=
  ∀ (s : State) (rest : List Turn),
    (∀ env, s.sched = .i2cTick env :: rest →
      (s.i2c.st = .off ∨ s.i2c.st = .idle ∨ s.i2c.st = .started ∨ s.i2c.st = .ready) →
      step s = .next { s with sched := rest }) ∧
    ∀ answer content, s.sched = .flTick answer content :: rest → s.fl.opstate = .idle →
      step s = .next { s with sched := rest }

/-- A host write of `v` to I2C_CTRL (40_i2c_master.md section 3): enabling enters IDLE, disabling releases both lines,
records `Release` if the bus is owned and enters OFF; writing the value `EN` has changes nothing. -/
def Obligations.EnableAndDisable : Prop :=
  ∀ (s : State) (v : Word),
    (v.getLsbD 0 = s.i2c.en → writeReg .i2cCtrl v s = .next s) ∧
    (v.getLsbD 0 = true → s.i2c.en = false →
      writeReg .i2cCtrl v s = .next { s with i2c := { s.i2c with en := true, st := .idle, ph := .noPhase } }) ∧
    (v.getLsbD 0 = false → s.i2c.en = true →
      writeReg .i2cCtrl v s = .next { s with
        i2c := { s.i2c with
          en := false, sclDrv := false, sdaDrv := false, st := .off, ph := .noPhase, spend := false, wcnt := 0#16
          sent := false, bitcnt := 0 }
        trace := s.trace ++
          if s.i2c.st = .started ∨ s.i2c.st = .addressing ∨ s.i2c.st = .ready ∨ s.i2c.st = .transmitting ∨
              s.i2c.st = .stopping ∨ (s.i2c.st = .starting ∧ s.i2c.ph = .s1) then [.release] else [] })

/-! ### The FPROG sequencer -/

/-- ISSUE rejects a program of a word that is not erased, and otherwise drives the array port with the operation and
goes to AWAIT; the array is not touched (41_flash_programmer.md section 5, 30_encoding.md section 1). -/
def Obligations.IssueTestsAProgramTarget : Prop :=
  ∀ (s : State) (answer : ArrayAnswer) (content : List Byte) (rest : List Turn),
    s.sched = .flTick answer content :: rest → s.fl.ph = .issue →
    (s.fl.opstate = .program → s.fl.kind = .program → arrayRead s.array s.fl.opAddr.toNat 4 ≠ 0xFFFFFFFF →
      step s = .next { s with
        sched := rest
        fl := { s.fl with
          opstate := .idle, ph := .issue, wcnt := 0, pgerr := true, errcode := s.fl.captured .notErased } }) ∧
    (s.fl.opstate = .program → s.fl.kind = .program → arrayRead s.array s.fl.opAddr.toNat 4 = 0xFFFFFFFF →
      ∃ t, step s = .next t ∧ t = { s with sched := rest, fl := { s.fl with ph := .await, wcnt := 0 } } ∧
        t.fl.arrayOp = .program ∧ t.aAddr = some s.fl.opAddr.toNat ∧ t.aWdata = some s.fl.opData) ∧
    (s.fl.opstate = .erase → s.fl.kind = .erase →
      ∃ t, step s = .next t ∧ t = { s with sched := rest, fl := { s.fl with ph := .await, wcnt := 0 } } ∧
        t.fl.arrayOp = .erase ∧ t.aAddr = some s.fl.opAddr.toNat ∧ t.aWdata = some s.fl.opData)

/-- 41_flash_programmer.md R227 and section 5: an AWAIT tick by the array's answer, whose status `a_rdata` carries. OK
gives the target its intended content, SILENT and FAIL and a spent budget give it any content, NONE within the budget
counts; every byte outside the target keeps its value. -/
def Obligations.AwaitTickActsOnTheArraysAnswer : Prop :=
  ∀ (s : State) (answer : ArrayAnswer) (content : List Byte) (rest : List Turn) (kind : FlKind),
    s.sched = .flTick answer content :: rest → s.fl.ph = .await → s.fl.kind = kind → s.fl.opstate = kind.opstate →
    ∃ t, step s = .next t ∧
      s.aRdata answer = .status (match answer with
        | .noAnswer => .busy
        | .ok => .ok
        | .silent => .ok
        | .fail => .fail) ∧
      (∀ b, outsideRange s.fl.opAddr.toNat (if kind = .erase then s.params.pageSize else 4) b →
        readByte t.array b = readByte s.array b) ∧
      (answer = .noAnswer → s.fl.wcnt + 1 < s.params.flashOpTimeout →
        t = { s with sched := rest, fl := { s.fl with wcnt := s.fl.wcnt + 1 } }) ∧
      (answer = .noAnswer → s.params.flashOpTimeout ≤ s.fl.wcnt + 1 →
        t = { s with
          sched := rest, array := t.array
          fl := { s.fl with
            opstate := .idle, ph := .issue, wcnt := 0, pgerr := true, errcode := s.fl.captured .arrayTimeout } }) ∧
      (answer = .ok ∨ answer = .silent →
        t = { s with sched := rest, array := t.array, fl := { s.fl with opstate := .verify } }) ∧
      (answer = .fail →
        t = { s with
          sched := rest, array := t.array
          fl := { s.fl with
            opstate := .idle, ph := .issue, wcnt := 0, pgerr := true
            errcode := s.fl.captured (if kind = .erase then .eraseFail else .progFail) } }) ∧
      (answer = .ok → ∀ k, k < (if kind = .erase then s.params.pageSize else 4) →
        readByte t.array (s.fl.opAddr.toNat + k) = intendedByte kind s.fl.opData k) ∧
      (answer = .silent ∨ answer = .fail ∨ (answer = .noAnswer ∧ s.params.flashOpTimeout ≤ s.fl.wcnt + 1) →
        ∀ k c, k < (if kind = .erase then s.params.pageSize else 4) → content[k]? = some c →
          readByte t.array (s.fl.opAddr.toNat + k) = c)

/-- 41_flash_programmer.md R228: VERIFY sets `EOP` exactly when every byte of the target is as intended, and records
VERIFY otherwise; then the operation ends. The array is only read, and `a_rdata` carries read data. -/
def Obligations.VerifyComparesEveryByte : Prop :=
  ∀ (s : State) (answer : ArrayAnswer) (content : List Byte) (rest : List Turn),
    s.sched = .flTick answer content :: rest → s.fl.opstate = .verify →
    (∃ v, s.aRdata answer = .data v) ∧
    ((∀ k, k < (if s.fl.kind = .erase then s.params.pageSize else 4) →
        readByte s.array (s.fl.opAddr.toNat + k) = intendedByte s.fl.kind s.fl.opData k) →
      step s = .next { s with
        sched := rest, fl := { s.fl with opstate := .idle, ph := .issue, wcnt := 0, eop := true } }) ∧
    (¬ (∀ k, k < (if s.fl.kind = .erase then s.params.pageSize else 4) →
        readByte s.array (s.fl.opAddr.toNat + k) = intendedByte s.fl.kind s.fl.opData k) →
      step s = .next { s with
        sched := rest
        fl := { s.fl with
          opstate := .idle, ph := .issue, wcnt := 0, verr := true, errcode := s.fl.captured .verify } })

/-- An accepted operation whose array answers OK takes three ticks, ends with `EOP = 1` and no error added, and leaves
its target as intended (a page of erased bytes, or the word little-endian) and every other byte as it was
(41_flash_programmer.md sections 3, 5 and 6). -/
def Obligations.SuccessfulOperationWritesItsTarget : Prop :=
  ∀ (s : State) (kind : FlKind) (a0 a2 : ArrayAnswer) (c0 c1 c2 : List Byte) (rest : List Turn),
    s.fl.kind = kind → s.fl.opstate = kind.opstate → s.fl.ph = .issue →
    (kind = .program → arrayRead s.array s.fl.opAddr.toNat 4 = 0xFFFFFFFF) →
    s.sched = .flTick a0 c0 :: .flTick .ok c1 :: .flTick a2 c2 :: rest →
    ∃ t, runSteps 3 s = .next t ∧
      t = { s with
        sched := rest, array := t.array
        fl := { s.fl with opstate := .idle, ph := .issue, wcnt := 0, eop := true } } ∧
      (kind = .erase → ∀ k, k < s.params.pageSize → readByte t.array (s.fl.opAddr.toNat + k) = 0xFF#8) ∧
      (kind = .program → arrayRead t.array s.fl.opAddr.toNat 4 = s.fl.opData.toNat) ∧
      ∀ b, outsideRange s.fl.opAddr.toNat (if kind = .erase then s.params.pageSize else 4) b →
        readByte t.array b = readByte s.array b

/-- Every accepted operation ends within `FLASH_OP_TIMEOUT + 2` FPROG ticks, whatever the array answers
(41_flash_programmer.md section 5; FLASH_OP_TIMEOUT is at least 1, 00_scope.md section 4). In every weakly fair run
(00_scope.md section 5) `BSY` returns to 0, and I2CM, from its invariant, comes to a state without an enabled tick
(40_i2c_master.md section 2), whatever the environments draw and whatever accesses the host makes, without end or not;
and so in every weakly fair run of the block with a host program (42_driver_sequences.md section 1). -/
def Obligations.OperationEndsWithinItsBudget : Prop :=
  (∀ (s : State) (answers : List (ArrayAnswer × List Byte)) (rest : List Turn),
    1 ≤ s.params.flashOpTimeout → s.fl.opstate ≠ .idle → s.fl.ph = .issue →
    answers.length = s.params.flashOpTimeout + 2 →
    s.sched = answers.map (fun x => Turn.flTick x.1 x.2) ++ rest →
    ∃ t, runSteps (s.params.flashOpTimeout + 2) s = .next t ∧ t.fl.opstate = .idle ∧ t.sched = rest) ∧
  (∀ (turns : Nat → Turn) (accesses : Nat → List HostAccess) (states : Nat → State),
    IsRun turns accesses states → WeaklyFair turns states →
    (∀ N, ∃ n, N ≤ n ∧ (states n).fl.bsy = false) ∧
    ((states 0).i2c.Inv → ∀ N, ∃ n, N ≤ n ∧ (states n).i2c.tickEnabled = false)) ∧
  ∀ (turns : Nat → Turn) (systems : Nat → HostSystem),
    HostSystem.IsRun turns systems → WeaklyFair turns (fun n => (systems n).block) →
    (∀ N, ∃ n, N ≤ n ∧ (systems n).block.fl.bsy = false) ∧
    ((systems 0).block.i2c.Inv → ∀ N, ∃ n, N ≤ n ∧ (systems n).block.i2c.tickEnabled = false)

/-! ### Host accesses -/

/-- A read/write register reads back what was written in its fields and 0 in its reserved bits, and a write changes
nothing else; in I2C_CTRL it has the effect of the enable (30_encoding.md section 3, 10_state.md section 4). -/
def Obligations.WrittenFieldsReadBack : Prop :=
  ∀ (s : State) (v : Word) (env : BusLines),
    (∃ t, writeReg .i2cCtrl v s = .next t ∧ readReg .i2cCtrl env t = v &&& 0x00000001#32) ∧
    (∃ t, writeReg .i2cTiming v s = .next t ∧ readReg .i2cTiming env t = v &&& 0x003F8FFF#32 ∧
      t = { s with i2c := { s.i2c with ccr := t.i2c.ccr, fs := t.i2c.fs, trise := t.i2c.trise } }) ∧
    (∃ t, writeReg .i2cTimeout v s = .next t ∧ readReg .i2cTimeout env t = v &&& 0x0000FFFF#32 ∧
      t = { s with i2c := { s.i2c with budget := t.i2c.budget } }) ∧
    (∃ t, writeReg .flAddr v s = .next t ∧ readReg .flAddr env t = v ∧ t = { s with fl := { s.fl with addr := v } }) ∧
    (∃ t, writeReg .flData v s = .next t ∧ readReg .flData env t = v ∧ t = { s with fl := { s.fl with data := v } })

/-- 20_memory.md R86: a register access that is not an aligned 32-bit word faults, sets `faulted`, and changes nothing
else of the block; every other one is accepted. -/
def Obligations.RegisterAccessesAreAlignedWords : Prop :=
  ∀ (s : State) (env : BusLines) (rest : List Turn) (acc : HostAccess) (q : List HostAccess) (off : Nat),
    s.sched = .host env :: rest → s.hostQ = acc :: q → placeOf s.params acc.target = .window off →
    (acc.size ≠ .four ∨ off % 4 ≠ 0 →
      step s = .fault (.hostBusError .registerAccess
        { s with sched := rest, hostQ := q, faulted := true, response := .error })) ∧
    (acc.size = .four → off % 4 = 0 → ∃ t, step s = .next t ∧ t.faulted = s.faulted)

/-- 20_memory.md R87: a reserved slot reads 0 and ignores writes; a write-only register reads 0 with no effect. -/
def Obligations.ReservedSlotsAndWriteOnlyRegistersReadZero : Prop :=
  ∀ (s : State) (env : BusLines) (rest : List Turn) (acc : HostAccess) (q : List HostAccess) (off : Nat),
    s.sched = .host env :: rest → s.hostQ = acc :: q → placeOf s.params acc.target = .window off → acc.size = .four →
    (off ∈ [0x14, 0x18, 0x1C, 0x34, 0x38, 0x3C] →
      (acc.wdata = none → step s = .next { s with sched := rest, hostQ := q, response := .value 0#32 }) ∧
      ∀ v, acc.wdata = some v → step s = .next { s with sched := rest, hostQ := q, response := .written }) ∧
    (off ∈ [0x0C, 0x20, 0x24] → acc.wdata = none →
      step s = .next { s with sched := rest, hostQ := q, response := .value 0#32 })

/-- A read of a register, at its offset, returns its word and has no side effect: the only elements that change are the
model's own schedule, queue and answer (20_memory.md section 4, 30_encoding.md section 2). -/
def Obligations.RegisterReadsHaveNoSideEffect : Prop :=
  ∀ (s : State) (env : BusLines) (rest : List Turn) (acc : HostAccess) (q : List HostAccess) (off : Nat) (r : Reg),
    s.sched = .host env :: rest → s.hostQ = acc :: q → placeOf s.params acc.target = .window off →
    acc.size = .four → acc.wdata = none →
    (r, off) ∈ [(.i2cCtrl, 0x00), (.i2cTiming, 0x04), (.i2cTimeout, 0x08), (.i2cCmd, 0x0C), (.i2cStat, 0x10),
      (.flKey, 0x20), (.flCmd, 0x24), (.flAddr, 0x28), (.flData, 0x2C), (.flStat, 0x30)] →
    step s = .next { s with sched := rest, hostQ := q, response := .value (readReg r env s) }

/-- An access to the flash region (20_memory.md sections 1 and 3). A write faults; a read is held while busy, aligned or
not (the model's reading, log 5); idle, an aligned read returns the bytes little-endian, and a misaligned one faults. That
`a_rdata` carries the bytes of an idle read of any width, zero-extended, is the model's reading of 30_encoding.md section 1
(DEDUCED, log 14). In a valid configuration every address of the region lands there. -/
def Obligations.FlashRegionAccesses : Prop :=
  (∀ (p : Params) (a : Word), p.valid = true → p.flashBase ≤ a.toNat → a.toNat < p.flashBase + p.regionSize →
    placeOf p (.addr a) = .region a.toNat) ∧
  ∀ (s : State) (env : BusLines) (rest : List Turn) (acc : HostAccess) (q : List HostAccess) (a : Nat),
    s.sched = .host env :: rest → s.hostQ = acc :: q → placeOf s.params acc.target = .region a →
    (∀ v, acc.wdata = some v →
      step s = .fault (.hostBusError .flashWrite
        { s with sched := rest, hostQ := q, faulted := true, response := .error })) ∧
    (acc.wdata = none → s.fl.opstate ≠ .idle → step s = .next { s with sched := rest, response := .held }) ∧
    (acc.wdata = none → s.fl.opstate = .idle → a % acc.size.bytes ≠ 0 →
      step s = .fault (.hostBusError .flashMisaligned
        { s with sched := rest, hostQ := q, faulted := true, response := .error })) ∧
    (acc.wdata = none → s.fl.opstate = .idle → a % acc.size.bytes = 0 →
      ∃ v : Word, step s = .next { s with sched := rest, hostQ := q, response := .value v } ∧
        (∀ answer, s.aRdata answer = .data v) ∧
        (acc.size = .one → v.toNat = (readByte s.array a).toNat) ∧
        (acc.size = .two → v.toNat = (readByte s.array a).toNat + 256 * (readByte s.array (a + 1)).toNat) ∧
        (acc.size = .four → v.toNat = (readByte s.array a).toNat + 256 * (readByte s.array (a + 1)).toNat +
          65536 * (readByte s.array (a + 2)).toNat + 16777216 * (readByte s.array (a + 3)).toNat))

/-- An access to an address of neither the register window nor the flash region is not the block's: it has no meaning
here (20_memory.md section 1; the refusal is the model's choice, log 8). -/
def Obligations.OtherAddressesAreNotTheBlocks : Prop :=
  ∀ (s : State) (env : BusLines) (rest : List Turn) (q : List HostAccess) (a : Word) (size : Size)
    (w : Option Word),
    s.sched = .host env :: rest → s.hostQ = ⟨.addr a, size, w⟩ :: q →
    (a.toNat < s.params.blkBase ∨ s.params.blkBase + 0x40 ≤ a.toNat) →
    (a.toNat < s.params.flashBase ∨ s.params.flashBase + s.params.regionSize ≤ a.toNat) →
    step s = .refused (.notTheBlock a.toNat)

/-! ### Status words and errors -/

/-- 10_state.md R43: the seven conditions and SPEND as functions of the state, read at their bits of I2C_STAT; every
other field at its bits, reserved bits 0 (30_encoding.md section 3), STATE and ERRCODE with their numbers
(10_state.md R36, 60_exceptions.md R291). -/
def Obligations.I2cStatLayout : Prop :=
  ∀ (s : State) (env : BusLines),
    let w := readReg .i2cStat env s
    (w.getLsbD 0 = decide (s.i2c.st = .started)) ∧
    (w.getLsbD 1 = decide (s.i2c.st = .started ∨ s.i2c.st = .addressing ∨ s.i2c.st = .ready ∨
      s.i2c.st = .transmitting ∨ s.i2c.st = .stopping)) ∧
    (w.getLsbD 2 = decide (s.i2c.st ≠ .off ∧ s.i2c.st ≠ .idle)) ∧
    (w.getLsbD 3 = decide (s.i2c.st = .ready ∧ s.i2c.sent = false)) ∧
    (w.getLsbD 4 = decide (s.i2c.st = .ready)) ∧
    (w.getLsbD 5 = decide (s.i2c.st = .ready ∧ s.i2c.sent = true)) ∧
    (w.getLsbD 6 = decide (s.i2c.st = .ready ∨ s.i2c.st = .transmitting)) ∧
    w.getLsbD 7 = s.i2c.spend ∧ w.getLsbD 8 = s.i2c.nackf ∧ w.getLsbD 9 = s.i2c.tof ∧ w.getLsbD 10 = s.i2c.cmderr ∧
    w.getLsbD 11 = false ∧
    (w.extractLsb' 12 4 = match s.i2c.errcode with
      | none => 0#4
      | some .cmdReserved => 1#4
      | some .cmdDisabled => 2#4
      | some .cmdSequence => 3#4
      | some .nackAddr => 4#4
      | some .nackData => 5#4
      | some .timeoutStart => 6#4
      | some .timeoutAddr => 7#4
      | some .timeoutData => 8#4
      | some .timeoutStop => 9#4) ∧
    (w.getLsbD 16 = decide (s.i2c.sclDrv = false ∧ env.scl = true)) ∧
    (w.getLsbD 17 = decide (s.i2c.sdaDrv = false ∧ env.sda = true)) ∧
    w.extractLsb' 18 6 = 0#6 ∧ w.extractLsb' 28 4 = 0#4 ∧
    w.extractLsb' 24 4 = match s.i2c.st with
      | .off => 0#4
      | .idle => 1#4
      | .starting => 2#4
      | .started => 3#4
      | .addressing => 4#4
      | .ready => 5#4
      | .transmitting => 6#4
      | .stopping => 7#4

/-- 10_state.md R49: BSY reads `opstate != IDLE`; every field of FL_STAT at its bits, reserved bits 0 (30_encoding.md
section 4), OPSTATE and ERRCODE with their numbers (10_state.md R48, 60_exceptions.md R292). -/
def Obligations.FlStatLayout : Prop :=
  ∀ (s : State) (env : BusLines),
    let w := readReg .flStat env s
    (w.getLsbD 0 = decide (s.fl.opstate ≠ .idle)) ∧ w.getLsbD 1 = s.fl.locked ∧ w.getLsbD 2 = s.fl.eop ∧
    w.getLsbD 3 = s.fl.wrperr ∧ w.getLsbD 4 = s.fl.pgerr ∧ w.getLsbD 5 = s.fl.verr ∧ w.getLsbD 6 = s.fl.cmderr ∧
    w.getLsbD 7 = false ∧ w.getLsbD 12 = s.fl.keyseq ∧ w.extractLsb' 13 3 = 0#3 ∧ w.extractLsb' 18 14 = 0#14 ∧
    (w.extractLsb' 16 2 = match s.fl.opstate with
      | .idle => 0#2
      | .erase => 1#2
      | .program => 2#2
      | .verify => 3#2) ∧
    w.extractLsb' 8 4 = match s.fl.errcode with
      | none => 0#4
      | some .cmdReserved => 1#4
      | some .busy => 2#4
      | some .locked => 3#4
      | some .key => 4#4
      | some .range => 5#4
      | some .align => 6#4
      | some .wrp => 7#4
      | some .notErased => 8#4
      | some .eraseFail => 9#4
      | some .progFail => 10#4
      | some .arrayTimeout => 11#4
      | some .verify => 12#4

/-- 60_exceptions.md R293, R295: recording an error sets the one flag of its code and captures the code exactly when
every error flag was 0; nothing else changes, and a later error keeps the first code. -/
def Obligations.CaptureKeepsTheFirstError : Prop :=
  (∀ (i : I2cState) (c d : I2cError),
    i.raise c = { i with
      cmderr := i.cmderr || decide (c.code.toNat ≤ 3)
      nackf := i.nackf || decide (c.code.toNat = 4 ∨ c.code.toNat = 5)
      tof := i.tof || decide (6 ≤ c.code.toNat)
      errcode := if i.nackf = false ∧ i.tof = false ∧ i.cmderr = false then some c else i.errcode } ∧
    ((i.raise c).raise d).errcode = (i.raise c).errcode) ∧
  ∀ (f : FlashState) (c d : FlError),
    f.raise c = { f with
      cmderr := f.cmderr || decide (c.code.toNat ≤ 6)
      wrperr := f.wrperr || decide (c.code.toNat = 7)
      pgerr := f.pgerr || decide (8 ≤ c.code.toNat ∧ c.code.toNat ≤ 11)
      verr := f.verr || decide (c.code.toNat = 12)
      errcode := f.captured c } ∧
    ((f.raise c).raise d).errcode = (f.raise c).errcode

/-- 30_encoding.md R121 and the clearing rule of 60_exceptions.md section 3: a write to a status register clears the
flags whose bits are 1, forgets the code when no error flag is left, and changes nothing else. -/
def Obligations.StatusWritesClearFlags : Prop :=
  ∀ (s : State) (v : Word),
    (∃ t, writeReg .i2cStat v s = .next t ∧
      t = { s with i2c := { s.i2c with
              nackf := if v.getLsbD 8 then false else s.i2c.nackf
              tof := if v.getLsbD 9 then false else s.i2c.tof
              cmderr := if v.getLsbD 10 then false else s.i2c.cmderr
              errcode := t.i2c.errcode } } ∧
      t.i2c.errcode =
        if t.i2c.nackf = false ∧ t.i2c.tof = false ∧ t.i2c.cmderr = false then none else s.i2c.errcode) ∧
    ∃ t, writeReg .flStat v s = .next t ∧
      t = { s with fl := { s.fl with
              eop := if v.getLsbD 2 then false else s.fl.eop
              wrperr := if v.getLsbD 3 then false else s.fl.wrperr
              pgerr := if v.getLsbD 4 then false else s.fl.pgerr
              verr := if v.getLsbD 5 then false else s.fl.verr
              cmderr := if v.getLsbD 6 then false else s.fl.cmderr
              errcode := t.fl.errcode } } ∧
      t.fl.errcode =
        if t.fl.wrperr = false ∧ t.fl.pgerr = false ∧ t.fl.verr = false ∧ t.fl.cmderr = false then none
        else s.fl.errcode

/-- `ERRCODE = 0` if and only if every error flag of the engine is 0: true at reset and kept by every step
(60_exceptions.md section 3). -/
def Obligations.ErrcodeIsZeroExactlyWhenClean : Prop :=
  (State.reset.i2c.errcode = none ↔ State.reset.i2c.clean = true) ∧
  (State.reset.fl.errcode = none ↔ State.reset.fl.clean = true) ∧
  ∀ s t : State, (s.i2c.errcode = none ↔ s.i2c.clean = true) → (s.fl.errcode = none ↔ s.fl.clean = true) →
    step s = .next t →
    (t.i2c.errcode = none ↔ t.i2c.clean = true) ∧ (t.fl.errcode = none ↔ t.fl.clean = true)

/-- 42_driver_sequences.md R268: the code a host reads from I2C_STAT classifies as the source's error class of the
error recorded, and as none when no error is. -/
def Obligations.ReadCodeClassifiesTheError : Prop :=
  ∀ (i : I2cState) (env : BusLines),
    (classifyI2c (i.statWord env) = some .busNack ↔ i.errcode = some .nackAddr ∨ i.errcode = some .nackData) ∧
    (classifyI2c (i.statWord env) = some .busTimeout ↔
      i.errcode = some .timeoutStart ∨ i.errcode = some .timeoutAddr ∨ i.errcode = some .timeoutData ∨
        i.errcode = some .timeoutStop) ∧
    (classifyI2c (i.statWord env) = some .hostError ↔
      i.errcode = some .cmdReserved ∨ i.errcode = some .cmdDisabled ∨ i.errcode = some .cmdSequence) ∧
    (classifyI2c (i.statWord env) = none ↔ i.errcode = none)

/-! ### Reset -/

/-- 10_state.md R56, R57: reset gives every I2CM and every FPROG element its value, and the derived conditions are 0. -/
def Obligations.ResetSetsEveryElement : Prop :=
  ∀ (s : State) (content : List Byte) (rest : List Turn), s.sched = .reset content :: rest →
    ∃ t, step s = .next t ∧
      t.i2c = {
        en := false, ccr := 0#12, fs := false, trise := 0#6, budget := 0xFFFF#16, st := .off, ph := .noPhase
        shreg := 0#8, txbyte := 0#8, bitcnt := 0, ack := false, wcnt := 0#16, sent := false, spend := false
        sclDrv := false, sdaDrv := false, nackf := false, tof := false, cmderr := false, errcode := none } ∧
      t.fl = {
        addr := 0#32, data := 0#32, locked := true, keyseq := false, opstate := .idle, kind := .erase, ph := .issue
        opAddr := 0#32, opData := 0#32, wcnt := 0, eop := false, wrperr := false, pgerr := false, verr := false
        cmderr := false, errcode := none } ∧
      (∀ env, (t.i2c.statWord env).extractLsb' 0 7 = 0#7) ∧ t.fl.bsy = false

/-- 70_reset_and_hazards.md R321, R322, 10_state.md R58: reset adds `Release` if the bus is owned, keeps trace, fault
mark and parameters, and keeps the array but for the target of an operation in AWAIT, which takes any content. -/
def Obligations.ResetKeepsWhatIsNotAnElement : Prop :=
  ∀ (s : State) (content : List Byte) (rest : List Turn), s.sched = .reset content :: rest →
    ∃ t, step s = .next t ∧ t.faulted = s.faulted ∧ t.params = s.params ∧
      t.trace = (s.trace ++
        if s.i2c.st = .started ∨ s.i2c.st = .addressing ∨ s.i2c.st = .ready ∨ s.i2c.st = .transmitting ∨
            s.i2c.st = .stopping ∨ (s.i2c.st = .starting ∧ s.i2c.ph = .s1) then [.release] else []) ∧
      t.i2c.sclDrv = false ∧ t.i2c.sdaDrv = false ∧
      (¬ ((s.fl.opstate = .erase ∨ s.fl.opstate = .program) ∧ s.fl.ph = .await) → t.array = s.array) ∧
      ((s.fl.opstate = .erase ∨ s.fl.opstate = .program) ∧ s.fl.ph = .await →
        (∀ b, outsideRange s.fl.opAddr.toNat (if s.fl.kind = .erase then s.params.pageSize else 4) b →
          readByte t.array b = readByte s.array b) ∧
        ∀ k c, k < (if s.fl.kind = .erase then s.params.pageSize else 4) → content[k]? = some c →
          readByte t.array (s.fl.opAddr.toNat + k) = c)

/-- 70_reset_and_hazards.md R323: what a host reads of every register after reset, at first power-up and after any
later reset. -/
def Obligations.RegistersReadTheirResetValues : Prop :=
  ∀ (t : State) (env : BusLines),
    (t = State.reset ∨ ∃ s content rest, s.sched = .reset content :: rest ∧ step s = .next t) →
    readReg .i2cCtrl env t = 0x00000000#32 ∧ readReg .i2cTiming env t = 0x00000000#32 ∧
    readReg .i2cTimeout env t = 0x0000FFFF#32 ∧ readReg .i2cCmd env t = 0#32 ∧ readReg .flKey env t = 0#32 ∧
    readReg .flCmd env t = 0#32 ∧ readReg .flAddr env t = 0x00000000#32 ∧ readReg .flData env t = 0x00000000#32 ∧
    readReg .flStat env t = 0x00000002#32 ∧
    readReg .i2cStat env t = (if env.scl then 0x00010000#32 else 0#32) ||| (if env.sda then 0x00020000#32 else 0#32) ∧
    ∀ off ∈ [0x14, 0x18, 0x1C, 0x34, 0x38, 0x3C],
      windowAccess env off ⟨.reg off, .four, none⟩ t = .next (t.respond (.value 0#32))

/-! ### Invariants -/

/-- Every step keeps the invariant of the block: phases and drivers fit their states, the shifter holds the frame,
the operation in progress passed its checks, the array keeps its canonical form and its region, and the wire trace
is well formed with a start open exactly while the bus is owned (40_i2c_master.md section 2, 41_flash_programmer.md
sections 4 and 5, 10_state.md sections 2 to 4). The canonical form of the array's cells is the model's own choice
(log 9). -/
def Obligations.EveryStepKeepsTheInvariant : Prop := ∀ s t : State, s.Inv → step s = .next t → t.Inv

/-- The machine right after reset satisfies the invariant of the block (its empty trace is the model's own, log 11, and
so is the canonical form of the power-up array's cells, log 9). -/
def Obligations.ResetStateSatisfiesTheInvariant : Prop := State.reset.Inv

/-- 40_i2c_master.md R159: what owning the bus is, and over any run from a state of the invariant, the trace is well
formed and I2CM owns the bus between a `Start` and the next `Stop` or `Release`, and at no other time. -/
def Obligations.OwnershipIsAnOpenStart : Prop :=
  (∀ i : I2cState, i.owned = true ↔
    (i.st = .started ∨ i.st = .addressing ∨ i.st = .ready ∨ i.st = .transmitting ∨ i.st = .stopping) ∨
      (i.st = .starting ∧ i.ph = .s1)) ∧
  ∀ s t : State, s.Inv → Reaches s t → traceState t.trace = some t.i2c.owned

/-- Every step keeps the canonical form of the array's cells, whatever the state. The form, how the array's content is
written down, is the model's own choice (log 9). -/
def Obligations.EveryStepKeepsTheArraysForm : Prop :=
  ∀ s t : State, Memory.wf s.array = true → step s = .next t → Memory.wf t.array = true

/-- Only FPROG ticks and resets change the array, and the two engines share no state: a host access or an I2CM tick
leaves the array, an I2CM tick leaves FPROG, an FPROG tick leaves I2CM and the trace; no step changes the parameters
(10_state.md section 4, 70_reset_and_hazards.md section 2). -/
def Obligations.EnginesShareNoState : Prop :=
  ∀ (s t : State) (u : Turn) (rest : List Turn), s.sched = u :: rest → step s = .next t →
    t.params = s.params ∧ t.sched = rest ∧
    (∀ env, u = .host env → t.array = s.array ∧ (t.fl = s.fl ∨ (t.i2c = s.i2c ∧ t.trace = s.trace))) ∧
    (∀ env, u = .i2cTick env → t.array = s.array ∧ t.fl = s.fl ∧ t.hostQ = s.hostQ ∧ t.response = s.response) ∧
    ∀ answer content, u = .flTick answer content →
      t.i2c = s.i2c ∧ t.trace = s.trace ∧ t.hostQ = s.hostQ ∧ t.response = s.response

/-- The fault mark is set by HostBusError and never cleared, not even by reset; the fault changes no other state of
the block (10_state.md section 4, 60_exceptions.md section 7). -/
def Obligations.FaultMarkIsSetAndNeverCleared : Prop :=
  (∀ s t : State, step s = .next t → t.faulted = s.faulted) ∧
  ∀ (s t : State) (cause : BusErrorCause), step s = .fault (.hostBusError cause t) →
    t.faulted = true ∧ t.response = .error ∧ t.params = s.params ∧ t.i2c = s.i2c ∧ t.fl = s.fl ∧ t.array = s.array ∧
      t.trace = s.trace

/-- A read `v` of a WAIT: the error test comes before the success test, a passing read ends the wait with `v` bound to the
name, if one is given, and nothing else of the program changed, and a read that passes neither keeps the statement index
(42_driver_sequences.md section 1). That an error ends the program is the spec's in a macro, whose caller returns the same
Err at once; for a WAIT outside any macro it is the model's choice (log 15). -/
def Obligations.WaitTestsErrorsFirst : Prop :=
  ∀ (c : HostCtx) (rest : List HostFrame) (r : Reg) (mask val errmask : Expr) (x : Option String) (v : Nat),
    c.stack = .run (.wait r mask val errmask x) :: rest →
    (v &&& evalExpr c.names errmask ≠ 0 → (c.answered v).result = some (.err (.reg r) v)) ∧
    (v &&& evalExpr c.names errmask = 0 → v &&& evalExpr c.names mask = evalExpr c.names val →
      (c.answered v).stack = rest ∧ (c.answered v).result = c.result ∧ (c.answered v).payload = c.payload ∧
      (∀ y, x = some y → lookupName (c.answered v).names y = v) ∧
      ∀ z, x ≠ some z → lookupName (c.answered v).names z = lookupName c.names z) ∧
    (v &&& evalExpr c.names errmask = 0 → v &&& evalExpr c.names mask ≠ evalExpr c.names val → c.answered v = c)
end

