-- ==== Sys2Proof/Laws/Array.lean ====
section
/-! SUPPORT. The laws of the flash array: what a read after a write gives, and that every operation keeps the
canonical form and the region. -/

namespace Sys2Proof.Machine

@[simp] theorem readByte_nil (a : Nat) : readByte [] a = unlistedByte := rfl

theorem readByte_dropCell_self (m : Cells) (a : Nat) : readByte (dropCell m a) a = unlistedByte := by
  induction m with
  | nil => rfl
  | cons c m ih =>
    by_cases h : c.1 = a
    · simpa [dropCell, h] using ih
    · have : dropCell (c :: m) a = c :: dropCell m a := by simp [dropCell, h]
      simp [this, readByte, h, ih]

theorem readByte_dropCell_other (m : Cells) {a b : Nat} (hne : b ≠ a) : readByte (dropCell m a) b = readByte m b := by
  induction m with
  | nil => rfl
  | cons c m ih =>
    by_cases h : c.1 = a
    · have : dropCell (c :: m) a = dropCell m a := by simp [dropCell, h]
      rw [this, ih]
      simp [readByte, h, Ne.symm hne]
    · have : dropCell (c :: m) a = c :: dropCell m a := by simp [dropCell, h]
      simp [this, readByte, ih]

/-- No cell of a list lists an address. -/
def notListed (m : Cells) (a : Nat) : Prop := ∀ c ∈ m, c.1 ≠ a

theorem notListed_dropCell (m : Cells) (a : Nat) : notListed (dropCell m a) a := by
  intro c hc
  simpa [dropCell] using (List.mem_filter.mp hc).2

theorem readByte_insertCell_self (m : Cells) (a : Nat) (v : Byte) (h : notListed m a) :
    readByte (insertCell m a v) a = v := by
  induction m with
  | nil => simp [insertCell, readByte]
  | cons c m ih =>
    have hc : c.1 ≠ a := h c (by simp)
    have hm : notListed m a := fun d hd => h d (by simp [hd])
    by_cases hlt : a < c.1
    · simp [insertCell, hlt, readByte]
    · simp [insertCell, hlt, readByte, hc, ih hm]

theorem readByte_insertCell_other (m : Cells) {a b : Nat} (v : Byte) (hne : b ≠ a) :
    readByte (insertCell m a v) b = readByte m b := by
  induction m with
  | nil => simp [insertCell, readByte, Ne.symm hne]
  | cons c m ih =>
    by_cases hlt : a < c.1
    · simp [insertCell, hlt, readByte, Ne.symm hne]
    · simp [insertCell, hlt, readByte, ih]

/-- A read after a write to the same address gives the value written. -/
@[simp] theorem readByte_writeByte_self (m : Cells) (a : Nat) (v : Byte) : readByte (writeByte m a v) a = v := by
  unfold writeByte
  split
  · rw [readByte_dropCell_self]; simp_all
  · exact readByte_insertCell_self _ _ _ (notListed_dropCell m a)

/-- A write leaves every other address as it was. -/
theorem readByte_writeByte_other (m : Cells) {a b : Nat} (v : Byte) (hne : b ≠ a) :
    readByte (writeByte m a v) b = readByte m b := by
  unfold writeByte
  split
  · exact readByte_dropCell_other m hne
  · rw [readByte_insertCell_other _ v hne, readByte_dropCell_other m hne]

/-- A range write leaves every address outside the range as it was. -/
theorem readByte_writeBytes_outside (vs : List Byte) (m : Cells) (a b : Nat) (h : b < a ∨ a + vs.length ≤ b) :
    readByte (writeBytes m a vs) b = readByte m b := by
  induction vs generalizing m a with
  | nil => rfl
  | cons v vs ih =>
    simp only [List.length_cons] at h
    rw [writeBytes, ih _ _ (by omega), readByte_writeByte_other _ _ (by omega)]

/-- A range write puts byte `k` of its list at `a + k`. -/
theorem readByte_writeBytes_inside (vs : List Byte) (m : Cells) (a k : Nat) (h : k < vs.length) :
    readByte (writeBytes m a vs) (a + k) = vs[k] := by
  induction vs generalizing m a k with
  | nil => simp at h
  | cons v vs ih =>
    cases k with
    | zero =>
      rw [writeBytes, readByte_writeBytes_outside _ _ _ _ (by omega)]
      simp
    | succ k =>
      have := ih (writeByte m a v) (a + 1) k (by simpa using h)
      rw [writeBytes, show a + (k + 1) = a + 1 + k by omega, this]
      simp

@[simp] theorem readBytes_length (m : Cells) (a n : Nat) : (readBytes m a n).length = n := by
  induction n generalizing a with
  | zero => rfl
  | succ n ih => simp [readBytes, ih]

/-- Byte `k` of a range read is the byte at `a + k`. -/
theorem readBytes_getElem (m : Cells) (a n k : Nat) (h : k < n) :
    (readBytes m a n)[k]'(by simpa using h) = readByte m (a + k) := by
  induction n generalizing a k with
  | zero => omega
  | succ n ih =>
    cases k with
    | zero => simp [readBytes]
    | succ k =>
      simp only [readBytes, List.getElem_cons_succ]
      rw [ih (a + 1) k (by omega)]
      congr 1
      omega

/-- Reading back the range that was written gives what was written. -/
theorem readBytes_writeBytes (vs : List Byte) (m : Cells) (a : Nat) :
    readBytes (writeBytes m a vs) a vs.length = vs := by
  apply List.ext_getElem
  · simp
  · intro k h1 h2
    rw [readBytes_getElem _ _ _ _ h2, readByte_writeBytes_inside _ _ _ _ h2]

@[simp] theorem drawnBytes_length (c : List Byte) (a n : Nat) : (drawnBytes c a n).length = n := by
  induction n generalizing c a with
  | zero => cases c <;> rfl
  | succ n ih => cases c <;> simp [drawnBytes, ih]

/-! ### The canonical form -/

theorem risesFrom_mono {lo lo' : Nat} (h : lo' ≤ lo) {m : Cells} (hm : risesFrom lo m = true) :
    risesFrom lo' m = true := by
  cases m with
  | nil => rfl
  | cons c m =>
    simp only [risesFrom, Bool.and_eq_true, decide_eq_true_eq] at hm ⊢
    exact ⟨⟨by omega, hm.1.2⟩, hm.2⟩

theorem risesFrom_dropCell (m : Cells) (a lo : Nat) (hm : risesFrom lo m = true) :
    risesFrom lo (dropCell m a) = true := by
  induction m generalizing lo with
  | nil => rfl
  | cons c m ih =>
    simp only [risesFrom, Bool.and_eq_true, decide_eq_true_eq] at hm
    by_cases h : c.1 = a
    · have e : dropCell (c :: m) a = dropCell m a := by simp [dropCell, h]
      rw [e]
      exact risesFrom_mono (by omega) (ih _ hm.2)
    · have e : dropCell (c :: m) a = c :: dropCell m a := by simp [dropCell, h]
      rw [e]
      simp only [risesFrom, Bool.and_eq_true, decide_eq_true_eq]
      exact ⟨hm.1, ih _ hm.2⟩

theorem risesFrom_insertCell (m : Cells) (a lo : Nat) (v : Byte) (hlo : lo ≤ a) (hv : v ≠ unlistedByte)
    (hn : notListed m a) (hm : risesFrom lo m = true) : risesFrom lo (insertCell m a v) = true := by
  induction m generalizing lo with
  | nil => simp [insertCell, risesFrom, hlo, hv]
  | cons c m ih =>
    have hc : c.1 ≠ a := hn c (by simp)
    have hn' : notListed m a := fun d hd => hn d (by simp [hd])
    simp only [risesFrom, Bool.and_eq_true, decide_eq_true_eq] at hm
    by_cases hlt : a < c.1
    · simp only [insertCell, hlt, if_true, risesFrom, Bool.and_eq_true, decide_eq_true_eq, bne_iff_ne, ne_eq]
      exact ⟨⟨hlo, hv⟩, ⟨⟨hlt, by simpa using hm.1.2⟩, hm.2⟩⟩
    · simp only [insertCell, hlt, if_false, risesFrom, Bool.and_eq_true, decide_eq_true_eq]
      exact ⟨hm.1, ih _ (by omega) hn' hm.2⟩

/-- A write keeps the canonical form. -/
theorem writeByte_wf (m : Cells) (a : Nat) (v : Byte) (hm : Memory.wf m = true) : Memory.wf (writeByte m a v) = true := by
  unfold writeByte
  split
  · exact risesFrom_dropCell m a 0 hm
  · rename_i h
    exact risesFrom_insertCell _ a 0 v (by omega) h (notListed_dropCell m a) (risesFrom_dropCell m a 0 hm)

/-- A range write keeps the canonical form. -/
theorem writeBytes_wf (vs : List Byte) (m : Cells) (a : Nat) (hm : Memory.wf m = true) :
    Memory.wf (writeBytes m a vs) = true := by
  induction vs generalizing m a with
  | nil => exact hm
  | cons v vs ih => exact ih _ _ (writeByte_wf m a v hm)

/-! ### The region -/

theorem insertCell_mem (m : Cells) (a : Nat) (v : Byte) (c : Host.Cell) (h : c ∈ insertCell m a v) :
    c = (a, v) ∨ c ∈ m := by
  induction m with
  | nil => simpa [insertCell] using h
  | cons d m ih =>
    by_cases hlt : a < d.1
    · simpa [insertCell, hlt] using h
    · simp only [insertCell, hlt, if_false, List.mem_cons] at h
      rcases h with h | h
      · simp [h]
      · rcases ih h with h | h <;> simp [h]

theorem writeByte_region (p : Params) (m : Cells) (a : Nat) (v : Byte) (ha : inRegion p a = true)
    (hm : withinRegion p m = true) : withinRegion p (writeByte m a v) = true := by
  rw [withinRegion, List.all_eq_true] at hm ⊢
  have hd : ∀ c ∈ dropCell m a, inRegion p c.1 = true := fun c hc => hm c (List.mem_filter.mp hc).1
  intro c hc
  unfold writeByte at hc
  split at hc
  · exact hd c hc
  · rcases insertCell_mem _ _ _ _ hc with rfl | h
    · exact ha
    · exact hd c h

/-- A range write inside the region keeps the array inside the region. -/
theorem writeBytes_region (p : Params) (vs : List Byte) (m : Cells) (a : Nat)
    (ha : ∀ k, k < vs.length → inRegion p (a + k) = true) (hm : withinRegion p m = true) :
    withinRegion p (writeBytes m a vs) = true := by
  induction vs generalizing m a with
  | nil => exact hm
  | cons v vs ih =>
    refine ih _ _ (fun k hk => ?_) (writeByte_region p m a v (by simpa using ha 0 (by simp)) hm)
    have := ha (k + 1) (by simpa using hk)
    rwa [show a + 1 + k = a + (k + 1) by omega]

/-- The array a list of writes leaves is in canonical form and inside the region. -/
theorem arrayOf_wf (p : Params) (cs : List Host.Cell) :
    Memory.wf (arrayOf p cs) = true ∧ withinRegion p (arrayOf p cs) = true := by
  unfold arrayOf
  generalize hm0 : ([] : Cells) = m0
  have h0 : Memory.wf m0 = true ∧ withinRegion p m0 = true := by subst hm0; exact ⟨rfl, rfl⟩
  clear hm0
  induction cs generalizing m0 with
  | nil => exact h0
  | cons c cs ih =>
    apply ih
    beta_reduce
    split
    · rename_i h
      exact ⟨writeByte_wf _ _ _ h0.1, writeByte_region p _ _ _ h h0.2⟩
    · exact h0

end Sys2Proof.Machine
end

