-- ==== Sys2Proof/Laws/Decode.lean ====
section
/-! SUPPORT. The decoders of the three command registers as equations: what each answers for every word. -/

namespace Sys2Proof

theorem fullMask (v : Word) : v &&& 0xFFFFFFFF#32 = v := BitVec.and_allOnes

/-- The rows of one register, in the table's order. -/
theorem opcodeTable_i2cCmd : opcodeTable.filter (fun row => row.reg == .i2cCmd) = opcodeTable.take 5 := rfl
theorem opcodeTable_flCmd : opcodeTable.filter (fun row => row.reg == .flCmd) = (opcodeTable.drop 5).take 4 := rfl
theorem opcodeTable_flKey : opcodeTable.filter (fun row => row.reg == .flKey) = opcodeTable.drop 9 := rfl

/-- The decoder of I2C_CMD (30_encoding.md R123 to R126). -/
theorem decode_i2cCmd (v : Word) : decode .i2cCmd v =
    if v = 0x00000000#32 then .ok .i2cNop
    else if v = 0x00000001#32 then .ok .i2cStart
    else if v &&& 0xFFFF80FF#32 = 0x00000002#32 then .ok (.i2cAddrw (v.extractLsb' 8 7))
    else if v &&& 0xFFFF00FF#32 = 0x00000003#32 then .ok (.i2cWrite (v.extractLsb' 8 8))
    else if v = 0x00000004#32 then .ok .i2cStop
    else .error (.i2cCmd v) := by
  simp only [decode, opcodeTable_i2cCmd]
  simp only [opcodeTable, List.take, firstFit, OpcodeRow.fits, beq_iff_eq, fullMask, reservedWord]
  split_ifs <;> rfl

/-- The decoder of FL_CMD (30_encoding.md R130, R132). -/
theorem decode_flCmd (v : Word) : decode .flCmd v =
    if v = 0x00000000#32 then .ok .flNop
    else if v = 0x00000001#32 then .ok .flErasePage
    else if v = 0x00000002#32 then .ok .flProgramWord
    else if v = 0x00000003#32 then .ok .flLock
    else .error (.flCmd v) := by
  simp only [decode, opcodeTable_flCmd]
  simp only [opcodeTable, List.take, List.drop, firstFit, OpcodeRow.fits, beq_iff_eq, fullMask, reservedWord]
  split_ifs <;> rfl

/-- Every value is a key word (30_encoding.md R129). -/
theorem decode_flKey (v : Word) : decode .flKey v = .ok (.flKey v) := by
  simp only [decode, opcodeTable_flKey]
  simp [opcodeTable, firstFit, OpcodeRow.fits]

/-- A decoder answers an instruction of its own register (30_encoding.md R135). -/
theorem decode_reg (r : CmdReg) (v : Word) (i : Instr) (h : decode r v = .ok i) : i.reg = r := by
  cases r
  · rw [decode_i2cCmd] at h; split_ifs at h <;> cases h <;> rfl
  · rw [decode_flCmd] at h; split_ifs at h <;> cases h <;> rfl
  · rw [decode_flKey] at h; cases h; rfl

/-- A rejected word carries the register's name and the word. -/
theorem decode_error (r : CmdReg) (v : Word) (e : ReservedWord) (h : decode r v = .error e) : e = reservedWord r v := by
  unfold decode at h
  split at h <;> cases h
  rfl

end Sys2Proof
end

