-- ==== Sys2Proof/Laws/State.lean ====
section
/-! SUPPORT. One lemma per field per update of the state, true by rfl: no later proof unfolds a record update. -/

namespace Sys2Proof.Machine

@[simp] theorem State.setI2c_params (s : State) (i : I2cState) : (s.setI2c i).params = s.params := rfl
@[simp] theorem State.setI2c_i2c (s : State) (i : I2cState) : (s.setI2c i).i2c = i := rfl
@[simp] theorem State.setI2c_fl (s : State) (i : I2cState) : (s.setI2c i).fl = s.fl := rfl
@[simp] theorem State.setI2c_array (s : State) (i : I2cState) : (s.setI2c i).array = s.array := rfl
@[simp] theorem State.setI2c_trace (s : State) (i : I2cState) : (s.setI2c i).trace = s.trace := rfl
@[simp] theorem State.setI2c_faulted (s : State) (i : I2cState) : (s.setI2c i).faulted = s.faulted := rfl
@[simp] theorem State.setI2c_hostQ (s : State) (i : I2cState) : (s.setI2c i).hostQ = s.hostQ := rfl
@[simp] theorem State.setI2c_sched (s : State) (i : I2cState) : (s.setI2c i).sched = s.sched := rfl
@[simp] theorem State.setI2c_response (s : State) (i : I2cState) : (s.setI2c i).response = s.response := rfl

@[simp] theorem State.setFl_params (s : State) (f : FlashState) : (s.setFl f).params = s.params := rfl
@[simp] theorem State.setFl_i2c (s : State) (f : FlashState) : (s.setFl f).i2c = s.i2c := rfl
@[simp] theorem State.setFl_fl (s : State) (f : FlashState) : (s.setFl f).fl = f := rfl
@[simp] theorem State.setFl_array (s : State) (f : FlashState) : (s.setFl f).array = s.array := rfl
@[simp] theorem State.setFl_trace (s : State) (f : FlashState) : (s.setFl f).trace = s.trace := rfl
@[simp] theorem State.setFl_faulted (s : State) (f : FlashState) : (s.setFl f).faulted = s.faulted := rfl
@[simp] theorem State.setFl_hostQ (s : State) (f : FlashState) : (s.setFl f).hostQ = s.hostQ := rfl
@[simp] theorem State.setFl_sched (s : State) (f : FlashState) : (s.setFl f).sched = s.sched := rfl
@[simp] theorem State.setFl_response (s : State) (f : FlashState) : (s.setFl f).response = s.response := rfl

@[simp] theorem State.respond_params (s : State) (r : HostResponse) : (s.respond r).params = s.params := rfl
@[simp] theorem State.respond_i2c (s : State) (r : HostResponse) : (s.respond r).i2c = s.i2c := rfl
@[simp] theorem State.respond_fl (s : State) (r : HostResponse) : (s.respond r).fl = s.fl := rfl
@[simp] theorem State.respond_array (s : State) (r : HostResponse) : (s.respond r).array = s.array := rfl
@[simp] theorem State.respond_trace (s : State) (r : HostResponse) : (s.respond r).trace = s.trace := rfl
@[simp] theorem State.respond_faulted (s : State) (r : HostResponse) : (s.respond r).faulted = s.faulted := rfl
@[simp] theorem State.respond_hostQ (s : State) (r : HostResponse) : (s.respond r).hostQ = s.hostQ := rfl
@[simp] theorem State.respond_sched (s : State) (r : HostResponse) : (s.respond r).sched = s.sched := rfl
@[simp] theorem State.respond_response (s : State) (r : HostResponse) : (s.respond r).response = r := rfl

@[simp] theorem State.applyI2c_params (s : State) (e : I2cEffect) : (s.applyI2c e).params = s.params := rfl
@[simp] theorem State.applyI2c_i2c (s : State) (e : I2cEffect) : (s.applyI2c e).i2c = e.i2c := rfl
@[simp] theorem State.applyI2c_fl (s : State) (e : I2cEffect) : (s.applyI2c e).fl = s.fl := rfl
@[simp] theorem State.applyI2c_array (s : State) (e : I2cEffect) : (s.applyI2c e).array = s.array := rfl
@[simp] theorem State.applyI2c_trace (s : State) (e : I2cEffect) : (s.applyI2c e).trace = s.trace ++ e.events := rfl
@[simp] theorem State.applyI2c_faulted (s : State) (e : I2cEffect) : (s.applyI2c e).faulted = s.faulted := rfl
@[simp] theorem State.applyI2c_hostQ (s : State) (e : I2cEffect) : (s.applyI2c e).hostQ = s.hostQ := rfl
@[simp] theorem State.applyI2c_sched (s : State) (e : I2cEffect) : (s.applyI2c e).sched = s.sched := rfl
@[simp] theorem State.applyI2c_response (s : State) (e : I2cEffect) : (s.applyI2c e).response = s.response := rfl

@[simp] theorem State.applyFl_params (s : State) (e : FlEffect) : (s.applyFl e).params = s.params := rfl
@[simp] theorem State.applyFl_i2c (s : State) (e : FlEffect) : (s.applyFl e).i2c = s.i2c := rfl
@[simp] theorem State.applyFl_fl (s : State) (e : FlEffect) : (s.applyFl e).fl = e.fl := rfl
@[simp] theorem State.applyFl_array (s : State) (e : FlEffect) : (s.applyFl e).array = e.array := rfl
@[simp] theorem State.applyFl_trace (s : State) (e : FlEffect) : (s.applyFl e).trace = s.trace := rfl
@[simp] theorem State.applyFl_faulted (s : State) (e : FlEffect) : (s.applyFl e).faulted = s.faulted := rfl
@[simp] theorem State.applyFl_hostQ (s : State) (e : FlEffect) : (s.applyFl e).hostQ = s.hostQ := rfl
@[simp] theorem State.applyFl_sched (s : State) (e : FlEffect) : (s.applyFl e).sched = s.sched := rfl
@[simp] theorem State.applyFl_response (s : State) (e : FlEffect) : (s.applyFl e).response = s.response := rfl

@[simp] theorem takeReset_params (c : List Byte) (s : State) : (takeReset c s).params = s.params := rfl
@[simp] theorem takeReset_i2c (c : List Byte) (s : State) : (takeReset c s).i2c = I2cState.reset := rfl
@[simp] theorem takeReset_fl (c : List Byte) (s : State) : (takeReset c s).fl = FlashState.reset := rfl
@[simp] theorem takeReset_array (c : List Byte) (s : State) : (takeReset c s).array = resetArray s.params c s.fl s.array := rfl
@[simp] theorem takeReset_trace (c : List Byte) (s : State) : (takeReset c s).trace = s.trace ++ s.i2c.releaseEvents := rfl
@[simp] theorem takeReset_faulted (c : List Byte) (s : State) : (takeReset c s).faulted = s.faulted := rfl
@[simp] theorem takeReset_hostQ (c : List Byte) (s : State) : (takeReset c s).hostQ = s.hostQ := rfl
@[simp] theorem takeReset_sched (c : List Byte) (s : State) : (takeReset c s).sched = s.sched := rfl
@[simp] theorem takeReset_response (c : List Byte) (s : State) : (takeReset c s).response = s.response := rfl

@[simp] theorem placeAccess_params (acc : HostAccess) (s : State) : (placeAccess acc s).params = s.params := rfl
@[simp] theorem placeAccess_i2c (acc : HostAccess) (s : State) : (placeAccess acc s).i2c = s.i2c := rfl
@[simp] theorem placeAccess_fl (acc : HostAccess) (s : State) : (placeAccess acc s).fl = s.fl := rfl
@[simp] theorem placeAccess_array (acc : HostAccess) (s : State) : (placeAccess acc s).array = s.array := rfl
@[simp] theorem placeAccess_trace (acc : HostAccess) (s : State) : (placeAccess acc s).trace = s.trace := rfl
@[simp] theorem placeAccess_faulted (acc : HostAccess) (s : State) : (placeAccess acc s).faulted = s.faulted := rfl
@[simp] theorem placeAccess_hostQ (acc : HostAccess) (s : State) : (placeAccess acc s).hostQ = acc :: s.hostQ := rfl
@[simp] theorem placeAccess_sched (acc : HostAccess) (s : State) : (placeAccess acc s).sched = .host ⟨true, true⟩ :: s.sched := rfl
@[simp] theorem placeAccess_response (acc : HostAccess) (s : State) : (placeAccess acc s).response = s.response := rfl

@[simp] theorem I2cState.quiet_i2c (i : I2cState) : i.quiet.i2c = i := rfl
@[simp] theorem I2cState.quiet_events (i : I2cState) : i.quiet.events = [] := rfl

@[simp] theorem I2cState.raise_en (i : I2cState) (c : I2cError) : (i.raise c).en = i.en := by cases c <;> rfl
@[simp] theorem I2cState.raise_ccr (i : I2cState) (c : I2cError) : (i.raise c).ccr = i.ccr := by cases c <;> rfl
@[simp] theorem I2cState.raise_fs (i : I2cState) (c : I2cError) : (i.raise c).fs = i.fs := by cases c <;> rfl
@[simp] theorem I2cState.raise_trise (i : I2cState) (c : I2cError) : (i.raise c).trise = i.trise := by cases c <;> rfl
@[simp] theorem I2cState.raise_budget (i : I2cState) (c : I2cError) : (i.raise c).budget = i.budget := by cases c <;> rfl
@[simp] theorem I2cState.raise_st (i : I2cState) (c : I2cError) : (i.raise c).st = i.st := by cases c <;> rfl
@[simp] theorem I2cState.raise_ph (i : I2cState) (c : I2cError) : (i.raise c).ph = i.ph := by cases c <;> rfl
@[simp] theorem I2cState.raise_shreg (i : I2cState) (c : I2cError) : (i.raise c).shreg = i.shreg := by cases c <;> rfl
@[simp] theorem I2cState.raise_txbyte (i : I2cState) (c : I2cError) : (i.raise c).txbyte = i.txbyte := by cases c <;> rfl
@[simp] theorem I2cState.raise_bitcnt (i : I2cState) (c : I2cError) : (i.raise c).bitcnt = i.bitcnt := by cases c <;> rfl
@[simp] theorem I2cState.raise_ack (i : I2cState) (c : I2cError) : (i.raise c).ack = i.ack := by cases c <;> rfl
@[simp] theorem I2cState.raise_wcnt (i : I2cState) (c : I2cError) : (i.raise c).wcnt = i.wcnt := by cases c <;> rfl
@[simp] theorem I2cState.raise_sent (i : I2cState) (c : I2cError) : (i.raise c).sent = i.sent := by cases c <;> rfl
@[simp] theorem I2cState.raise_spend (i : I2cState) (c : I2cError) : (i.raise c).spend = i.spend := by cases c <;> rfl
@[simp] theorem I2cState.raise_sclDrv (i : I2cState) (c : I2cError) : (i.raise c).sclDrv = i.sclDrv := by cases c <;> rfl
@[simp] theorem I2cState.raise_sdaDrv (i : I2cState) (c : I2cError) : (i.raise c).sdaDrv = i.sdaDrv := by cases c <;> rfl
@[simp] theorem I2cState.raise_nackf (i : I2cState) (c : I2cError) : (i.raise c).nackf = (i.nackf || c.flag == .nackf) := by
  cases c <;> simp [I2cState.raise, I2cState.setFlag, I2cError.flag]
@[simp] theorem I2cState.raise_tof (i : I2cState) (c : I2cError) : (i.raise c).tof = (i.tof || c.flag == .tof) := by
  cases c <;> simp [I2cState.raise, I2cState.setFlag, I2cError.flag]
@[simp] theorem I2cState.raise_cmderr (i : I2cState) (c : I2cError) : (i.raise c).cmderr = (i.cmderr || c.flag == .cmderr) := by
  cases c <;> simp [I2cState.raise, I2cState.setFlag, I2cError.flag]
@[simp] theorem I2cState.raise_errcode (i : I2cState) (c : I2cError) :
    (i.raise c).errcode = if i.clean then some c else i.errcode := rfl

@[simp] theorem FlashState.raise_addr (f : FlashState) (c : FlError) : (f.raise c).addr = f.addr := by cases c <;> rfl
@[simp] theorem FlashState.raise_data (f : FlashState) (c : FlError) : (f.raise c).data = f.data := by cases c <;> rfl
@[simp] theorem FlashState.raise_locked (f : FlashState) (c : FlError) : (f.raise c).locked = f.locked := by cases c <;> rfl
@[simp] theorem FlashState.raise_keyseq (f : FlashState) (c : FlError) : (f.raise c).keyseq = f.keyseq := by cases c <;> rfl
@[simp] theorem FlashState.raise_opstate (f : FlashState) (c : FlError) : (f.raise c).opstate = f.opstate := by cases c <;> rfl
@[simp] theorem FlashState.raise_kind (f : FlashState) (c : FlError) : (f.raise c).kind = f.kind := by cases c <;> rfl
@[simp] theorem FlashState.raise_ph (f : FlashState) (c : FlError) : (f.raise c).ph = f.ph := by cases c <;> rfl
@[simp] theorem FlashState.raise_opAddr (f : FlashState) (c : FlError) : (f.raise c).opAddr = f.opAddr := by cases c <;> rfl
@[simp] theorem FlashState.raise_opData (f : FlashState) (c : FlError) : (f.raise c).opData = f.opData := by cases c <;> rfl
@[simp] theorem FlashState.raise_wcnt (f : FlashState) (c : FlError) : (f.raise c).wcnt = f.wcnt := by cases c <;> rfl
@[simp] theorem FlashState.raise_eop (f : FlashState) (c : FlError) : (f.raise c).eop = f.eop := by cases c <;> rfl
@[simp] theorem FlashState.raise_wrperr (f : FlashState) (c : FlError) : (f.raise c).wrperr = (f.wrperr || c.flag == .wrperr) := by
  cases c <;> simp [FlashState.raise, FlashState.setFlag, FlError.flag]
@[simp] theorem FlashState.raise_pgerr (f : FlashState) (c : FlError) : (f.raise c).pgerr = (f.pgerr || c.flag == .pgerr) := by
  cases c <;> simp [FlashState.raise, FlashState.setFlag, FlError.flag]
@[simp] theorem FlashState.raise_verr (f : FlashState) (c : FlError) : (f.raise c).verr = (f.verr || c.flag == .verr) := by
  cases c <;> simp [FlashState.raise, FlashState.setFlag, FlError.flag]
@[simp] theorem FlashState.raise_cmderr (f : FlashState) (c : FlError) : (f.raise c).cmderr = (f.cmderr || c.flag == .cmderr) := by
  cases c <;> simp [FlashState.raise, FlashState.setFlag, FlError.flag]
@[simp] theorem FlashState.raise_errcode (f : FlashState) (c : FlError) :
    (f.raise c).errcode = if f.clean then some c else f.errcode := rfl

@[simp] theorem FlashState.finish_addr (f : FlashState) : f.finish.addr = f.addr := rfl
@[simp] theorem FlashState.finish_data (f : FlashState) : f.finish.data = f.data := rfl
@[simp] theorem FlashState.finish_locked (f : FlashState) : f.finish.locked = f.locked := rfl
@[simp] theorem FlashState.finish_keyseq (f : FlashState) : f.finish.keyseq = f.keyseq := rfl
@[simp] theorem FlashState.finish_opstate (f : FlashState) : f.finish.opstate = .idle := rfl
@[simp] theorem FlashState.finish_kind (f : FlashState) : f.finish.kind = f.kind := rfl
@[simp] theorem FlashState.finish_ph (f : FlashState) : f.finish.ph = .issue := rfl
@[simp] theorem FlashState.finish_opAddr (f : FlashState) : f.finish.opAddr = f.opAddr := rfl
@[simp] theorem FlashState.finish_opData (f : FlashState) : f.finish.opData = f.opData := rfl
@[simp] theorem FlashState.finish_wcnt (f : FlashState) : f.finish.wcnt = 0 := rfl
@[simp] theorem FlashState.finish_eop (f : FlashState) : f.finish.eop = f.eop := rfl
@[simp] theorem FlashState.finish_wrperr (f : FlashState) : f.finish.wrperr = f.wrperr := rfl
@[simp] theorem FlashState.finish_pgerr (f : FlashState) : f.finish.pgerr = f.pgerr := rfl
@[simp] theorem FlashState.finish_verr (f : FlashState) : f.finish.verr = f.verr := rfl
@[simp] theorem FlashState.finish_cmderr (f : FlashState) : f.finish.cmderr = f.cmderr := rfl
@[simp] theorem FlashState.finish_errcode (f : FlashState) : f.finish.errcode = f.errcode := rfl

@[simp] theorem FlashState.accept_addr (k : FlKind) (f : FlashState) : (f.accept k).addr = f.addr := rfl
@[simp] theorem FlashState.accept_data (k : FlKind) (f : FlashState) : (f.accept k).data = f.data := rfl
@[simp] theorem FlashState.accept_locked (k : FlKind) (f : FlashState) : (f.accept k).locked = f.locked := rfl
@[simp] theorem FlashState.accept_keyseq (k : FlKind) (f : FlashState) : (f.accept k).keyseq = f.keyseq := rfl
@[simp] theorem FlashState.accept_opstate (k : FlKind) (f : FlashState) : (f.accept k).opstate = k.opstate := rfl
@[simp] theorem FlashState.accept_kind (k : FlKind) (f : FlashState) : (f.accept k).kind = k := rfl
@[simp] theorem FlashState.accept_ph (k : FlKind) (f : FlashState) : (f.accept k).ph = .issue := rfl
@[simp] theorem FlashState.accept_opAddr (k : FlKind) (f : FlashState) : (f.accept k).opAddr = f.addr := rfl
@[simp] theorem FlashState.accept_opData (k : FlKind) (f : FlashState) : (f.accept k).opData = f.data := rfl
@[simp] theorem FlashState.accept_wcnt (k : FlKind) (f : FlashState) : (f.accept k).wcnt = 0 := rfl
@[simp] theorem FlashState.accept_eop (k : FlKind) (f : FlashState) : (f.accept k).eop = f.eop := rfl
@[simp] theorem FlashState.accept_wrperr (k : FlKind) (f : FlashState) : (f.accept k).wrperr = f.wrperr := rfl
@[simp] theorem FlashState.accept_pgerr (k : FlKind) (f : FlashState) : (f.accept k).pgerr = f.pgerr := rfl
@[simp] theorem FlashState.accept_verr (k : FlKind) (f : FlashState) : (f.accept k).verr = f.verr := rfl
@[simp] theorem FlashState.accept_cmderr (k : FlKind) (f : FlashState) : (f.accept k).cmderr = f.cmderr := rfl
@[simp] theorem FlashState.accept_errcode (k : FlKind) (f : FlashState) : (f.accept k).errcode = f.errcode := rfl

end Sys2Proof.Machine
end

