-- ==== Sys2Proof/Laws/Ops.lean ====
section
/-! SUPPORT. One lemma per shared operation that says everything it can do, for proofs to cite instead of unfolding
it: the wait, the command checks, a register write, an access, a turn, a step. -/

namespace Sys2Proof.Machine

/-- The array right after reset is in canonical form, whatever the power-up content is. -/
theorem reset_array_wf : Memory.wf State.reset.array = true := (arrayOf_wf _ _).1

/-- A wait passes, times out, or stays (40_i2c_master.md R161). -/
theorem I2cState.wait_cases (i : I2cState) (cond : Bool) (code : I2cError) (pass : I2cState → I2cEffect) :
    (cond = true ∧ i.wait cond code pass = pass { i with wcnt := 0#16 }) ∨
    (cond = false ∧ i.budget.toNat ≤ i.wcnt.toNat ∧ i.wait cond code pass = i.timeout code) ∨
    (cond = false ∧ i.wcnt.toNat < i.budget.toNat ∧ i.wait cond code pass = ⟨{ i with wcnt := i.wcnt + 1#16 }, []⟩) := by
  cases cond
  · by_cases h : i.budget.toNat ≤ i.wcnt.toNat
    · exact .inr (.inl ⟨rfl, h, by simp [wait, h]⟩)
    · exact .inr (.inr ⟨rfl, by omega, by simp [wait, h, quiet]⟩)
  · exact .inl ⟨rfl, by simp [wait]⟩

/-- A valid command other than NOP is rejected as disabled, accepted, or rejected as out of sequence (40_i2c_master.md R186). -/
theorem I2cState.command_cases (i : I2cState) (allowed : Bool) (accepted : I2cState) :
    (i.en = false ∧ i.command allowed accepted = i.raise .cmdDisabled) ∨
    (i.en = true ∧ allowed = true ∧ i.command allowed accepted = accepted) ∨
    (i.en = true ∧ allowed = false ∧ i.command allowed accepted = i.raise .cmdSequence) := by
  cases h : i.en <;> cases allowed <;> simp [command, h]

/-- An ERASE_PAGE or PROGRAM_WORD records one error or is accepted (41_flash_programmer.md R220). -/
theorem FlashState.operate_cases (p : Params) (k : FlKind) (f : FlashState) :
    (∃ e, f.rejection p k = some e ∧ f.operate p k = f.raise e) ∨
    (f.bsy = false ∧ f.locked = false ∧ addressError p k f.addr.toNat = none ∧ f.operate p k = f.accept k) := by
  unfold operate
  cases h : f.rejection p k with
  | some e => exact .inl ⟨e, rfl, rfl⟩
  | none =>
    unfold rejection at h
    cases hb : f.bsy <;> cases hl : f.locked <;> simp_all

/-- A tick of AWAIT by the array's answer, FPROG's state and the array's content together (41_flash_programmer.md R226). -/
theorem FlashState.await_eq (p : Params) (answer : ArrayAnswer) (content : List Byte) (f : FlashState) (m : Cells) :
    f.await p answer content m =
      match answer with
      | .noAnswer =>
        if p.flashOpTimeout ≤ f.wcnt + 1 then ⟨(f.raise .arrayTimeout).finish, f.drawTarget p content m⟩
        else ⟨{ f with wcnt := f.wcnt + 1 }, m⟩
      | .ok => ⟨{ f with opstate := .verify }, writeBytes m f.targetBase (intendedBytes p f.kind f.opData)⟩
      | .silent => ⟨{ f with opstate := .verify }, f.drawTarget p content m⟩
      | .fail => ⟨(f.raise f.failCode).finish, f.drawTarget p content m⟩ := by
  cases answer
  case noAnswer => by_cases h : p.flashOpTimeout ≤ f.wcnt + 1 <;> simp [await, awaitStatus, awaitArray, ArrayAnswer.status, h]
  all_goals rfl

/-- Every instruction answers a next state, whatever the state: no command faults and none is refused. -/
theorem exec_next (i : Instr) (s : State) : ∃ t, exec i s = .next t := by
  cases i <;> exact ⟨_, rfl⟩

/-- An instruction of I2C_CMD changes I2CM only, one of FL_CMD or FL_KEY changes FPROG only. -/
theorem exec_cases (i : Instr) (s t : State) (h : exec i s = .next t) :
    (i.reg = .i2cCmd ∧ ∃ j, t = s.setI2c j) ∨ (i.reg ≠ .i2cCmd ∧ ∃ f, t = s.setFl f) := by
  cases i <;> cases h
  case i2cNop => exact .inl ⟨rfl, s.i2c, rfl⟩
  case flNop => exact .inr ⟨by decide, s.fl, rfl⟩
  case flErasePage => exact .inr ⟨by decide, _, rfl⟩
  case flProgramWord => exact .inr ⟨by decide, _, rfl⟩
  case flLock => exact .inr ⟨by decide, _, rfl⟩
  case flKey => exact .inr ⟨nofun, _, rfl⟩
  all_goals exact .inl ⟨rfl, _, rfl⟩

/-- A write to a command register answers a next state: the decoded instruction's, or the recorded error's. -/
theorem writeCommand_cases (r : CmdReg) (v : Word) (s : State) :
    (∃ i, decode r v = .ok i ∧ writeCommand r v s = exec i s) ∨
    (∃ e, decode r v = .error e ∧ writeCommand r v s = .next (reservedWrite e s)) := by
  unfold writeCommand
  cases h : decode r v with
  | ok i => exact .inl ⟨i, rfl, rfl⟩
  | error e => exact .inr ⟨e, rfl, rfl⟩

/-- Every register write answers a next state. -/
theorem writeReg_next (r : Reg) (v : Word) (s : State) : ∃ t, writeReg r v s = .next t := by
  have hc : ∀ c, ∃ t, writeCommand c v s = .next t := by
    intro c
    rcases writeCommand_cases c v s with ⟨i, -, h⟩ | ⟨e, -, h⟩
    · rw [h]; exact exec_next i s
    · exact ⟨_, h⟩
  cases r
  case i2cCmd => exact hc _
  case flKey => exact hc _
  case flCmd => exact hc _
  all_goals exact ⟨_, rfl⟩

/-- A host access that answers a next state is a read, a write to a reserved slot, or a register write. -/
theorem performAccess_cases (env : BusLines) (acc : HostAccess) (s t : State)
    (h : performAccess env acc s = .next t) :
    (∃ r, t = s.respond r) ∨ (∃ r v, writeReg r v (s.respond .written) = .next t) := by
  unfold performAccess at h
  split at h
  · unfold windowAccess at h
    split at h
    · cases h
    · split at h
      · cases h; exact .inl ⟨_, rfl⟩
      · exact .inr ⟨_, _, h⟩
      · cases h; exact .inl ⟨_, rfl⟩
      · cases h; exact .inl ⟨_, rfl⟩
  · unfold regionAccess at h
    split at h
    · cases h
    · split at h
      · cases h
      · cases h; exact .inl ⟨_, rfl⟩
  · cases h

/-- A host turn that answers a next state: nothing to do, a held read, or an access taken from the queue. -/
theorem hostTurn_cases (env : BusLines) (s t : State) (h : hostTurn env s = .next t) :
    t = s ∨ (∃ r, t = s.respond r) ∨ (∃ acc rest, s.hostQ = acc :: rest ∧
      performAccess env acc { s with hostQ := rest } = .next t) := by
  unfold hostTurn at h
  split at h
  · cases h; exact .inl rfl
  · rename_i acc rest hq
    split at h
    · cases h; exact .inr (.inl ⟨_, rfl⟩)
    · exact .inr (.inr ⟨acc, rest, hq, h⟩)

/-- A step that answers a next state takes the turn at the head of the schedule; with none it leaves the state. -/
theorem step_cases (s t : State) (h : step s = .next t) :
    (s.sched = [] ∧ t = s) ∨ ∃ u rest, s.sched = u :: rest ∧ takeTurn u { s with sched := rest } = .next t := by
  unfold step at h
  split at h
  · rename_i h0; cases h; exact .inl ⟨h0, rfl⟩
  · rename_i u rest hs; exact .inr ⟨u, rest, hs, h⟩

end Sys2Proof.Machine
end

