-- ==== Sys2Proof/Laws/Moves.lean ====
section
/-! SUPPORT. What one step can do to each engine, said once: the moves of I2CM and of FPROG, the case analysis of a
register write and of a host turn, and the equations of the ticks and of runs. -/

namespace Sys2Proof.Machine

/-- What a register write that answers a next state does, register by register. -/
theorem writeReg_cases (r : Reg) (v : Word) (s t : State) (h : writeReg r v s = .next t) :
    (r = .i2cCtrl ∧ t = s.applyI2c (s.i2c.writeCtrl v)) ∨
    (r = .i2cTiming ∧ t = s.setI2c (s.i2c.withTiming v)) ∨
    (r = .i2cTimeout ∧ t = s.setI2c (s.i2c.withTimeout v)) ∨
    (r = .i2cStat ∧ t = s.setI2c (s.i2c.clearStatus v)) ∨
    (r = .i2cCmd ∧ ((∃ i, decode .i2cCmd v = .ok i ∧ exec i s = .next t) ∨ t = s.setI2c (s.i2c.raise .cmdReserved))) ∨
    (r = .flAddr ∧ t = s.setFl { s.fl with addr := v }) ∨
    (r = .flData ∧ t = s.setFl { s.fl with data := v }) ∨
    (r = .flStat ∧ t = s.setFl (s.fl.clearStatus v)) ∨
    (r = .flCmd ∧ ((∃ i, decode .flCmd v = .ok i ∧ exec i s = .next t) ∨ t = s.setFl (s.fl.raise .cmdReserved))) ∨
    (r = .flKey ∧ t = s.setFl (s.fl.keyWord s.params v)) := by
  cases r <;> simp only [writeReg, reduceCtorEq, false_and, true_and, false_or, or_false] at h ⊢
  case i2cCmd =>
    rcases writeCommand_cases .i2cCmd v s with ⟨i, hd, hw⟩ | ⟨e, hd, hw⟩ <;> rw [hw] at h
    · exact .inl ⟨i, hd, h⟩
    · rw [decode_i2cCmd] at hd; split_ifs at hd; cases hd; cases h; exact .inr rfl
  case flCmd =>
    rcases writeCommand_cases .flCmd v s with ⟨i, hd, hw⟩ | ⟨e, hd, hw⟩ <;> rw [hw] at h
    · exact .inl ⟨i, hd, h⟩
    · rw [decode_flCmd] at hd; split_ifs at hd; cases hd; cases h; exact .inr rfl
  case flKey =>
    simp only [writeCommand, decode_flKey, exec, execFlKey] at h; cases h; rfl
  all_goals (cases h; rfl)

/-- Everything a step can do to I2CM: its new state with the events it appends to the trace. -/
inductive I2cMove (i : I2cState) : I2cEffect → Prop where
  | same : I2cMove i ⟨i, []⟩
  | tick (env : BusLines) : I2cMove i (i.tick env)
  | ctrl (v : Word) : I2cMove i (i.writeCtrl v)
  | timing (v : Word) : I2cMove i ⟨i.withTiming v, []⟩
  | timeout (v : Word) : I2cMove i ⟨i.withTimeout v, []⟩
  | clear (v : Word) : I2cMove i ⟨i.clearStatus v, []⟩
  | error (c : I2cError) (hc : c.flag = .cmderr) : I2cMove i ⟨i.raise c, []⟩
  | start (he : i.en = true) (ha : i.allowsStart = true) : I2cMove i ⟨i.acceptStart, []⟩
  | addrw (a : BitVec 7) (he : i.en = true) (hs : i.st = .started) :
    I2cMove i ⟨i.loadFrame (addressFrame a) .addressing, []⟩
  | write (b : Byte) (he : i.en = true) (hs : i.st = .ready) : I2cMove i ⟨i.loadFrame b .transmitting, []⟩
  | stop (he : i.en = true) (ha : i.allowsStop = true) : I2cMove i ⟨i.acceptStop, []⟩
  | reset : I2cMove i ⟨I2cState.reset, i.releaseEvents⟩

/-- Everything a step can do to FPROG and the array. -/
inductive FlMove (p : Params) (f : FlashState) (m : Cells) : FlEffect → Prop where
  | same : FlMove p f m ⟨f, m⟩
  | tick (a : ArrayAnswer) (content : List Byte) : FlMove p f m (f.tick p a content m)
  | addr (v : Word) : FlMove p f m ⟨{ f with addr := v }, m⟩
  | data (v : Word) : FlMove p f m ⟨{ f with data := v }, m⟩
  | clear (v : Word) : FlMove p f m ⟨f.clearStatus v, m⟩
  | reserved : FlMove p f m ⟨f.raise .cmdReserved, m⟩
  | operate (k : FlKind) : FlMove p f m ⟨f.operate p k, m⟩
  | lock : FlMove p f m ⟨f.lock, m⟩
  | key (v : Word) : FlMove p f m ⟨f.keyWord p v, m⟩
  | reset (content : List Byte) : FlMove p f m ⟨FlashState.reset, resetArray p content f m⟩

/-- One state follows another by a move of each engine, parameters and fault mark kept. -/
structure Moves (s t : State) : Prop where
  params : t.params = s.params
  faulted : t.faulted = s.faulted
  i2c : ∃ e, I2cMove s.i2c e ∧ t.i2c = e.i2c ∧ t.trace = s.trace ++ e.events
  fl : ∃ e, FlMove s.params s.fl s.array e ∧ t.fl = e.fl ∧ t.array = e.array

/-- A step that leaves the whole block alone. -/
theorem moves_same {s t : State} (h : t.params = s.params ∧ t.faulted = s.faulted ∧ t.i2c = s.i2c ∧ t.trace = s.trace ∧
    t.fl = s.fl ∧ t.array = s.array) : Moves s t :=
  ⟨h.1, h.2.1, ⟨_, .same, h.2.2.1, by simp [h.2.2.2.1]⟩, ⟨_, .same, h.2.2.2.2.1, h.2.2.2.2.2⟩⟩

/-- A step that moves I2CM only. -/
theorem moves_i2c {s t : State} {e : I2cEffect} (m : I2cMove s.i2c e) (h : t.params = s.params ∧ t.faulted = s.faulted ∧
    t.i2c = e.i2c ∧ t.trace = s.trace ++ e.events ∧ t.fl = s.fl ∧ t.array = s.array) : Moves s t :=
  ⟨h.1, h.2.1, ⟨e, m, h.2.2.1, h.2.2.2.1⟩, ⟨_, .same, h.2.2.2.2.1, h.2.2.2.2.2⟩⟩

/-- A step that moves FPROG only. -/
theorem moves_fl {s t : State} {e : FlEffect} (m : FlMove s.params s.fl s.array e)
    (h : t.params = s.params ∧ t.faulted = s.faulted ∧ t.fl = e.fl ∧ t.array = e.array ∧ t.i2c = s.i2c ∧
      t.trace = s.trace) : Moves s t :=
  ⟨h.1, h.2.1, ⟨_, .same, h.2.2.2.2.1, by simp [h.2.2.2.2.2]⟩, ⟨e, m, h.2.2.1, h.2.2.2.1⟩⟩

/-- A checked I2CM command is an error or the accepted command's move. -/
theorem command_move (i : I2cState) (allowed : Bool) (accepted : I2cState)
    (h : i.en = true → allowed = true → I2cMove i ⟨accepted, []⟩) : I2cMove i ⟨i.command allowed accepted, []⟩ := by
  rcases i.command_cases allowed accepted with ⟨-, e⟩ | ⟨he, ha, e⟩ | ⟨-, -, e⟩ <;> rw [e]
  · exact .error _ rfl
  · exact h he ha
  · exact .error _ rfl

/-- Every instruction is a move of its engine. -/
theorem exec_moves (i : Instr) (s t : State) (h : exec i s = .next t) : Moves s t := by
  cases i <;> cases h
  case i2cNop => exact moves_same ⟨rfl, rfl, rfl, rfl, rfl, rfl⟩
  case i2cStart => exact moves_i2c (command_move _ _ _ fun a b => .start a b) ⟨rfl, rfl, rfl, by simp, rfl, rfl⟩
  case i2cAddrw a =>
    exact moves_i2c (command_move _ _ _ fun x y => .addrw a x (by simpa using y)) ⟨rfl, rfl, rfl, by simp, rfl, rfl⟩
  case i2cWrite b =>
    exact moves_i2c (command_move _ _ _ fun x y => .write b x (by simpa using y)) ⟨rfl, rfl, rfl, by simp, rfl, rfl⟩
  case i2cStop => exact moves_i2c (command_move _ _ _ fun a b => .stop a b) ⟨rfl, rfl, rfl, by simp, rfl, rfl⟩
  case flNop => exact moves_same ⟨rfl, rfl, rfl, rfl, rfl, rfl⟩
  case flErasePage => exact moves_fl (.operate .erase) ⟨rfl, rfl, rfl, rfl, rfl, rfl⟩
  case flProgramWord => exact moves_fl (.operate .program) ⟨rfl, rfl, rfl, rfl, rfl, rfl⟩
  case flLock => exact moves_fl .lock ⟨rfl, rfl, rfl, rfl, rfl, rfl⟩
  case flKey k => exact moves_fl (.key k) ⟨rfl, rfl, rfl, rfl, rfl, rfl⟩

/-- Every register write is a move. -/
theorem writeReg_moves (r : Reg) (v : Word) (s t : State) (h : writeReg r v s = .next t) : Moves s t := by
  rcases writeReg_cases r v s t h with ⟨-, rfl⟩ | ⟨-, rfl⟩ | ⟨-, rfl⟩ | ⟨-, rfl⟩ | ⟨-, ⟨i, -, h⟩ | rfl⟩ | ⟨-, rfl⟩ |
    ⟨-, rfl⟩ | ⟨-, rfl⟩ | ⟨-, ⟨i, -, h⟩ | rfl⟩ | ⟨-, rfl⟩
  · exact moves_i2c (.ctrl v) ⟨rfl, rfl, rfl, rfl, rfl, rfl⟩
  · exact moves_i2c (.timing v) ⟨rfl, rfl, rfl, by simp, rfl, rfl⟩
  · exact moves_i2c (.timeout v) ⟨rfl, rfl, rfl, by simp, rfl, rfl⟩
  · exact moves_i2c (.clear v) ⟨rfl, rfl, rfl, by simp, rfl, rfl⟩
  · exact exec_moves _ _ _ h
  · exact moves_i2c (.error _ rfl) ⟨rfl, rfl, rfl, by simp, rfl, rfl⟩
  · exact moves_fl (.addr v) ⟨rfl, rfl, rfl, rfl, rfl, rfl⟩
  · exact moves_fl (.data v) ⟨rfl, rfl, rfl, rfl, rfl, rfl⟩
  · exact moves_fl (.clear v) ⟨rfl, rfl, rfl, rfl, rfl, rfl⟩
  · exact exec_moves _ _ _ h
  · exact moves_fl .reserved ⟨rfl, rfl, rfl, rfl, rfl, rfl⟩
  · exact moves_fl (.key v) ⟨rfl, rfl, rfl, rfl, rfl, rfl⟩

/-- A host turn that answers a next state moves the model's own fields only, or writes a register: the case analysis
of a host step, with where the write lands. -/
theorem hostStep_cases (s t : State) (env : BusLines) (rest : List Turn) (hs : s.sched = .host env :: rest)
    (h : step s = .next t) :
    (∃ q r, t = { s with sched := rest, hostQ := q, response := r }) ∨
    ∃ acc q v r off, s.hostQ = acc :: q ∧ acc.wdata = some v ∧ acc.size = .four ∧
      placeOf s.params acc.target = .window off ∧ Reg.ofOffset off = some r ∧
      writeReg r v { s with sched := rest, hostQ := q, response := .written } = .next t := by
  simp only [step, hs, takeTurn, hostTurn] at h
  split at h
  · cases h; exact .inl ⟨_, _, rfl⟩
  · rename_i acc q hq
    split at h
    · cases h; exact .inl ⟨_, _, rfl⟩
    · simp only [performAccess] at h
      split at h
      · rename_i off hoff
        simp only [windowAccess] at h
        split at h
        · cases h
        · rename_i hsz
          split at h
          · cases h; exact .inl ⟨_, _, rfl⟩
          · rename_i r v hr hv
            exact .inr ⟨acc, q, v, r, off, hq, hv, by simp at hsz; exact hsz.1, hoff, hr, h⟩
          · cases h; exact .inl ⟨_, _, rfl⟩
          · cases h; exact .inl ⟨_, _, rfl⟩
      · simp only [regionAccess] at h
        split at h
        · cases h
        · split at h
          · cases h
          · cases h; exact .inl ⟨_, _, rfl⟩
      · cases h

/-- A register's offset is its own. -/
theorem ofOffset_offset (off : Nat) (r : Reg) (h : Reg.ofOffset off = some r) : off = r.offset := by
  unfold Reg.ofOffset at h
  split at h <;> cases h <;> rfl

/-- Every step is a move of each engine. -/
theorem step_moves (s t : State) (h : step s = .next t) : Moves s t := by
  rcases step_cases s t h with ⟨-, rfl⟩ | ⟨u, rest, hs, h'⟩
  · exact moves_same ⟨rfl, rfl, rfl, rfl, rfl, rfl⟩
  · cases u with
    | host env =>
      rcases hostStep_cases s t env rest hs h with ⟨q, r, rfl⟩ | ⟨acc, q, v, r, off, -, -, -, -, -, hw⟩
      · exact moves_same ⟨rfl, rfl, rfl, rfl, rfl, rfl⟩
      · obtain ⟨a, b, c, d⟩ := writeReg_moves _ _ _ _ hw
        exact ⟨a, b, c, d⟩
    | i2cTick env => cases h'; exact moves_i2c (.tick env) ⟨rfl, rfl, rfl, rfl, rfl, rfl⟩
    | flTick a content => cases h'; exact moves_fl (.tick a content) ⟨rfl, rfl, rfl, rfl, rfl, rfl⟩
    | reset content => cases h'; exact ⟨rfl, rfl, ⟨_, .reset, rfl, rfl⟩, ⟨_, .reset content, rfl, rfl⟩⟩

/-- The step of a scheduled I2CM tick. -/
theorem step_i2cTick (s : State) (env : BusLines) (rest : List Turn) (h : s.sched = .i2cTick env :: rest) :
    step s = .next ({ s with sched := rest }.applyI2c (s.i2c.tick env)) := by simp [step, h, takeTurn]

/-- The step of a scheduled FPROG tick. -/
theorem step_flTick (s : State) (a : ArrayAnswer) (content : List Byte) (rest : List Turn)
    (h : s.sched = .flTick a content :: rest) :
    step s = .next ({ s with sched := rest }.applyFl (s.fl.tick s.params a content s.array)) := by
  simp [step, h, takeTurn]

/-- The step of a scheduled reset. -/
theorem step_reset (s : State) (content : List Byte) (rest : List Turn) (h : s.sched = .reset content :: rest) :
    step s = .next (takeReset content { s with sched := rest }) := by simp [step, h, takeTurn]

/-- The step of a host access that lands in the register window. -/
theorem step_window (s : State) (env : BusLines) (rest : List Turn) (acc : HostAccess) (q : List HostAccess) (off : Nat)
    (hs : s.sched = .host env :: rest) (hq : s.hostQ = acc :: q) (hp : placeOf s.params acc.target = .window off) :
    step s = windowAccess env off acc { s with sched := rest, hostQ := q } := by
  simp [step, hs, takeTurn, hostTurn, hq, isHeld, hp, performAccess]

/-- A run is its first steps and then the others. -/
theorem runSteps_add (m n : Nat) (s t : State) (h : runSteps m s = .next t) : runSteps (m + n) s = runSteps n t := by
  induction m generalizing s with
  | zero => cases h; simp
  | succ m ih =>
    rw [show m + 1 + n = (m + n) + 1 by omega]
    rw [runSteps] at h ⊢
    cases hs : step s <;> rw [hs] at h <;> first | cases h | skip
    exact ih _ h

/-- Recording an error changes the error state of I2CM only. -/
theorem I2cState.raise_frame (i : I2cState) (c : I2cError) :
    ∃ n t m e, i.raise c = { i with nackf := n, tof := t, cmderr := m, errcode := e } := by
  cases c <;> exact ⟨_, _, _, _, rfl⟩

/-- Recording an error changes the error state of FPROG only. -/
theorem FlashState.raise_frame (f : FlashState) (c : FlError) :
    ∃ w p v m e, f.raise c = { f with wrperr := w, pgerr := p, verr := v, cmderr := m, errcode := e } := by
  cases c <;> exact ⟨_, _, _, _, _, rfl⟩

end Sys2Proof.Machine
end

