-- ==== Sys2Proof/Laws/Ports.lean ====
section
/-! SUPPORT. What the flash array port carries in each phase, and that FPROG and the host read path act on what it
carries. -/

namespace Sys2Proof.Machine

/-- In AWAIT an operation is outstanding, and `a_rdata` carries the array's status (30_encoding.md R113 (c)). -/
theorem State.aRdata_await (s : State) (answer : ArrayAnswer) (kind : FlKind) (hp : s.fl.ph = .await)
    (ho : s.fl.opstate = kind.opstate) : s.aRdata answer = .status answer.status := by
  have h : s.fl.outstanding = true := by
    cases kind <;> cases hk : s.fl.kind <;>
      simp [FlashState.outstanding, FlashState.arrayOp, ho, hp, FlKind.opstate, FlKind.arrayOp, hk]
  simp [State.aRdata, h]

/-- An AWAIT tick does to FPROG what the status on `a_rdata` asks, and FPROG sees nothing else of the answer
(41_flash_programmer.md R226). -/
theorem FlashState.tick_await (p : Params) (answer : ArrayAnswer) (content : List Byte) (f : FlashState) (m : Cells)
    (kind : FlKind) (hp : f.ph = .await) (ho : f.opstate = kind.opstate) :
    f.tick p answer content m = ⟨f.awaitStatus p answer.status, f.awaitArray p answer content m⟩ := by
  cases kind <;> simp [FlashState.tick, hp, ho, FlKind.opstate, FlashState.await]

/-- In VERIFY `a_rdata` carries read data again (30_encoding.md R113 (c)). -/
theorem State.aRdata_verify (s : State) (answer : ArrayAnswer) (h : s.fl.opstate = .verify) :
    s.aRdata answer = s.readData s.fl.targetBase Config.wordBytes := by
  simp [State.aRdata, FlashState.outstanding, FlashState.arrayOp, FlashState.bsy, h]

/-- While idle `a_rdata` carries the data of the host's read (30_encoding.md R113 (a)). -/
theorem State.aRdata_idle (s : State) (answer : ArrayAnswer) (acc : HostAccess) (q : List HostAccess) (a : Nat)
    (h : s.fl.opstate = .idle) (hq : s.hostQ = acc :: q) (hp : placeOf s.params acc.target = .region a)
    (hw : acc.wdata = none) : s.aRdata answer = s.readData a acc.size.bytes := by
  simp [State.aRdata, FlashState.outstanding, FlashState.arrayOp, FlashState.bsy, h, State.hostRead, hq, hp, hw]

end Sys2Proof.Machine
end

