-- ==== Sys2Proof/Laws/Runs.lean ====
section
/-! SUPPORT. Infinite runs, of the block alone and with a host program, and weak fairness: what one index does, and
progress by a measure. -/

namespace Sys2Proof.Machine

/-- A turn that answers a next state is a move of each engine. -/
theorem takeTurn_moves (u : Turn) (s t : State) (h : takeTurn u s = .next t) : Moves s t := by
  obtain ⟨a, b, c, d⟩ := step_moves { s with sched := u :: s.sched } t h
  exact ⟨a, b, c, d⟩

/-- What a sequence of states does over one index, whoever chose the host's accesses: each engine moves, and a turn that
is an engine's tick is that tick. -/
structure Advances (u : Turn) (s t : State) : Prop where
  moves : Moves s t
  i2cTick : ∀ env, u = .i2cTick env → t.i2c = (s.i2c.tick env).i2c
  flTick : ∀ a content, u = .flTick a content → t.fl = (s.fl.tick s.params a content s.array).fl

/-- A turn that answers a next state advances the block. -/
theorem takeTurn_advances (u : Turn) (s t : State) (h : takeTurn u s = .next t) : Advances u s t where
  moves := takeTurn_moves u s t h
  i2cTick := by rintro env rfl; cases h; rfl
  flTick := by rintro a content rfl; cases h; rfl

/-- Each index of a run advances the block. -/
theorem IsRun.advances {turns : Nat → Turn} {accesses : Nat → List HostAccess} {states : Nat → State}
    (h : IsRun turns accesses states) (n : Nat) : Advances (turns n) (states n) (states (n + 1)) := by
  obtain ⟨⟨a, b, c, d⟩, e, f⟩ :=
    takeTurn_advances (turns n) { states n with sched := [], hostQ := accesses n } (states (n + 1)) (h n)
  exact ⟨⟨a, b, c, d⟩, e, f⟩

/-- A move of the host's program leaves the block, or makes one access. -/
theorem HostSystem.hostMove_moves (env : BusLines) (y z : HostSystem) (h : y.hostMove env = .next z) :
    Moves y.block z.block := by
  have same : Moves y.block y.block := moves_same ⟨rfl, rfl, rfl, rfl, rfl, rfl⟩
  unfold hostMove at h
  split at h
  · cases h; exact same
  · split at h
    · cases h; exact same
    · split at h
      · rename_i b hb
        obtain ⟨p, q, r, w⟩ := takeTurn_moves (.host env) { y.block with hostQ := [_] } b hb
        split at h <;> cases h <;> exact ⟨p, q, r, w⟩
      · cases h
      · cases h

/-- Each index of a run with a host program advances the block. -/
theorem HostSystem.IsRun.advances {turns : Nat → Turn} {systems : Nat → HostSystem} (h : HostSystem.IsRun turns systems)
    (n : Nat) : Advances (turns n) (systems n).block (systems (n + 1)).block := by
  have hn := h n
  have other : ∀ u, (match takeTurn u (systems n).block with
      | .next b => Host.Outcome.next { systems n with block := b }
      | .fault f => .fault f
      | .refused r => .refused r) = .next (systems (n + 1)) → Advances u (systems n).block (systems (n + 1)).block := by
    intro u hu
    split at hu
    · rename_i b hb
      injection hu with hu
      rw [← hu]
      exact takeTurn_advances u _ b hb
    · cases hu
    · cases hu
  cases hu : turns n <;> rw [hu] at hn
  case host env => exact ⟨hostMove_moves env _ _ hn, nofun, nofun⟩
  all_goals exact other _ hn

/-- Progress by fairness: if a measure never grows while a tick of the engine is enabled, and every tick of it makes
the measure smaller, then in a fair run the engine's tick does not stay enabled. -/
theorem FairTo.leaves {enabled : State → Bool} {isTick : Turn → Bool} {turns : Nat → Turn} {states : Nat → State}
    (hf : FairTo enabled isTick turns states) (measure : State → Nat)
    (grows : ∀ n, enabled (states n) = true → enabled (states (n + 1)) = true →
      measure (states (n + 1)) ≤ measure (states n))
    (shrinks : ∀ n, enabled (states n) = true → enabled (states (n + 1)) = true → isTick (turns n) = true →
      measure (states (n + 1)) < measure (states n)) (N : Nat) :
    ∃ n, N ≤ n ∧ enabled (states n) = false := by
  by_contra hno
  have on : ∀ n, N ≤ n → enabled (states n) = true := fun n hn => by
    cases h : enabled (states n)
    · exact absurd ⟨n, hn, h⟩ hno
    · rfl
  have mono : ∀ d n, N ≤ n → measure (states (n + d)) ≤ measure (states n) := by
    intro d
    induction d with
    | zero => intro n _; exact Nat.le_refl _
    | succ d ih => intro n hn; exact (grows (n + d) (on _ (by omega)) (on _ (by omega))).trans (ih n hn)
  have drop : ∀ k n, N ≤ n → ∃ j, N ≤ j ∧ measure (states j) + k ≤ measure (states n) := by
    intro k
    induction k with
    | zero => intro n hn; exact ⟨n, hn, Nat.le_refl _⟩
    | succ k ih =>
      intro n hn
      obtain ⟨j, hj, hjn⟩ := ih n hn
      obtain ⟨m, hm, ht⟩ := hf j fun i hi => on i (by omega)
      have h1 := shrinks m (on _ (by omega)) (on _ (by omega)) ht
      have h2 := mono (m - j) j hj
      rw [show j + (m - j) = m by omega] at h2
      exact ⟨m + 1, by omega, by omega⟩
  obtain ⟨j, -, hj⟩ := drop (measure (states N) + 1) N (Nat.le_refl _)
  omega

end Sys2Proof.Machine
end

