-- ==== Sys2Proof/Laws/Progress.lean ====
section
/-! SUPPORT. How far each engine is from a state without an enabled tick: a measure that every enabled tick makes
smaller (40_i2c_master.md R161, 41_flash_programmer.md R229), and what ticks keep of I2CM. -/

namespace Sys2Proof.Machine

/-! ### FPROG -/

/-- The ticks FPROG has at most before it is idle (41_flash_programmer.md R229). -/
def FlashState.ticksLeft (p : Params) (f : FlashState) : Nat :=
  match f.opstate, f.ph with
  | .idle, _ => 0
  | .verify, _ => 1
  | .erase, .issue | .program, .issue => p.flashOpTimeout + 3
  | .erase, .await | .program, .await => (p.flashOpTimeout - f.wcnt) + 2

/-- The end of an operation leaves no tick. -/
theorem FlashState.ticksLeft_finish (p : Params) (f : FlashState) : f.finish.ticksLeft p = 0 := rfl

/-- A tick of AWAIT makes the measure smaller. -/
theorem FlashState.ticksLeft_await (p : Params) (a : ArrayAnswer) (content : List Byte) (f : FlashState) (m : Cells)
    (ho : f.opstate = .erase ∨ f.opstate = .program) (hp : f.ph = .await) :
    (f.await p a content m).fl.ticksLeft p < f.ticksLeft p := by
  have hf : f.ticksLeft p = (p.flashOpTimeout - f.wcnt) + 2 := by rcases ho with ho | ho <;> simp [ticksLeft, ho, hp]
  rw [await_eq, hf]
  cases a
  case noAnswer =>
    by_cases hb : p.flashOpTimeout ≤ f.wcnt + 1
    · simp [hb, ticksLeft_finish]
    · rcases ho with ho | ho <;> simp [hb, ticksLeft, ho, hp] <;> omega
  case fail => simp [ticksLeft_finish]
  all_goals simp [ticksLeft]

/-- A tick of ISSUE makes the measure smaller. -/
theorem FlashState.ticksLeft_issue (p : Params) (f : FlashState) (m : Cells)
    (ho : f.opstate = .erase ∨ f.opstate = .program) (hp : f.ph = .issue) :
    (f.issue m).fl.ticksLeft p < f.ticksLeft p := by
  have hf : f.ticksLeft p = p.flashOpTimeout + 3 := by rcases ho with ho | ho <;> simp [ticksLeft, ho, hp]
  rw [hf]
  unfold issue
  split
  · simp [ticksLeft_finish]
  · rcases ho with ho | ho <;> simp [ticksLeft, ho]

/-- Every tick of a busy FPROG makes the measure smaller. -/
theorem FlashState.ticksLeft_tick (p : Params) (a : ArrayAnswer) (content : List Byte) (f : FlashState) (m : Cells)
    (h : f.bsy = true) : (f.tick p a content m).fl.ticksLeft p < f.ticksLeft p := by
  cases ho : f.opstate <;> cases hp : f.ph <;> simp only [tick, ho, hp]
  case idle.issue | idle.await => simp [bsy, ho] at h
  case erase.issue => exact ticksLeft_issue p f m (.inl ho) hp
  case program.issue => exact ticksLeft_issue p f m (.inr ho) hp
  case erase.await => exact ticksLeft_await p a content f m (.inl ho) hp
  case program.await => exact ticksLeft_await p a content f m (.inr ho) hp
  all_goals
    unfold verify
    split <;> simp [ticksLeft_finish] <;> simp [ticksLeft, ho]

/-- A tick of an idle FPROG changes nothing. -/
theorem FlashState.tick_idle (p : Params) (a : ArrayAnswer) (content : List Byte) (f : FlashState) (m : Cells)
    (h : f.bsy = false) : (f.tick p a content m).fl = f := by
  have ho : f.opstate = .idle := by simpa [bsy] using h
  simp [tick, ho]

/-! ### I2CM -/

/-- The micro-phases I2CM has at most before it has no tick, counting a phase that waits once. -/
def I2cState.phasesLeft (i : I2cState) : Nat :=
  match i.ph with
  | .noPhase => 0
  | .s1 => 1 | .s0 => 2
  | .p3 => 3 | .p2 => 4 | .p1 => 5 | .p0 => 6
  | .a3 => 7 | .a2 => 8 | .a1 => 9 | .a0 => 10
  | .b3 => 4 * max i.bitcnt 1 + 7
  | .b2 => 4 * max i.bitcnt 1 + 8
  | .b1 => 4 * max i.bitcnt 1 + 9
  | .b0 => 4 * max i.bitcnt 1 + 10

/-- A bound of the ticks I2CM has before it has none enabled: a wait takes no more than the counter can count
(40_i2c_master.md R161). -/
def I2cState.ticksLeft (i : I2cState) : Nat :=
  if i.tickEnabled then i.phasesLeft * 65537 + (65536 - i.wcnt.toNat) else 0

/-- A phase further on is a smaller measure. -/
theorem I2cState.ticksLeft_lt (i j : I2cState) (hj : j.tickEnabled = true) (h : i.phasesLeft < j.phasesLeft) :
    i.ticksLeft < j.ticksLeft := by
  have := j.wcnt.isLt
  unfold ticksLeft
  rw [if_pos hj]
  split <;> omega

/-- A state without a tick has measure 0, one with a tick more. -/
theorem I2cState.ticksLeft_off (i j : I2cState) (hj : j.tickEnabled = true) (h : i.tickEnabled = false) :
    i.ticksLeft < j.ticksLeft := by
  have := j.wcnt.isLt
  simp only [ticksLeft, hj, h, if_true, Bool.false_eq_true, if_false]
  omega

/-- A timeout ends in IDLE, with its error recorded. -/
theorem I2cState.timeout_idle (i : I2cState) (c : I2cError) :
    (i.timeout c).i2c.st = .idle ∧ (i.timeout c).i2c.ph = .noPhase ∧ (i.timeout c).i2c.clean = false := by
  cases c <;> simp [timeout, raise, setFlag, I2cError.flag, clean]

/-- A tick of a wait makes the measure smaller if passing it does. -/
theorem I2cState.ticksLeft_wait (i : I2cState) (cond : Bool) (c : I2cError) (pass : I2cState → I2cEffect)
    (h : i.tickEnabled = true) (hp : (pass { i with wcnt := 0#16 }).i2c.phasesLeft < i.phasesLeft) :
    (i.wait cond c pass).i2c.ticksLeft < i.ticksLeft := by
  rcases i.wait_cases cond c pass with ⟨-, e⟩ | ⟨-, -, e⟩ | ⟨-, hl, e⟩ <;> rw [e]
  · exact ticksLeft_lt _ _ h hp
  · exact ticksLeft_off _ _ h (by simp [tickEnabled, (i.timeout_idle c).1])
  · have hb := i.budget.isLt
    have hw : (i.wcnt + 1#16).toNat = i.wcnt.toNat + 1 := by rw [BitVec.toNat_add]; simp; omega
    have h' : ({ i with wcnt := i.wcnt + 1#16 } : I2cState).tickEnabled = true := h
    have ph : ({ i with wcnt := i.wcnt + 1#16 } : I2cState).phasesLeft = i.phasesLeft := rfl
    simp only [ticksLeft, h, h', if_true, hw, ph]
    omega

/-- Every enabled tick of I2CM makes the measure smaller. -/
theorem I2cState.ticksLeft_tick (i : I2cState) (env : BusLines) (hf : phaseFits i.st i.ph = true)
    (h : i.tickEnabled = true) : (i.tick env).i2c.ticksLeft < i.ticksLeft := by
  have e : i.tick env = i.phaseAction env := by simp [tick, h]
  rw [e]
  cases hp : i.ph <;> simp only [phaseAction, hp]
  case noPhase => cases hs : i.st <;> simp [hs, hp, phaseFits, tickEnabled] at hf h
  case s0 => exact ticksLeft_wait _ _ _ _ h (by simp [phasesLeft, hp])
  case b2 => exact ticksLeft_wait _ _ _ _ h (by simp [phasesLeft, hp])
  case a2 => exact ticksLeft_wait _ _ _ _ h (by simp [phasesLeft, hp])
  case p2 => exact ticksLeft_wait _ _ _ _ h (by simp [phasesLeft, hp])
  case b3 =>
    apply ticksLeft_lt _ _ h
    by_cases hb : i.bitcnt - 1 = 0 <;> simp [phaseB3, phasesLeft, hp, hb] <;> omega
  case a3 =>
    unfold phaseA3
    split
    · exact ticksLeft_off _ _ h (by simp [tickEnabled])
    · exact ticksLeft_lt _ _ h (by simp [phasesLeft, hp])
  case p3 =>
    unfold phaseP3
    split
    · exact ticksLeft_lt _ _ h (by simp [phasesLeft, hp])
    · exact ticksLeft_off _ _ h (by simp [tickEnabled])
  all_goals
    exact ticksLeft_lt _ _ h (by simp [phaseS1, phaseB0, phaseB1, phaseA0, phaseA1, phaseP0, phaseP1, phasesLeft, hp])

/-- A tick that is not enabled changes nothing (log 4). -/
theorem I2cState.tick_off (i : I2cState) (env : BusLines) (h : i.tickEnabled = false) : (i.tick env).i2c = i := by
  simp [tick, h]

/-! ### What ticks keep of I2CM -/

/-- What a wait does: time out into IDLE with an error, stay with its phase and state, or what passing it does. -/
theorem I2cState.wait_keeps (P : I2cState → Prop) (i : I2cState) (cond : Bool) (c : I2cError) (pass : I2cState → I2cEffect)
    (passed : P (pass { i with wcnt := 0#16 }).i2c) (timedOut : P (i.timeout c).i2c)
    (stayed : P { i with wcnt := i.wcnt + 1#16 }) : P (i.wait cond c pass).i2c := by
  rcases i.wait_cases cond c pass with ⟨-, e⟩ | ⟨-, -, e⟩ | ⟨-, -, e⟩ <;> rw [e] <;> assumption

/-- A tick keeps the phase one of its state's (10_state.md R37). -/
theorem I2cState.tick_phaseFits (i : I2cState) (env : BusLines) (hf : phaseFits i.st i.ph = true) :
    phaseFits (i.tick env).i2c.st (i.tick env).i2c.ph = true := by
  by_cases h : i.tickEnabled = true
  · have e : i.tick env = i.phaseAction env := by simp [tick, h]
    have out : ∀ c, phaseFits (i.timeout c).i2c.st (i.timeout c).i2c.ph = true := fun c => by
      simp [(i.timeout_idle c).1, (i.timeout_idle c).2.1, phaseFits]
    rw [e]
    cases hp : i.ph <;> simp only [phaseAction, hp]
    case s0 | b2 | a2 | p2 =>
      refine wait_keeps (fun j => phaseFits j.st j.ph = true) _ _ _ _ ?_ (out _) hf
      cases hs : i.st <;> simp [hs, hp, phaseFits] at hf ⊢
    case b3 => cases hs : i.st <;> simp [hs, hp, phaseFits] at hf <;> simp [phaseB3, hs] <;> split <;> rfl
    case a3 => unfold phaseA3; split <;> simp [phaseFits]
    case p3 => unfold phaseP3; split <;> simp [phaseFits]
    all_goals
      cases hs : i.st <;> simp [hs, hp, phaseFits] at hf <;>
        simp [phaseS1, phaseB0, phaseB1, phaseA0, phaseA1, phaseP0, phaseP1, hs, phaseFits, hp]
  · rw [i.tick_off env (by simpa using h)]; exact hf

/-- Every move of I2CM keeps the phase one of its state's. -/
theorem I2cMove.phaseFits {i : I2cState} {e : I2cEffect} (m : I2cMove i e)
    (hf : Machine.phaseFits i.st i.ph = true) : Machine.phaseFits e.i2c.st e.i2c.ph = true := by
  cases m
  case tick env => exact i.tick_phaseFits env hf
  case ctrl v => unfold I2cState.writeCtrl; split <;> split <;> first | exact hf | rfl
  case start => unfold I2cState.acceptStart; split <;> first | exact hf | rfl
  case clear v => exact hf
  case error c _ => simpa using hf
  case addrw | write | stop | reset => rfl
  all_goals exact hf

end Sys2Proof.Machine
end

