-- ==== Sys2Proof/Laws/HostMoves.lean ====
section
/-! SUPPORT. The host moves on: what the engines do between two moves of the host, what each move does, and that in an
execution without a reset a program that has not ended makes its next move (00_scope.md R11, R12). -/

namespace Sys2Proof.Machine

/-! ### What the engines do while the host does not write -/

/-- From one state to the other at most one tick of each engine has passed, and nothing else has changed the engines. -/
structure EnginesOnly (s t : State) : Prop where
  params : t.params = s.params
  i2c : t.i2c = s.i2c ∨ ∃ env, t.i2c = (s.i2c.tick env).i2c
  fl : t.fl = s.fl ∨ ∃ a content m, t.fl = (s.fl.tick s.params a content m).fl

/-- A condition that ticks of the engines keep. -/
def KeptByTicks (P : State → Prop) : Prop := ∀ s t, EnginesOnly s t → P s → P t

/-- A condition on I2CM alone is kept if a tick of I2CM keeps it. -/
theorem keptByTicks_i2c {P : I2cState → Prop} (h : ∀ i env, P i → P (i.tick env).i2c) :
    KeptByTicks fun s => P s.i2c := by
  rintro s t ⟨-, e | ⟨env, e⟩, -⟩ hs <;> simp only [e]
  · exact hs
  · exact h _ _ hs

/-- No condition is kept by everything. -/
theorem keptByTicks_true : KeptByTicks fun _ => True := fun _ _ _ _ => trivial

/-- An engine without a tick is left as it is. -/
theorem keptByTicks_i2c_off : KeptByTicks fun s => s.i2c.tickEnabled = false :=
  keptByTicks_i2c fun i env h => by rw [i.tick_off env h]; exact h

theorem keptByTicks_fl_idle : KeptByTicks fun s => s.fl.bsy = false := by
  rintro s t ⟨-, -, e | ⟨a, c, m, e⟩⟩ hs <;> simp only [e]
  · exact hs
  · rw [s.fl.tick_idle _ _ _ _ hs]; exact hs

/-- The ticks the engines have left at most. -/
def State.ticksLeft (s : State) : Nat := s.i2c.ticksLeft + s.fl.ticksLeft s.params

/-! ### One turn of a system -/

/-- The offset of a register is its own slot of the window (30_encoding.md R116). -/
theorem offset_slot (r : Reg) :
    r.offset < Config.windowSize ∧ r.offset % 4 = 0 ∧ Reg.ofOffset r.offset = some r := by cases r <;> decide

/-- A host turn whose access is a read of a register by its offset. -/
theorem hostTurn_read (env : BusLines) (r : Reg) (s : State) :
    hostTurn env { s with hostQ := [⟨.reg r.offset, .four, none⟩] } =
      .next { s with hostQ := [], response := .value (readReg r env s) } := by
  obtain ⟨h1, h2, h3⟩ := offset_slot r
  simp only [hostTurn, isHeld, placeOf, h1, if_true, Bool.and_false, Bool.false_eq_true, if_false, performAccess,
    windowAccess, h2, ne_eq, not_true_eq_false, or_self, h3]
  cases r <;> rfl

/-- A host turn whose access is a write to a register by its offset. -/
theorem hostTurn_write (env : BusLines) (r : Reg) (v : Word) (s : State) :
    hostTurn env { s with hostQ := [⟨.reg r.offset, .four, some v⟩] } =
      writeReg r v { s with hostQ := [], response := .written } := by
  obtain ⟨h1, h2, h3⟩ := offset_slot r
  simp [hostTurn, isHeld, placeOf, h1, performAccess, windowAccess, h2, h3, State.respond]

/-- A register write leaves the answer as it is. -/
theorem writeReg_response (r : Reg) (v : Word) (s t : State) (h : writeReg r v s = .next t) :
    t.response = s.response := by
  have he : ∀ i, exec i s = .next t → t.response = s.response := fun i hi => by
    rcases exec_cases i s t hi with ⟨-, j, rfl⟩ | ⟨-, f, rfl⟩ <;> rfl
  rcases writeReg_cases r v s t h with ⟨-, rfl⟩ | ⟨-, rfl⟩ | ⟨-, rfl⟩ | ⟨-, rfl⟩ | ⟨-, ⟨i, -, h⟩ | rfl⟩ | ⟨-, rfl⟩ |
    ⟨-, rfl⟩ | ⟨-, rfl⟩ | ⟨-, ⟨i, -, h⟩ | rfl⟩ | ⟨-, rfl⟩ <;> first | rfl | exact he _ h

namespace HostSystem

/-- A turn that is not the host's and no reset is at most a tick of one engine. -/
theorem turn_engine {y z : HostSystem} {u : Turn} (h : y.turn u = .next z) (hh : ∀ env, u ≠ .host env)
    (hr : ∀ c, u ≠ .reset c) : z.ctx = y.ctx ∧ EnginesOnly y.block z.block := by
  cases u with
  | host env => exact absurd rfl (hh env)
  | reset c => exact absurd rfl (hr c)
  | i2cTick env => cases h; exact ⟨rfl, rfl, .inr ⟨env, rfl⟩, .inl rfl⟩
  | flTick a c => cases h; exact ⟨rfl, rfl, .inl rfl, .inr ⟨a, c, _, rfl⟩⟩

/-- An idle turn leaves the program and the engines as they are. -/
theorem turn_idle {y z : HostSystem} {u : Turn} (h : y.turn u = .next z) (he : y.enabled u = false) :
    z.ctx = y.ctx ∧ z.block.params = y.block.params ∧ z.block.i2c = y.block.i2c ∧ z.block.fl = y.block.fl := by
  cases u with
  | i2cTick env => cases h; exact ⟨rfl, rfl, y.block.i2c.tick_off env he, rfl⟩
  | flTick a c => cases h; exact ⟨rfl, rfl, rfl, y.block.fl.tick_idle _ _ _ _ he⟩
  | reset c => cases he
  | host env =>
    simp only [turn, hostMove] at h
    split at h
    · cases h; exact ⟨rfl, rfl, rfl, rfl⟩
    · rename_i hr
      have hn : y.ctx.result.isNone = true := by cases hx : y.ctx.result <;> simp [hx] at hr ⊢
      simp only [enabled, hn, Bool.true_and, Bool.not_eq_false'] at he
      unfold held at he
      split at he
      · cases he
      · rename_i acc ha
        have held : isHeld acc { y.block with hostQ := [acc] } = true := he
        simp only [ha, hostTurn, held, if_true, State.respond_response] at h
        cases h
        exact ⟨rfl, rfl, rfl, rfl⟩

/-- An enabled tick leaves fewer ticks. -/
theorem turn_tick {y z : HostSystem} {u : Turn} (h : y.turn u = .next z) (he : y.enabled u = true)
    (hh : ∀ env, u ≠ .host env) (hr : ∀ c, u ≠ .reset c) (hf : phaseFits y.block.i2c.st y.block.i2c.ph = true) :
    z.block.ticksLeft < y.block.ticksLeft := by
  cases u with
  | host env => exact absurd rfl (hh env)
  | reset c => exact absurd rfl (hr c)
  | i2cTick env =>
    cases h
    have := y.block.i2c.ticksLeft_tick env hf he
    simp only [State.ticksLeft, State.applyI2c_i2c, State.applyI2c_fl, State.applyI2c_params]
    omega
  | flTick a c =>
    cases h
    have := y.block.fl.ticksLeft_tick y.block.params a c y.block.array he
    simp only [State.ticksLeft, State.applyFl_i2c, State.applyFl_fl, State.applyFl_params]
    omega

/-! ### One move of the host -/

/-- A statement without an access is the program's own. -/
theorem hostMove_local {y z : HostSystem} {env : BusLines} (h : y.hostMove env = .next z) (hr : y.ctx.result = none)
    (ha : y.ctx.nextAccess = none) : z = { y with ctx := y.ctx.localMove } := by
  simp only [hostMove, hr, Option.isSome_none, Bool.false_eq_true, if_false, ha] at h
  cases h; rfl

/-- A WR is one register write, and the program goes on after it (42_driver_sequences.md R260). -/
theorem hostMove_wr {y z : HostSystem} {env : BusLines} {r : Reg} {e : Expr} {rest : List HostFrame}
    (h : y.hostMove env = .next z) (hr : y.ctx.result = none) (hs : y.ctx.stack = .run (.wr r e) :: rest) :
    z.ctx = { y.ctx with stack := rest } ∧
      writeReg r (BitVec.ofNat 32 (evalExpr y.ctx.names e)) { y.block with hostQ := [], response := .written } =
        .next z.block := by
  simp only [hostMove, hr, Option.isSome_none, Bool.false_eq_true, if_false, HostCtx.nextAccess, hs,
    hostTurn_write] at h
  split at h
  · rename_i b hb
    have hw : b.response = .written := writeReg_response _ _ _ _ hb
    rw [if_neg (by simp [hw])] at h
    cases h
    exact ⟨by simp [HostCtx.answered, hs], hb⟩
  · cases h
  · cases h

/-- A read of a WAIT (42_driver_sequences.md R262). -/
theorem hostMove_wait {y z : HostSystem} {env : BusLines} {r : Reg} {mask val errmask : Expr} {x : Option String}
    {rest : List HostFrame} (h : y.hostMove env = .next z) (hr : y.ctx.result = none)
    (hs : y.ctx.stack = .run (.wait r mask val errmask x) :: rest) :
    z.ctx = y.ctx.waitRead rest r (evalExpr y.ctx.names mask) (evalExpr y.ctx.names val) (evalExpr y.ctx.names errmask) x
        (readReg r env y.block).toNat ∧ EnginesOnly y.block z.block := by
  simp only [hostMove, hr, Option.isSome_none, Bool.false_eq_true, if_false, HostCtx.nextAccess, hs,
    hostTurn_read, reduceCtorEq] at h
  cases h
  exact ⟨by simp [HostCtx.answered, hs, responseValue], rfl, .inl rfl, .inl rfl⟩

end HostSystem

/-- A read of a WAIT ends the program with an error, ends the wait, or changes nothing (42_driver_sequences.md R262). -/
theorem HostCtx.waitRead_cases (c : HostCtx) (rest : List HostFrame) (r : Reg) (mask val errmask : Nat)
    (x : Option String) (v : Nat) :
    (v &&& errmask ≠ 0 ∧ (c.waitRead rest r mask val errmask x v).result.isSome = true) ∨
    (v &&& errmask = 0 ∧ v &&& mask = val ∧ (c.waitRead rest r mask val errmask x v).stack = rest ∧
      (c.waitRead rest r mask val errmask x v).result = c.result) ∨
    (v &&& errmask = 0 ∧ v &&& mask ≠ val ∧ c.waitRead rest r mask val errmask x v = c) := by
  unfold waitRead
  by_cases he : v &&& errmask = 0
  · by_cases hv : v &&& mask = val
    · refine .inr (.inl ⟨he, hv, ?_⟩)
      rw [if_neg (by simpa using he), if_pos hv]
      cases x <;> exact ⟨rfl, rfl⟩
    · exact .inr (.inr ⟨he, hv, by simp [he, hv]⟩)
  · exact .inl ⟨he, by simp [he, returnErr, finish]⟩

/-! ### The host moves on -/

/-- An execution without a reset, I2CM's phase fitting its state at its start. -/
structure Undisturbed (turns : Nat → Turn) (systems : Nat → HostSystem) : Prop where
  execution : HostSystem.IsExecution turns systems
  noReset : NoReset turns
  fits : phaseFits (systems 0).block.i2c.st (systems 0).block.i2c.ph = true

namespace Undisturbed

variable {turns : Nat → Turn} {systems : Nat → HostSystem} (E : Undisturbed turns systems)
include E

/-- The phase fits the state at every index. -/
theorem fits_at (n : Nat) : phaseFits (systems n).block.i2c.st (systems n).block.i2c.ph = true := by
  induction n with
  | zero => exact E.fits
  | succ n ih =>
    obtain ⟨-, -, ⟨e, m, he, -⟩, -⟩ := (E.execution.run.advances n).moves
    rw [he]
    exact m.phaseFits ih

/-- Over idle turns the program and the engines stay. -/
theorem idle_until (n d : Nat) (h : ∀ i, i < d → (systems (n + i)).enabled (turns (n + i)) = false) :
    (systems (n + d)).ctx = (systems n).ctx ∧ (systems (n + d)).block.params = (systems n).block.params ∧
      (systems (n + d)).block.i2c = (systems n).block.i2c ∧ (systems (n + d)).block.fl = (systems n).block.fl := by
  induction d with
  | zero => exact ⟨rfl, rfl, rfl, rfl⟩
  | succ d ih =>
    obtain ⟨a, b, c, e⟩ := ih fun i hi => h i (by omega)
    obtain ⟨a', b', c', e'⟩ := HostSystem.turn_idle (E.execution.run (n + d)) (h d (by omega))
    exact ⟨a'.trans a, b'.trans b, c'.trans c, e'.trans e⟩

/-- A program that has not ended makes its next move, one that is not held (20_memory.md R90), with every condition that
ticks keep still true at it. -/
theorem host_moves {P : State → Prop} (kept : KeptByTicks P) (n : Nat) (hr : (systems n).ctx.result = none)
    (hP : P (systems n).block) :
    ∃ m env, n ≤ m ∧ turns m = .host env ∧ (systems m).held = false ∧ (systems m).ctx = (systems n).ctx ∧
      P (systems m).block := by
  induction hk : (systems n).block.ticksLeft using Nat.strongRecOn generalizing n with
  | _ k ih =>
    classical
    have hex : ∃ d, (systems (n + d)).enabled (turns (n + d)) = true ∨ (systems (n + d)).over = true := by
      obtain ⟨m, hm, h⟩ := E.execution.proceeds n
      exact ⟨m - n, by rwa [show n + (m - n) = m by omega]⟩
    have hd := Nat.find_spec hex
    have hmin : ∀ i, i < Nat.find hex → (systems (n + i)).enabled (turns (n + i)) = false := fun i hi => by
      have := Nat.find_min hex hi
      simpa using (not_or.1 this).1
    generalize Nat.find hex = d at hd hmin
    obtain ⟨hc, hp, hi, hf⟩ := E.idle_until n d hmin
    have hPd : P (systems (n + d)).block := kept _ _ ⟨hp, .inl hi, .inl hf⟩ hP
    have hov : (systems (n + d)).over = false := by simp [HostSystem.over, hc, hr]
    have hen : (systems (n + d)).enabled (turns (n + d)) = true := by simpa [hov] using hd
    by_cases hh : ∃ env, turns (n + d) = .host env
    · obtain ⟨env, he⟩ := hh
      refine ⟨n + d, env, by omega, he, ?_, hc, hPd⟩
      rw [he] at hen
      simp only [HostSystem.enabled, Bool.and_eq_true, Bool.not_eq_true'] at hen
      exact hen.2
    · have nh : ∀ env, turns (n + d) ≠ .host env := fun env he => hh ⟨env, he⟩
      have run := E.execution.run (n + d)
      obtain ⟨hc', q⟩ := HostSystem.turn_engine run nh (E.noReset _)
      have lt := HostSystem.turn_tick run hen nh (E.noReset _) (E.fits_at _)
      have same : (systems (n + d)).block.ticksLeft = (systems n).block.ticksLeft := by
        simp only [State.ticksLeft, hp, hi, hf]
      obtain ⟨m, env, hm, he, hheld, hcm, hPm⟩ := ih _ (by omega) (n + d + 1) (by rw [hc', hc, hr]) (kept _ _ q hPd) rfl
      exact ⟨m, env, by omega, he, hheld, by rw [hcm, hc', hc], hPm⟩

/-- The next move of a program at a statement without an access. -/
theorem local_moves {P : State → Prop} (kept : KeptByTicks P) (n : Nat) (hr : (systems n).ctx.result = none)
    (ha : (systems n).ctx.nextAccess = none) (hP : P (systems n).block) :
    ∃ m, n ≤ m ∧ (systems m).ctx = (systems n).ctx.localMove ∧ P (systems m).block := by
  obtain ⟨m, env, hm, he, -, hc, hPm⟩ := E.host_moves kept n hr hP
  have run := E.execution.run m
  rw [he] at run
  have := HostSystem.hostMove_local run (by rw [hc, hr]) (by rw [hc, ha])
  exact ⟨m + 1, by omega, by rw [this, hc], by rw [this]; exact hPm⟩

end Undisturbed

end Sys2Proof.Machine
end

