-- ==== Sys2Proof/Laws/I2cTransfer.lean ====
section
/-! SUPPORT. What a WAIT on I2C_STAT tests, and where I2CM goes after each command of a transfer, accepted or rejected
(42_driver_sequences.md R264, R266, R275). -/

namespace Sys2Proof.Machine

/-! ### What a WAIT tests -/

/-- The flags of I2C_STAT at their bits (30_encoding.md R120). -/
theorem I2cState.statWord_flags (i : I2cState) (env : BusLines) :
    (i.statWord env).getLsbD 0 = i.sb ∧ (i.statWord env).getLsbD 1 = i.msl ∧ (i.statWord env).getLsbD 2 = i.busy ∧
    (i.statWord env).getLsbD 3 = i.addrAcked ∧ (i.statWord env).getLsbD 4 = i.txe ∧ (i.statWord env).getLsbD 5 = i.btf ∧
    (i.statWord env).getLsbD 8 = i.nackf ∧ (i.statWord env).getLsbD 9 = i.tof ∧ (i.statWord env).getLsbD 10 = i.cmderr := by
  simp only [statWord, BitVec.getLsbD_append]
  simp

/-- One bit of a word under its mask. -/
theorem toNat_and_two_pow (v : Word) (k : Nat) : v.toNat &&& 2 ^ k = if v.getLsbD k then 2 ^ k else 0 := by
  rw [Nat.and_two_pow, BitVec.testBit_toNat]
  cases v.getLsbD k <;> simp

/-- The error test of a WAIT on I2C_STAT (42_driver_sequences.md R264). -/
theorem I2cState.statWord_errors (i : I2cState) (env : BusLines) :
    (i.statWord env).toNat &&& i2cErrMask.toNat = 0 ↔ i.clean = true := by
  obtain ⟨-, -, -, -, -, -, hn, ht, hc⟩ := i.statWord_flags env
  rw [show i2cErrMask.toNat = 2 ^ 8 ||| 2 ^ 9 ||| 2 ^ 10 by decide, Nat.and_or_distrib_left, Nat.and_or_distrib_left,
    toNat_and_two_pow, toNat_and_two_pow, toNat_and_two_pow, hn, ht, hc]
  cases h1 : i.nackf <;> cases h2 : i.tof <;> cases h3 : i.cmderr <;> simp [clean, h1, h2, h3]

/-- The success tests of the WAITs on I2C_STAT (42_driver_sequences.md R264). -/
theorem I2cState.statWord_select (i : I2cState) (env : BusLines) (h : i.st = .started) :
    (i.statWord env).toNat &&& stSelect = stSelect := by
  obtain ⟨h0, h1, h2, -⟩ := i.statWord_flags env
  rw [show stSelect = 2 ^ 0 ||| 2 ^ 1 ||| 2 ^ 2 by decide, Nat.and_or_distrib_left, Nat.and_or_distrib_left,
    toNat_and_two_pow, toNat_and_two_pow, toNat_and_two_pow, h0, h1, h2]
  simp [sb, msl, busy, h]

theorem I2cState.statWord_addr (i : I2cState) (env : BusLines) :
    (i.statWord env).toNat &&& stAddr = stAddr ↔ i.addrAcked = true := by
  rw [show stAddr = 2 ^ 3 by decide, toNat_and_two_pow, (i.statWord_flags env).2.2.2.1]
  cases i.addrAcked <;> simp

theorem I2cState.statWord_txe (i : I2cState) (env : BusLines) :
    (i.statWord env).toNat &&& stTxe = stTxe ↔ i.txe = true := by
  rw [show stTxe = 2 ^ 4 by decide, toNat_and_two_pow, (i.statWord_flags env).2.2.2.2.1]
  cases i.txe <;> simp

theorem I2cState.statWord_btf (i : I2cState) (env : BusLines) :
    (i.statWord env).toNat &&& stBtf = stBtf ↔ i.btf = true := by
  rw [show stBtf = 2 ^ 5 by decide, toNat_and_two_pow, (i.statWord_flags env).2.2.2.2.2.1]
  cases i.btf <;> simp

/-! ### I2CM on its way -/

/-- What an accepted START leads to, or an error (42_driver_sequences.md R275). -/
def I2cState.startGoes (i : I2cState) : Prop :=
  i.clean = false ∨ i.st = .starting ∨ (i.st = .stopping ∧ i.spend = true) ∨ i.st = .started

/-- What an accepted ADDRW leads to, or an error (42_driver_sequences.md R275). -/
def I2cState.addressGoes (i : I2cState) : Prop :=
  i.clean = false ∨ i.st = .addressing ∨ (i.st = .ready ∧ i.sent = false)

/-- What an accepted WRITE leads to, or an error (42_driver_sequences.md R275). -/
def I2cState.dataGoes (i : I2cState) : Prop :=
  i.clean = false ∨ i.st = .transmitting ∨ (i.st = .ready ∧ i.sent = true)

/-- An error recorded is an error flag set. -/
theorem I2cState.raise_clean (i : I2cState) (c : I2cError) : (i.raise c).clean = false := by
  cases c <;> simp [raise, setFlag, I2cError.flag, clean]

/-- A tick clears no error flag. -/
theorem I2cState.tick_clean (i : I2cState) (env : BusLines) (h : i.clean = false) : (i.tick env).i2c.clean = false := by
  unfold tick
  split
  · cases hp : i.ph <;> simp only [phaseAction, hp]
    case s0 | b2 | a2 | p2 => exact wait_keeps (fun j => j.clean = false) _ _ _ _ h (i.timeout_idle _).2.2 h
    case a3 => unfold phaseA3; split; exact h; exact raise_clean _ _
    case p3 => unfold phaseP3; split <;> exact h
    all_goals exact h
  · exact h

/-- A start goes on, ends in STARTED, or ends in an error (40_i2c_master.md R162, R163, R172, R173). -/
theorem I2cState.startGoes_tick (i : I2cState) (env : BusLines) (hf : phaseFits i.st i.ph = true) (h : i.startGoes) :
    (i.tick env).i2c.startGoes := by
  rcases h with h | h | ⟨h, hs⟩ | h
  · exact .inl (i.tick_clean env h)
  · rw [show i.tick env = i.phaseAction env by simp [tick, tickEnabled, h]]
    cases hp : i.ph <;> simp only [phaseAction, hp]
    case s0 =>
      refine wait_keeps startGoes _ _ _ _ ?_ (.inl (i.timeout_idle _).2.2) ?_ <;> exact .inr (.inl h)
    case s1 => exact .inr (.inr (.inr rfl))
    all_goals simp [h, hp, phaseFits] at hf
  · have going : ∀ j : I2cState, j.st = i.st → j.spend = i.spend → j.startGoes := fun j e e' =>
      .inr (.inr (.inl ⟨e.trans h, e'.trans hs⟩))
    rw [show i.tick env = i.phaseAction env by simp [tick, tickEnabled, h]]
    cases hp : i.ph <;> simp only [phaseAction, hp]
    case p0 | p1 => exact going _ rfl rfl
    case p2 =>
      refine wait_keeps startGoes _ _ _ _ ?_ (.inl (i.timeout_idle _).2.2) ?_ <;> exact going _ rfl rfl
    case p3 => exact .inr (.inl (by simp [phaseP3, hs]))
    all_goals simp [h, hp, phaseFits] at hf
  · rw [i.tick_off env (by simp [tickEnabled, h])]; exact .inr (.inr (.inr h))

/-- A frame goes on, ends in READY, or ends in an error (40_i2c_master.md R166, R170, R171). -/
theorem I2cState.frame_tick (i : I2cState) (env : BusLines) (hf : phaseFits i.st i.ph = true)
    (h : i.st = .addressing ∨ i.st = .transmitting) :
    (i.tick env).i2c.clean = false ∨ (i.tick env).i2c.st = i.st ∨
      ((i.tick env).i2c.st = .ready ∧ (i.tick env).i2c.sent = (i.st != .addressing)) := by
  have he : i.tick env = i.phaseAction env := by rcases h with h | h <;> simp [tick, tickEnabled, h]
  rw [he]
  cases hp : i.ph <;> simp only [phaseAction, hp]
  case b2 | a2 =>
    exact wait_keeps (fun j => j.clean = false ∨ j.st = i.st ∨ (j.st = .ready ∧ j.sent = (i.st != .addressing))) _ _ _ _
      (.inr (.inl rfl)) (.inl (i.timeout_idle _).2.2) (.inr (.inl rfl))
  case a3 =>
    unfold phaseA3
    split
    · exact .inr (.inr ⟨rfl, rfl⟩)
    · exact .inl (raise_clean _ _)
  case b0 | b1 | b3 | a0 | a1 => exact .inr (.inl rfl)
  all_goals rcases h with h | h <;> simp [h, hp, phaseFits] at hf

theorem I2cState.addressGoes_tick (i : I2cState) (env : BusLines) (hf : phaseFits i.st i.ph = true)
    (h : i.addressGoes) : (i.tick env).i2c.addressGoes := by
  rcases h with h | h | ⟨h, hs⟩
  · exact .inl (i.tick_clean env h)
  · rcases i.frame_tick env hf (.inl h) with e | e | ⟨e, e'⟩
    · exact .inl e
    · exact .inr (.inl (e.trans h))
    · exact .inr (.inr ⟨e, by rw [e', h]; rfl⟩)
  · rw [i.tick_off env (by simp [tickEnabled, h])]; exact .inr (.inr ⟨h, hs⟩)

theorem I2cState.dataGoes_tick (i : I2cState) (env : BusLines) (hf : phaseFits i.st i.ph = true)
    (h : i.dataGoes) : (i.tick env).i2c.dataGoes := by
  rcases h with h | h | ⟨h, hs⟩
  · exact .inl (i.tick_clean env h)
  · rcases i.frame_tick env hf (.inr h) with e | e | ⟨e, e'⟩
    · exact .inl e
    · exact .inr (.inl (e.trans h))
    · exact .inr (.inr ⟨e, by rw [e', h]; rfl⟩)
  · rw [i.tick_off env (by simp [tickEnabled, h])]; exact .inr (.inr ⟨h, hs⟩)

/-- A write of a word that decodes to the I2CM command. -/
theorem writeReg_i2cCmd {v : Word} {i : Instr} (hd : decode .i2cCmd v = .ok i) (s t : State)
    (h : writeReg .i2cCmd v s = .next t) : exec i s = .next t := by
  simpa [writeReg, writeCommand, hd] using h

/-- After a START, whether accepted or rejected. -/
theorem exec_start_goes (s t : State) (h : exec .i2cStart s = .next t) : t.i2c.startGoes := by
  cases h
  rcases s.i2c.command_cases s.i2c.allowsStart s.i2c.acceptStart with ⟨-, e⟩ | ⟨-, ha, e⟩ | ⟨-, -, e⟩ <;>
    simp only [State.setI2c_i2c, e]
  · exact .inl (I2cState.raise_clean _ _)
  · simp only [I2cState.allowsStart, Bool.or_eq_true, beq_iff_eq, Bool.and_eq_true] at ha
    unfold I2cState.acceptStart
    split
    · exact .inr (.inl rfl)
    · rename_i hi
      exact .inr (.inr (.inl ⟨(ha.resolve_left hi).1, rfl⟩))
  · exact .inl (I2cState.raise_clean _ _)

/-- After an ADDRW, whether accepted or rejected. -/
theorem exec_addrw_goes (a : BitVec 7) (s t : State) (h : exec (.i2cAddrw a) s = .next t) : t.i2c.addressGoes := by
  cases h
  rcases s.i2c.command_cases (s.i2c.st == .started) (s.i2c.loadFrame (addressFrame a) .addressing) with
    ⟨-, e⟩ | ⟨-, -, e⟩ | ⟨-, -, e⟩ <;> simp only [State.setI2c_i2c, e]
  · exact .inl (I2cState.raise_clean _ _)
  · exact .inr (.inl rfl)
  · exact .inl (I2cState.raise_clean _ _)

/-- After a WRITE, whether accepted or rejected. -/
theorem exec_write_goes (b : Byte) (s t : State) (h : exec (.i2cWrite b) s = .next t) : t.i2c.dataGoes := by
  cases h
  rcases s.i2c.command_cases (s.i2c.st == .ready) (s.i2c.loadFrame b .transmitting) with
    ⟨-, e⟩ | ⟨-, -, e⟩ | ⟨-, -, e⟩ <;> simp only [State.setI2c_i2c, e]
  · exact .inl (I2cState.raise_clean _ _)
  · exact .inr (.inl rfl)
  · exact .inl (I2cState.raise_clean _ _)

/-- The word a macro writes for ADDRW decodes to it (42_driver_sequences.md R264). -/
theorem decode_exprAddrw (names : Bindings) (a : Nat) (ha : a ≤ 127) :
    ∃ b, decode .i2cCmd (BitVec.ofNat 32 (evalExpr names (exprAddrw (.lit a)))) = .ok (.i2cAddrw b) := by
  have all : ∀ (h : Fin 8) (l : Fin 16), decode .i2cCmd (BitVec.ofNat 32 (2 ||| (16 * h.val + l.val) <<< 8)) =
      .ok (.i2cAddrw (BitVec.ofNat 7 (16 * h.val + l.val))) := by decide
  have := all ⟨a / 16, by omega⟩ ⟨a % 16, by omega⟩
  rw [Nat.div_add_mod] at this
  exact ⟨_, this⟩

/-- The word a macro writes for WRITE decodes to it (42_driver_sequences.md R264). -/
theorem decode_exprWrite (names : Bindings) (bs : List Byte) (i : Expr) :
    ∃ b, decode .i2cCmd (BitVec.ofNat 32 (evalExpr names (exprWrite (.byteOf bs i)))) = .ok (.i2cWrite b) := by
  have all : ∀ (h : Fin 16) (l : Fin 16), decode .i2cCmd (BitVec.ofNat 32 (3 ||| (16 * h.val + l.val) <<< 8)) =
      .ok (.i2cWrite (BitVec.ofNat 8 (16 * h.val + l.val))) := by decide
  obtain ⟨x, hx, e⟩ : ∃ x, x < 256 ∧ evalExpr names (exprWrite (.byteOf bs i)) = 3 ||| x <<< 8 :=
    ⟨_, BitVec.isLt (bs.getD (evalExpr names i) 0#8), rfl⟩
  have := all ⟨x / 16, by omega⟩ ⟨x % 16, by omega⟩
  rw [Nat.div_add_mod] at this
  exact ⟨_, e ▸ this⟩

end Sys2Proof.Machine
end

