-- ==== Sys2Proof/Laws/Drivers.lean ====
section
/-! SUPPORT. The driver sequences end: a rule for each statement of a host program, and by them that I2C_WRITE,
ERASE_PAGES, PROGRAM_WORDS and FLASH_UPDATE end in every execution without a reset (42_driver_sequences.md R275, R276). -/

namespace Sys2Proof.Machine

/-! ### Leaving a statement -/

/-- What is left to run when a macro returns: the frames of its caller. -/
def afterReturn : List HostFrame → Option (List HostFrame)
  | [] => none
  | .back _ :: rest => some rest
  | .run _ :: rest => afterReturn rest
  | .loop _ _ _ _ _ :: rest => afterReturn rest

/-- A return ends the program or leaves the frames of the caller. -/
theorem HostCtx.returnOk_cases (c : HostCtx) (rest : List HostFrame) :
    (c.returnOk rest).result.isSome = true ∨
      (c.returnOk rest).result = c.result ∧ afterReturn rest = some (c.returnOk rest).stack := by
  induction rest with
  | nil => exact .inl rfl
  | cons f rest ih => cases f <;> first | exact ih | exact .inr ⟨rfl, rfl⟩

/-- The program has left a statement after which `rest` was to run: it has ended, or has returned to its caller, or is
at `rest`, the block as `post` says. -/
def HostSystem.Left (y : HostSystem) (rest : List HostFrame) (post : State → Prop) : Prop :=
  y.ctx.result.isSome = true ∨
    y.ctx.result = none ∧ (afterReturn rest = some y.ctx.stack ∨ y.ctx.stack = rest ∧ post y.block)

/-- Whenever a run comes to a statement with the block as `pre` says, it leaves it, and the block is as `post` says if
the next statement follows. -/
def Leaves (systems : Nat → HostSystem) (p : HostProg) (pre post : State → Prop) : Prop :=
  ∀ n rest, (systems n).ctx.result = none → (systems n).ctx.stack = .run p :: rest → pre (systems n).block →
    ∃ m, n ≤ m ∧ (systems m).Left rest post

/-- The same of a FOR in progress, at any value of its counter. -/
def LeavesLoop (systems : Nat → HostSystem) (step : Nat) (body : HostProg) (inv : State → Prop) : Prop :=
  ∀ n i cur stop rest, (systems n).ctx.result = none → (systems n).ctx.stack = .loop i cur stop step body :: rest →
    inv (systems n).block → ∃ m, n ≤ m ∧ (systems m).Left rest inv

/-- A condition on I2CM, together with its phase being one of its state's (10_state.md R37). -/
def Fitting (P : I2cState → Prop) (s : State) : Prop := phaseFits s.i2c.st s.i2c.ph = true ∧ P s.i2c

/-- Such a condition is kept if a tick of I2CM in a fitting phase keeps it. -/
theorem keptByTicks_fitting {P : I2cState → Prop}
    (h : ∀ i env, phaseFits i.st i.ph = true → P i → P (i.tick env).i2c) : KeptByTicks (Fitting P) :=
  keptByTicks_i2c (P := fun i => phaseFits i.st i.ph = true ∧ P i) fun i env hi =>
    ⟨i.tick_phaseFits env hi.1, h i env hi.1 hi.2⟩

/-- Fairness from an index on. -/
theorem FairTo.shift {enabled : State → Bool} {isTick : Turn → Bool} {turns : Nat → Turn} {states : Nat → State}
    (hf : FairTo enabled isTick turns states) (d : Nat) :
    FairTo enabled isTick (fun n => turns (d + n)) (fun n => states (d + n)) := by
  intro N h
  obtain ⟨m, hm, ht⟩ := hf (d + N) fun n hn => by
    have e : enabled (states (d + (n - d))) = true := h (n - d) (by omega)
    rwa [show d + (n - d) = n by omega] at e
  exact ⟨m - d, by omega, by dsimp only; rwa [show d + (m - d) = m by omega]⟩

/-- One index of a stretch in which only the engines move, with which engine ticks. -/
theorem HostSystem.IsRun.tick_eq {turns : Nat → Turn} {systems : Nat → HostSystem} (h : HostSystem.IsRun turns systems)
    (n : Nat) :
    (∀ env, turns n = .i2cTick env → (systems (n + 1)).block.i2c = ((systems n).block.i2c.tick env).i2c) ∧
    ∀ a c, turns n = .flTick a c → (systems (n + 1)).block.fl =
      ((systems n).block.fl.tick (systems n).block.params a c (systems n).block.array).fl :=
  ⟨(h.advances n).i2cTick, (h.advances n).flTick⟩

namespace Undisturbed

variable {turns : Nat → Turn} {systems : Nat → HostSystem} (E : Undisturbed turns systems)
include E

/-- While only the engines move, each comes to have no tick, and both do (00_scope.md R12). -/
theorem engines_come_to_rest (n : Nat) (h : ∀ k, EnginesOnly (systems (n + k)).block (systems (n + k + 1)).block) :
    ∃ k, (systems (n + k)).block.i2c.tickEnabled = false ∧ (systems (n + k)).block.fl.bsy = false := by
  have later : ∀ {P : State → Prop}, KeptByTicks P → ∀ k d, P (systems (n + k)).block → P (systems (n + (k + d))).block := by
    intro P kept k d hP
    induction d with
    | zero => exact hP
    | succ d ih => exact kept _ _ (h _) ih
  obtain ⟨a, -, ha⟩ := (E.execution.fair.1.shift n).leaves (fun s => s.i2c.ticksLeft)
    (by
      intro k h1 _
      rcases (h k).i2c with e | ⟨env, e⟩ <;> simp only [← Nat.add_assoc, e]
      · exact Nat.le_refl _
      · exact Nat.le_of_lt (I2cState.ticksLeft_tick _ env (E.fits_at _) h1))
    (by
      intro k h1 _ ht
      cases hu : turns (n + k) <;> simp only [hu, Turn.isI2cTick, Bool.false_eq_true] at ht
      rename_i env
      simp only [← Nat.add_assoc, (E.execution.run.tick_eq _).1 env hu]
      exact I2cState.ticksLeft_tick _ env (E.fits_at _) h1) 0
  obtain ⟨b, hb, hfl⟩ := (E.execution.fair.2.shift n).leaves (fun s => s.fl.ticksLeft s.params)
    (by
      intro k h1 _
      rcases (h k).fl with e | ⟨x, c, m, e⟩ <;> simp only [← Nat.add_assoc, e, (h k).params]
      · exact Nat.le_refl _
      · exact Nat.le_of_lt (FlashState.ticksLeft_tick _ x c _ m h1))
    (by
      intro k h1 _ ht
      cases hu : turns (n + k) <;> simp only [hu, Turn.isFlTick, Bool.false_eq_true] at ht
      rename_i x c
      simp only [← Nat.add_assoc, (E.execution.run.tick_eq _).2 x c hu, (h k).params]
      exact FlashState.ticksLeft_tick _ x c _ _ h1) a
  refine ⟨b, ?_, hfl⟩
  have := later keptByTicks_i2c_off a (b - a) ha
  rwa [show a + (b - a) = b by omega] at this

/-- A WAIT is left if, with the engines at rest, a read of its register passes the error test or the success test
(42_driver_sequences.md R262). -/
theorem leaves_wait {P Q : State → Prop} (kept : KeptByTicks P) (r : Reg) (mask val errmask : Nat) (x : Option String)
    (ends : ∀ s env, P s → s.i2c.tickEnabled = false → s.fl.bsy = false →
      (readReg r env s).toNat &&& errmask ≠ 0 ∨ (readReg r env s).toNat &&& mask = val)
    (passed : ∀ s t env, P s → EnginesOnly s t → (readReg r env s).toNat &&& errmask = 0 →
      (readReg r env s).toNat &&& mask = val → Q t) :
    Leaves systems (.wait r (.lit mask) (.lit val) (.lit errmask) x) P Q := by
  intro n rest hr hs hP
  by_contra hno
  have stuck : ∀ m, n ≤ m → ¬ (systems m).Left rest Q := fun m hm hl => hno ⟨m, hm, hl⟩
  -- one index further, the program still at its WAIT
  have next : ∀ m, n ≤ m → (systems m).ctx = (systems n).ctx → P (systems m).block →
      (systems (m + 1)).ctx = (systems n).ctx ∧ EnginesOnly (systems m).block (systems (m + 1)).block ∧
      ∀ env, turns m = .host env → ¬ ((readReg r env (systems m).block).toNat &&& errmask ≠ 0 ∨
        (readReg r env (systems m).block).toNat &&& mask = val) := by
    intro m hm hc hPm
    have run := E.execution.run m
    by_cases hh : ∃ env, turns m = .host env
    · obtain ⟨env, hu⟩ := hh
      rw [hu] at run
      obtain ⟨hz, q⟩ := HostSystem.hostMove_wait run (by rw [hc, hr]) (by rw [hc, hs])
      have left := stuck (m + 1) (by omega)
      rcases (systems m).ctx.waitRead_cases rest r mask val errmask x (readReg r env (systems m).block).toNat with
        ⟨-, hd⟩ | ⟨he, hv, hst, hres⟩ | ⟨he, hv, hsame⟩
      · exact absurd (.inl (by rw [hz]; exact hd)) left
      · refine absurd (.inr ⟨?_, .inr ⟨?_, passed _ _ env hPm q he hv⟩⟩) left
        · rw [hz]; exact hres.trans (by rw [hc, hr])
        · rw [hz]; exact hst
      · refine ⟨by rw [hz]; exact hsame.trans hc, q, fun env' hu' => ?_⟩
        rw [hu] at hu'
        cases hu'
        simp [he, hv]
    · obtain ⟨hz, q⟩ := HostSystem.turn_engine run (fun env he => hh ⟨env, he⟩) (E.noReset m)
      exact ⟨hz.trans hc, q, fun env he => absurd ⟨env, he⟩ hh⟩
  have all : ∀ k, (systems (n + k)).ctx = (systems n).ctx ∧ P (systems (n + k)).block := by
    intro k
    induction k with
    | zero => exact ⟨rfl, hP⟩
    | succ k ih => exact ⟨(next _ (by omega) ih.1 ih.2).1, kept _ _ (next _ (by omega) ih.1 ih.2).2.1 ih.2⟩
  obtain ⟨k, hi, hf⟩ := E.engines_come_to_rest n fun k => (next _ (by omega) (all k).1 (all k).2).2.1
  obtain ⟨m, env, hm, hu, -, hc, hPm, him, hfm⟩ := E.host_moves
    (P := fun s => P s ∧ s.i2c.tickEnabled = false ∧ s.fl.bsy = false)
    (fun s t q h => ⟨kept s t q h.1, keptByTicks_i2c_off s t q h.2.1, keptByTicks_fl_idle s t q h.2.2⟩)
    (n + k) (by rw [(all k).1, hr]) ⟨(all k).2, hi, hf⟩
  exact (next m (by omega) (hc.trans (all k).1) hPm).2.2 env hu (ends _ env hPm him hfm)

/-- A WR is left, with the register written. -/
theorem leaves_wr {P Q : State → Prop} (kept : KeptByTicks P) (r : Reg) (e : Expr)
    (wrote : ∀ names s t, P s → phaseFits t.i2c.st t.i2c.ph = true →
      writeReg r (BitVec.ofNat 32 (evalExpr names e)) { s with hostQ := [], response := .written } = .next t → Q t) :
    Leaves systems (.wr r e) P Q := by
  intro n rest hr hs hP
  obtain ⟨m, env, hm, hu, -, hc, hPm⟩ := E.host_moves kept n hr hP
  have run := E.execution.run m
  rw [hu] at run
  obtain ⟨hz, hw⟩ := HostSystem.hostMove_wr run (by rw [hc, hr]) (by rw [hc, hs])
  refine ⟨m + 1, by omega, .inr ⟨by rw [hz, hc, hr], .inr ⟨by rw [hz], ?_⟩⟩⟩
  exact wrote _ _ _ hPm (E.fits_at _) hw

/-- Statements one after the other. -/
theorem leaves_seq {P Q R : State → Prop} (kept : KeptByTicks P) (p q : HostProg) (hp : Leaves systems p P Q)
    (hq : Leaves systems q Q R) : Leaves systems (.seq p q) P R := by
  intro n rest hr hs hP
  obtain ⟨m, hm, hc, hPm⟩ := E.local_moves kept n hr (by simp [HostCtx.nextAccess, hs]) hP
  have hc' : (systems m).ctx = { (systems n).ctx with stack := .run p :: .run q :: rest } := by
    rw [hc]; simp [HostCtx.localMove, hs]
  obtain ⟨m', hm', h⟩ := hp m (.run q :: rest) (by rw [hc', hr]) (by rw [hc']) hPm
  rcases h with h | ⟨h, h' | ⟨h', hQ⟩⟩
  · exact ⟨m', by omega, .inl h⟩
  · exact ⟨m', by omega, .inr ⟨h, .inl h'⟩⟩
  · obtain ⟨k, hk, hl⟩ := hq m' rest h h' hQ
    exact ⟨k, by omega, hl⟩

/-- A statement whose one move goes on to the next. -/
theorem leaves_local {P : State → Prop} (kept : KeptByTicks P) (p : HostProg)
    (ha : ∀ c : HostCtx, ∀ rest, c.stack = .run p :: rest → c.nextAccess = none ∧
      c.localMove.result = c.result ∧ c.localMove.stack = rest) : Leaves systems p P P := by
  intro n rest hr hs hP
  obtain ⟨h1, h2, h3⟩ := ha _ rest hs
  obtain ⟨m, hm, hc, hPm⟩ := E.local_moves kept n hr h1 hP
  exact ⟨m, hm, .inr ⟨by rw [hc, h2, hr], .inr ⟨by rw [hc, h3], hPm⟩⟩⟩

/-- The end of a list of statements. -/
theorem leaves_done {P : State → Prop} (kept : KeptByTicks P) : Leaves systems .done P P :=
  E.leaves_local kept _ fun c rest h => by simp [HostCtx.nextAccess, HostCtx.localMove, h]

/-- `let x = e`. -/
theorem leaves_bind {P : State → Prop} (kept : KeptByTicks P) (x : String) (e : Expr) :
    Leaves systems (.bind x e) P P :=
  E.leaves_local kept _ fun c rest h => by simp [HostCtx.nextAccess, HostCtx.localMove, h, HostCtx.set]

/-- `let x = WORD_AT(src, off, len)`. -/
theorem leaves_bindWordAt {P : State → Prop} (kept : KeptByTicks P) (x : String) (src off len : Expr) :
    Leaves systems (.bindWordAt x src off len) P P :=
  E.leaves_local kept _ fun c rest h => by simp [HostCtx.nextAccess, HostCtx.localMove, h, HostCtx.set]

/-- `RET Ok`: nothing of the same macro follows. -/
theorem leaves_retOk {P Q : State → Prop} (kept : KeptByTicks P) : Leaves systems .retOk P Q := by
  intro n rest hr hs hP
  obtain ⟨m, hm, hc, -⟩ := E.local_moves kept n hr (by simp [HostCtx.nextAccess, hs]) hP
  have hc' : (systems m).ctx = (systems n).ctx.returnOk rest := by rw [hc]; simp [HostCtx.localMove, hs]
  refine ⟨m, hm, ?_⟩
  rcases (systems n).ctx.returnOk_cases rest with h | ⟨h, h'⟩
  · exact .inl (by rw [hc']; exact h)
  · exact .inr ⟨by rw [hc', h, hr], .inl (by rw [hc', h'])⟩

/-- `RET Err(tag, x)` ends the program. -/
theorem leaves_retErr {P Q : State → Prop} (kept : KeptByTicks P) (tag : ErrTag) (e : Expr) :
    Leaves systems (.retErr tag e) P Q := by
  intro n rest hr hs hP
  obtain ⟨m, hm, hc, -⟩ := E.local_moves kept n hr (by simp [HostCtx.nextAccess, hs]) hP
  exact ⟨m, hm, .inl (by rw [hc]; simp [HostCtx.localMove, hs, HostCtx.returnErr, HostCtx.finish])⟩

/-- `IF c { body }`. -/
theorem leaves_ifThen {P Q : State → Prop} (kept : KeptByTicks P) (c : Cond) (body : HostProg)
    (hb : Leaves systems body P Q) (skip : ∀ names s, evalCond names c = false → P s → Q s) :
    Leaves systems (.ifThen c body) P Q := by
  intro n rest hr hs hP
  obtain ⟨m, hm, hc, hPm⟩ := E.local_moves kept n hr (by simp [HostCtx.nextAccess, hs]) hP
  cases hcond : evalCond (systems n).ctx.names c
  · have hc' : (systems m).ctx = { (systems n).ctx with stack := rest } := by
      rw [hc]; simp [HostCtx.localMove, hs, hcond]
    exact ⟨m, hm, .inr ⟨by rw [hc', hr], .inr ⟨by rw [hc'], skip _ _ hcond hPm⟩⟩⟩
  · have hc' : (systems m).ctx = { (systems n).ctx with stack := .run body :: rest } := by
      rw [hc]; simp [HostCtx.localMove, hs, hcond]
    obtain ⟨k, hk, hl⟩ := hb m rest (by rw [hc', hr]) (by rw [hc']) hPm
    exact ⟨k, by omega, hl⟩

/-- A FOR in progress with a step is left, by the passes its counter has to its bound. -/
theorem leaves_loop {P : State → Prop} (kept : KeptByTicks P) (step : Nat) (hstep : 0 < step) (body : HostProg)
    (hb : Leaves systems body P P) : LeavesLoop systems step body P := by
  intro n i cur stop rest hr hs hP
  induction hk : stop - cur using Nat.strongRecOn generalizing n cur with
  | _ k ih =>
    obtain ⟨m, hm, hc, hPm⟩ := E.local_moves kept n hr (by simp [HostCtx.nextAccess, hs]) hP
    by_cases hlt : cur < stop
    · have hst : (systems m).ctx.stack = .run body :: .loop i (cur + step) stop step body :: rest := by
        rw [hc]; simp [HostCtx.localMove, hs, hlt, HostCtx.set]
      have hres : (systems m).ctx.result = none := by rw [hc]; simp [HostCtx.localMove, hs, hlt, HostCtx.set, hr]
      obtain ⟨m', hm', h⟩ := hb m _ hres hst hPm
      rcases h with h | ⟨h, h' | ⟨h', hQ⟩⟩
      · exact ⟨m', by omega, .inl h⟩
      · exact ⟨m', by omega, .inr ⟨h, .inl h'⟩⟩
      · obtain ⟨j, hj, hl⟩ := ih _ (by omega) m' (cur + step) h h' hQ rfl
        exact ⟨j, by omega, hl⟩
    · exact ⟨m, hm, .inr ⟨by rw [hc]; simp [HostCtx.localMove, hs, hlt, hr],
        .inr ⟨by rw [hc]; simp [HostCtx.localMove, hs, hlt], hPm⟩⟩⟩

/-- A FOR whose step is positive is left. -/
theorem leaves_for {P : State → Prop} (kept : KeptByTicks P) (i : String) (a b : Expr) (step : Nat) (hstep : 0 < step)
    (body : HostProg) (hb : Leaves systems body P P) : Leaves systems (.forLoop i a b (.lit step) body) P P := by
  intro n rest hr hs hP
  obtain ⟨m, hm, hc, hPm⟩ := E.local_moves kept n hr (by simp [HostCtx.nextAccess, hs]) hP
  obtain ⟨k, hk, hl⟩ := E.leaves_loop kept step hstep body hb m i _ _ rest
    (by rw [hc]; simp [HostCtx.localMove, hs, hr]) (by rw [hc]; simp [HostCtx.localMove, hs]; exact ⟨rfl, rfl, rfl⟩) hPm
  exact ⟨k, by omega, hl⟩

/-- A FOR that makes a first pass is left with what its body leaves. -/
theorem leaves_for_once {P Q : State → Prop} (keptP : KeptByTicks P) (keptQ : KeptByTicks Q) (back : ∀ s, Q s → P s)
    (i : String) (a b step : Nat) (hab : a < b) (hstep : 0 < step) (body : HostProg) (hb : Leaves systems body P Q) :
    Leaves systems (.forLoop i (.lit a) (.lit b) (.lit step) body) P Q := by
  intro n rest hr hs hP
  obtain ⟨m, hm, hc, hPm⟩ := E.local_moves keptP n hr (by simp [HostCtx.nextAccess, hs]) hP
  have hc' : (systems m).ctx = { (systems n).ctx with stack := .loop i a b step body :: rest } := by
    rw [hc]; simp [HostCtx.localMove, hs, evalExpr]
  obtain ⟨m', hm', hd, hPd⟩ := E.local_moves keptP m (by rw [hc', hr]) (by simp [HostCtx.nextAccess, hc']) hPm
  have hst : (systems m').ctx.stack = .run body :: .loop i (a + step) b step body :: rest := by
    rw [hd]; simp [HostCtx.localMove, hc', hab, HostCtx.set]
  have hres : (systems m').ctx.result = none := by rw [hd]; simp [HostCtx.localMove, hc', hab, HostCtx.set, hr]
  obtain ⟨k, hk, h⟩ := hb m' _ hres hst hPd
  rcases h with h | ⟨h, h' | ⟨h', hQ⟩⟩
  · exact ⟨k, by omega, .inl h⟩
  · exact ⟨k, by omega, .inr ⟨h, .inl h'⟩⟩
  · obtain ⟨j, hj, hl⟩ := E.leaves_loop keptQ step hstep body (fun n rest hr hs hq => hb n rest hr hs (back _ hq))
      k i _ _ rest h h' hQ
    exact ⟨j, by omega, hl⟩

/-- `CALL M(args)`: the macro's end is the end of the statement. -/
theorem leaves_call {P Q : State → Prop} (kept : KeptByTicks P) (args : List (String × Expr)) (body : HostProg)
    (hb : Leaves systems body P Q) : Leaves systems (.call args body) P fun _ => True := by
  intro n rest hr hs hP
  obtain ⟨m, hm, hc, hPm⟩ := E.local_moves kept n hr (by simp [HostCtx.nextAccess, hs]) hP
  have hst : (systems m).ctx.stack = .run body :: .back (systems n).ctx.names :: rest := by
    rw [hc]; simp [HostCtx.localMove, hs]
  obtain ⟨k, hk, h⟩ := hb m _ (by rw [hc]; simp [HostCtx.localMove, hs, hr]) hst hPm
  rcases h with h | ⟨h, h' | ⟨h', -⟩⟩
  · exact ⟨k, by omega, .inl h⟩
  · exact ⟨k, by omega, .inr ⟨h, .inr ⟨by simpa [afterReturn] using h'.symm, trivial⟩⟩⟩
  · obtain ⟨j, hj, hd, -⟩ := E.local_moves keptByTicks_true k h (by simp [HostCtx.nextAccess, h']) trivial
    exact ⟨j, by omega, .inr ⟨by rw [hd]; simp [HostCtx.localMove, h', h],
      .inr ⟨by rw [hd]; simp [HostCtx.localMove, h'], trivial⟩⟩⟩

/-- A program that is left has ended. -/
theorem ends {P Q : State → Prop} (p : HostProg) (hp : Leaves systems p P Q) (n : Nat)
    (hr : (systems n).ctx.result = none) (hs : (systems n).ctx.stack = [.run p]) (hP : P (systems n).block) :
    ∃ m, n ≤ m ∧ (systems m).ctx.result.isSome = true := by
  obtain ⟨m, hm, h | ⟨h, h' | ⟨h', -⟩⟩⟩ := hp n [] hr hs hP
  · exact ⟨m, hm, h⟩
  · cases h'
  · obtain ⟨k, hk, hd, -⟩ := E.local_moves keptByTicks_true m h (by simp [HostCtx.nextAccess, h']) trivial
    exact ⟨k, by omega, by rw [hd]; simp [HostCtx.localMove, h', HostCtx.finish]⟩

/-! ### The flash macros -/

/-- Any WR is left. -/
theorem leaves_wr_any (r : Reg) (e : Expr) : Leaves systems (.wr r e) (fun _ => True) fun _ => True :=
  E.leaves_wr keptByTicks_true r e fun _ _ _ _ _ _ => trivial

/-- A list of statements each of which is left is left. -/
theorem leaves_block {P : State → Prop} (kept : KeptByTicks P) (ps : List HostProg)
    (h : ∀ p ∈ ps, Leaves systems p P P) : Leaves systems (.block ps) P P := by
  induction ps with
  | nil => exact E.leaves_done kept
  | cons p ps ih =>
    exact E.leaves_seq kept _ _ (h p (by simp)) (ih fun q hq => h q (by simp [hq]))

/-- The busy-wait of a flash macro is left, since FPROG comes to rest (41_flash_programmer.md R229). -/
theorem leaves_wait_bsy (x : Option String) :
    Leaves systems (.wait .flStat (.lit flBsy) (.lit 0) (.lit 0) x) (fun _ => True) fun _ => True := by
  refine E.leaves_wait keptByTicks_true _ _ _ _ _ (fun s env _ _ hb => .inr ?_) fun _ _ _ _ _ _ _ => trivial
  have bit : s.fl.statWord.getLsbD 0 = false := by
    rw [FlashState.statWord, BitVec.getLsbD_append, hb]; rfl
  show s.fl.statWord.toNat &&& 1 = 0
  rw [Nat.and_one_is_mod, Nat.mod_two_eq_zero_iff_testBit_zero]
  exact bit

/-- Unlock, one command, its busy-wait, lock (42_driver_sequences.md R270, R272). -/
theorem leaves_flashOperation (p : Params) (setup : List HostProg) (cmd : Nat)
    (h : ∀ q ∈ setup, Leaves systems q (fun _ => True) fun _ => True) :
    Leaves systems (flashOperation p setup cmd) (fun _ => True) fun _ => True := by
  refine E.leaves_block keptByTicks_true _ fun q hq => ?_
  simp only [List.mem_cons, List.not_mem_nil, or_false] at hq
  rcases hq with rfl | rfl | rfl | rfl | rfl | rfl | rfl | rfl
  case _ => exact E.leaves_wr_any _ _
  case _ => exact E.leaves_wr_any _ _
  case _ => exact E.leaves_wr_any _ _
  case _ => exact E.leaves_block keptByTicks_true _ h
  case _ => exact E.leaves_wr_any _ _
  case _ => exact E.leaves_wait_bsy _
  case _ => exact E.leaves_wr_any _ _
  case _ =>
    exact E.leaves_ifThen keptByTicks_true _ _ (E.leaves_retErr keptByTicks_true _ _) fun _ _ _ _ => trivial

/-- ERASE_PAGES is left (42_driver_sequences.md R276). -/
theorem leaves_erasePages (p : Params) (hp : 0 < p.pageSize) :
    Leaves systems (macroErasePages p) (fun _ => True) fun _ => True := by
  refine E.leaves_block keptByTicks_true _ fun q hq => ?_
  simp only [List.mem_cons, List.not_mem_nil, or_false] at hq
  rcases hq with rfl | rfl | rfl
  · exact E.leaves_ifThen keptByTicks_true _ _ (E.leaves_retErr keptByTicks_true _ _) fun _ _ _ _ => trivial
  · refine E.leaves_for keptByTicks_true _ _ _ _ hp _ (E.leaves_flashOperation _ _ _ fun q hq => ?_)
    simp only [List.mem_cons, List.not_mem_nil, or_false] at hq
    subst hq
    exact E.leaves_wr_any _ _
  · exact E.leaves_retOk keptByTicks_true

/-- PROGRAM_WORDS is left (42_driver_sequences.md R276). -/
theorem leaves_programWords (p : Params) : Leaves systems (macroProgramWords p) (fun _ => True) fun _ => True := by
  refine E.leaves_block keptByTicks_true _ fun q hq => ?_
  simp only [List.mem_cons, List.not_mem_nil, or_false] at hq
  rcases hq with rfl | rfl
  · refine E.leaves_for keptByTicks_true _ _ _ 4 (by omega) _ (E.leaves_block keptByTicks_true _ fun q hq => ?_)
    simp only [List.mem_cons, List.not_mem_nil, or_false] at hq
    rcases hq with rfl | rfl
    · exact E.leaves_bindWordAt keptByTicks_true _ _ _ _
    · refine E.leaves_flashOperation _ _ _ fun q hq => ?_
      simp only [List.mem_cons, List.not_mem_nil, or_false] at hq
      rcases hq with rfl | rfl <;> exact E.leaves_wr_any _ _
  · exact E.leaves_retOk keptByTicks_true

/-- FLASH_UPDATE is left (42_driver_sequences.md R276). -/
theorem leaves_flashUpdate (p : Params) (hp : 0 < p.pageSize) :
    Leaves systems (macroFlashUpdate p) (fun _ => True) fun _ => True := by
  refine E.leaves_block keptByTicks_true _ fun q hq => ?_
  simp only [List.mem_cons, List.not_mem_nil, or_false] at hq
  rcases hq with rfl | rfl | rfl | rfl | rfl
  · exact E.leaves_ifThen keptByTicks_true _ _ (E.leaves_retErr keptByTicks_true _ _) fun _ _ _ _ => trivial
  · exact E.leaves_bind keptByTicks_true _ _
  · exact E.leaves_call keptByTicks_true _ _ (E.leaves_erasePages p hp)
  · exact E.leaves_call keptByTicks_true _ _ (E.leaves_programWords p)
  · exact E.leaves_retOk keptByTicks_true

/-- I2C_INIT is left. -/
theorem leaves_i2cInit (p : Params) : Leaves systems (macroI2cInit p) (fun _ => True) fun _ => True := by
  refine E.leaves_block keptByTicks_true _ fun q hq => ?_
  simp only [List.mem_cons, List.not_mem_nil, or_false] at hq
  rcases hq with rfl | rfl | rfl | rfl | rfl
  case _ => exact E.leaves_wr_any _ _
  case _ => exact E.leaves_wr_any _ _
  case _ => exact E.leaves_wr_any _ _
  case _ => exact E.leaves_wr_any _ _
  case _ => exact E.leaves_retOk keptByTicks_true

/-! ### I2C_WRITE -/

/-- A WAIT on I2C_STAT is left if, at rest, an error is recorded or the success test passes. -/
theorem leaves_waitI2c {P : I2cState → Prop} {Q : State → Prop} (mask : Nat) (kept : KeptByTicks (Fitting P))
    (keptQ : KeptByTicks Q)
    (ends : ∀ i env, P i → i.tickEnabled = false → i.clean = true → (i.statWord env).toNat &&& mask = mask)
    (passed : ∀ s env, Fitting P s → s.i2c.clean = true → (s.i2c.statWord env).toNat &&& mask = mask → Q s) :
    Leaves systems (waitI2c mask i2cErrMask.toNat) (Fitting P) Q := by
  refine E.leaves_wait kept _ _ _ _ _ (fun s env h hi _ => ?_) fun s t env h q he hv => ?_
  · cases hc : s.i2c.clean
    · exact .inl fun he => by simp [(s.i2c.statWord_errors env).1 he] at hc
    · exact .inr (ends _ env h.2 hi hc)
  · exact keptQ _ _ q (passed s env h ((s.i2c.statWord_errors env).1 he) hv)

/-- A command written to I2C_CMD is left with what the command leads to. -/
theorem leaves_command {P Q : I2cState → Prop} (kept : KeptByTicks (Fitting P)) (e : Expr)
    (decodes : ∀ names, ∃ i, decode .i2cCmd (BitVec.ofNat 32 (evalExpr names e)) = .ok i ∧
      ∀ s t, exec i s = .next t → Q t.i2c) : Leaves systems (.wr .i2cCmd e) (Fitting P) (Fitting Q) := by
  refine E.leaves_wr kept _ _ fun names s t _ hf hw => ?_
  obtain ⟨i, hd, hq⟩ := decodes names
  exact ⟨hf, hq _ _ (writeReg_i2cCmd hd _ _ hw)⟩

/-- The transfer of I2C_WRITE is left, with an address of seven bits and some byte to send. -/
theorem leaves_transferBody (a : Nat) (b : List Byte) (ha : a ≤ 127) (hb : 0 < b.length) :
    Leaves systems (transferBody a b i2cErrMask.toNat) (Fitting fun _ => True) fun _ => True := by
  have any := keptByTicks_fitting (P := fun _ => True) fun _ _ _ _ => trivial
  have start := keptByTicks_fitting I2cState.startGoes_tick
  have address := keptByTicks_fitting I2cState.addressGoes_tick
  have data := keptByTicks_fitting I2cState.dataGoes_tick
  have decode_start : decode .i2cCmd (BitVec.ofNat 32 cmdStart) = .ok .i2cStart := by decide
  have ready := keptByTicks_fitting (P := fun i => i.st = .ready) fun i env _ h => by
    rw [i.tick_off env (by simp [I2cState.tickEnabled, h])]; exact h
  refine E.leaves_seq any _ _ (E.leaves_command any _ fun _ => ⟨.i2cStart, decode_start, exec_start_goes⟩) ?_
  refine E.leaves_seq start _ _ (E.leaves_waitI2c _ start any (fun i env h hi hc => ?_) fun _ _ h _ _ => ⟨h.1, trivial⟩) ?_
  · refine i.statWord_select env ?_
    rcases h with h | h | ⟨h, -⟩ | h
    · simp [h] at hc
    · simp [I2cState.tickEnabled, h] at hi
    · simp [I2cState.tickEnabled, h] at hi
    · exact h
  refine E.leaves_seq any _ _ (E.leaves_command (Q := I2cState.addressGoes) any _ fun names => ?_) ?_
  · obtain ⟨x, hx⟩ := decode_exprAddrw names a ha
    exact ⟨_, hx, exec_addrw_goes x⟩
  refine E.leaves_seq address _ _
    (E.leaves_waitI2c _ address any (fun i env h hi hc => ?_) fun _ _ h _ _ => ⟨h.1, trivial⟩) ?_
  · refine (i.statWord_addr env).2 ?_
    rcases h with h | h | ⟨h, h'⟩
    · simp [h] at hc
    · simp [I2cState.tickEnabled, h] at hi
    · simp [I2cState.addrAcked, h, h']
  refine E.leaves_seq any _ _ (E.leaves_for_once any ready (fun s h => ⟨h.1, trivial⟩) _ _ _ _ hb (by omega) _ ?_) ?_
  · refine E.leaves_seq any _ _ (E.leaves_command (Q := I2cState.dataGoes) any _ fun names => ?_) (E.leaves_seq data _ _
      (E.leaves_waitI2c _ data ready (fun i env h hi hc => ?_) fun s env h hc hv => ⟨h.1, ?_⟩) (E.leaves_done ready))
    · obtain ⟨x, hx⟩ := decode_exprWrite names b (.var "i")
      exact ⟨_, hx, exec_write_goes x⟩
    · refine (i.statWord_btf env).2 ?_
      rcases h with h | h | ⟨h, h'⟩
      · simp [h] at hc
      · simp [I2cState.tickEnabled, h] at hi
      · simp [I2cState.btf, h, h']
    · have := (s.i2c.statWord_btf env).1 hv
      simp only [I2cState.btf, Bool.and_eq_true, beq_iff_eq] at this
      exact this.1
  refine E.leaves_seq ready _ _ (E.leaves_waitI2c _ ready any (fun i env h _ _ => ?_) fun _ _ h _ _ => ⟨h.1, trivial⟩) ?_
  · exact (i.statWord_txe env).2 (by simp [I2cState.txe, h])
  exact E.leaves_seq any _ _ (E.leaves_wr any _ _ fun _ _ _ _ _ _ => trivial)
    (E.leaves_seq keptByTicks_true _ _ (E.leaves_retOk keptByTicks_true) (E.leaves_done keptByTicks_true))

/-- I2C_WRITE is left, whatever its arguments and whatever state it finds I2CM in (42_driver_sequences.md R275). -/
theorem leaves_i2cWrite (a : Nat) (b : List Byte) :
    Leaves systems (macroI2cWrite a b) (Fitting fun _ => True) fun _ => True := by
  have any := keptByTicks_fitting (P := fun _ => True) fun _ _ _ _ => trivial
  by_cases hv : a ≤ 127 ∧ 0 < b.length
  · exact E.leaves_seq any _ _ (E.leaves_ifThen any _ _ (E.leaves_retErr any _ _) fun _ _ _ h => h)
      (E.leaves_seq any _ _ (E.leaves_wr any _ _ fun _ _ t _ hf _ => ⟨hf, trivial⟩)
        (E.leaves_seq any _ _ (E.leaves_transferBody a b hv.1 hv.2) (E.leaves_done keptByTicks_true)))
  · refine E.leaves_seq (Q := fun _ => False) any _ _ (E.leaves_ifThen any _ _ (E.leaves_retErr any _ _) fun _ _ hc _ => ?_)
      fun _ _ _ _ h => h.elim
    simp [evalCond, evalExpr] at hc
    exact hv ⟨Nat.not_lt.1 (of_decide_eq_false hc.1), List.length_pos_iff.2 hc.2⟩

end Undisturbed

/-- The driver sequences always end (42_driver_sequences.md R275, R276). -/
theorem driver_ends {prog : HostProg} (hp : EndingDriver prog) : HostSystem.AlwaysEnds prog := by
  intro turns systems run noReset inv started going
  have E : Undisturbed turns systems := ⟨run, noReset, inv.phase⟩
  have leaves : Leaves systems prog (Fitting fun _ => True) fun _ => True := by
    have weaken : Leaves systems prog (fun _ => True) (fun _ => True) →
        Leaves systems prog (Fitting fun _ => True) fun _ => True := fun h n rest hr hs _ => h n rest hr hs trivial
    cases hp with
    | i2cInit p => exact weaken (E.leaves_i2cInit p)
    | i2cWrite a b => exact E.leaves_i2cWrite a b
    | erasePages p hp => exact weaken (E.leaves_erasePages p hp)
    | programWords p => exact weaken (E.leaves_programWords p)
    | flashUpdate p hp => exact weaken (E.leaves_flashUpdate p hp)
  obtain ⟨m, -, h⟩ := E.ends prog leaves 0 going started ⟨inv.phase, trivial⟩
  exact ⟨m, h⟩

/-- I2C_WRITE always ends (42_driver_sequences.md R275). -/
theorem i2cWrite_alwaysEnds (a : Nat) (b : List Byte) : HostSystem.AlwaysEnds (macroI2cWrite a b) :=
  driver_ends (.i2cWrite a b)

/-- ERASE_PAGES, PROGRAM_WORDS and FLASH_UPDATE always end, in a configuration that keeps 00_scope.md R9
(42_driver_sequences.md R276). -/
theorem flashMacros_alwaysEnd (p : Params) (hp : p.valid = true) :
    HostSystem.AlwaysEnds (macroErasePages p) ∧ HostSystem.AlwaysEnds (macroProgramWords p) ∧
      HostSystem.AlwaysEnds (macroFlashUpdate p) := by
  have h : 0 < p.pageSize := by
    simp only [Params.valid, Params.regionOfPages, Params.wrpInRegion, Params.pageOfWords, Params.baseOfPages,
      Bool.and_eq_true, beq_iff_eq, bne_iff_ne] at hp
    rcases Nat.eq_zero_or_pos p.pageSize with h | h
    · simp [h] at hp
    · exact h
  exact ⟨driver_ends (.erasePages p h), driver_ends (.programWords p), driver_ends (.flashUpdate p h)⟩

end Sys2Proof.Machine
end

