-- ==== Sys2Proof/Laws/PerInstr.lean ====
section
/-! SUPPORT. Statements for all instructions, one lemma per constructor. -/

namespace Sys2Proof.Laws.EncodingValid

/-- The word of an instruction is a valid encoding of its register, by the fields of the word (30_encoding.md R126,
R130, R136). -/
def Statement (i : Instr) : Prop := validWord i.reg i.word = true

theorem i2cNop : Statement .i2cNop := by unfold Statement; decide
theorem i2cStart : Statement .i2cStart := by unfold Statement; decide
theorem i2cAddrw (a : BitVec 7) : Statement (.i2cAddrw a) := by unfold Statement; revert a; decide
theorem i2cWrite (b : Byte) : Statement (.i2cWrite b) := by unfold Statement; revert b; decide
theorem i2cStop : Statement .i2cStop := by unfold Statement; decide
theorem flNop : Statement .flNop := by unfold Statement; decide
theorem flErasePage : Statement .flErasePage := by unfold Statement; decide
theorem flProgramWord : Statement .flProgramWord := by unfold Statement; decide
theorem flLock : Statement .flLock := by unfold Statement; decide
theorem flKey (key : Word) : Statement (.flKey key) := rfl

end Sys2Proof.Laws.EncodingValid
end

