-- ==== Sys2Proof/Tests/Slice0.lean ====
section
/-! SUPPORT. The model's own tests: the refusals of WellFormed, decoding of words written out from 30_encoding.md,
and one-step vectors of 95_test_vectors.md (sections cited; the parameters are those of its section 0). -/

namespace Sys2Proof.Tests

open Sys2Proof.Machine

/-! ### Helpers -/

/-- The test configuration (95_test_vectors.md section 0). -/
def testParams : Params where
  blkBase := 0x40000000
  flashBase := 0x10000
  regionSize := 0x4000
  pageSize := 0x400
  key1 := 0x0BADC0DE#32
  key2 := 0x5EED1234#32
  wrp := [14]
  flashOpTimeout := 4
  ccrInit := 0x028#12
  triseInit := 0x0C#6
  toInit := 0x0100#16

/-- A free bus, and a bus whose SDA another device pulls low (an acknowledge), or whose SCL (a stretch). -/
def free : BusLines := ⟨true, true⟩
def sdaLow : BusLines := ⟨true, false⟩
def sclLow : BusLines := ⟨false, true⟩

/-- The block after reset in the test configuration, the whole array erased. -/
def powered : State := { State.reset with params := testParams, array := [] }

/-- I2CM enabled, in a state and phase. -/
def i2cAt (st : I2cSt) (ph : I2cPhase) : I2cState :=
  { I2cState.reset with en := true, st := st, ph := ph, budget := 3#16 }

/-- The block with I2CM enabled, in a state and phase. -/
def bus (st : I2cSt) (ph : I2cPhase) : State := { powered with i2c := i2cAt st ph }

/-- FPROG unlocked and idle at an address. -/
def unlocked (a : Word) : FlashState := { FlashState.reset with locked := false, addr := a }

/-- The block with FPROG as given. -/
def flash (f : FlashState) : State := { powered with fl := f }

/-- The state after an outcome, if there is one. -/
def after (o : Host.Outcome State Fault Refusal) : Option State :=
  match o with
  | .next t => some t
  | .fault _ => none
  | .refused _ => none

/-- What a host reads of I2C_STAT after a write of `v` to I2C_CMD, less the line bits. -/
def statAfterCommand (s : State) (v : Word) : Option Word :=
  (after (writeReg .i2cCmd v s)).map fun t => readReg .i2cStat free t &&& 0xFFFCFFFF#32

/-- What a host reads of FL_STAT after a write of `v` to a register. -/
def flStatAfter (s : State) (r : Reg) (v : Word) : Option Word :=
  (after (writeReg r v s)).map fun t => readReg .flStat free t

/-- The block with one host access to make, the host next. -/
def access (s : State) (target : HostTarget) (size : Size) (w : Option Word) : State :=
  { s with hostQ := [⟨target, size, w⟩], sched := [.host free] }

/-! ### Well-formedness: each check refuses an ill-formed term (30_encoding.md R126, R130; 00_scope.md R8, R9) -/

theorem test_i2cHighZero : i2cHighZero 0x00010003#32 = false ∧ validI2cWord 0x00010003#32 = false := by decide
theorem test_i2cMiddleZero : i2cMiddleZero 0x00000013#32 = false ∧ validI2cWord 0x00000013#32 = false := by decide
theorem test_i2cOpDefined : i2cOpDefined 0x00000005#32 = false ∧ validI2cWord 0x0000000F#32 = false := by decide
theorem test_i2cNoArg :
    i2cNoArg 0x00000101#32 = false ∧ i2cNoArg 0x00008000#32 = false ∧ i2cNoArg 0x00000104#32 = false ∧
      validI2cWord 0x00000101#32 = false := by decide
theorem test_i2cAddrArg : i2cAddrArg 0x00008002#32 = false ∧ validI2cWord 0x00008002#32 = false := by decide
theorem test_flHighZero : flHighZero 0x00000011#32 = false ∧ validFlWord 0x00000011#32 = false := by decide
theorem test_flOpDefined : flOpDefined 0x00000004#32 = false ∧ validFlWord 0x00000005#32 = false := by decide
theorem test_validWord :
    validWord .i2cCmd 0x0000FF03#32 = true ∧ validWord .flCmd 0x00000003#32 = true ∧
      validWord .flKey 0xFFFFFFFF#32 = true ∧ validWord .flCmd 0x00003C02#32 = false := by decide
theorem test_testParams_valid : testParams.valid = true := by decide
theorem test_pageOfWords : { testParams with pageSize := 0x402 }.pageOfWords = false := by decide
theorem test_regionOfPages :
    { testParams with regionSize := 0x4200 }.regionOfPages = false ∧
      { testParams with regionSize := 0 }.regionOfPages = false := by decide
theorem test_baseOfPages : { testParams with flashBase := 0x10200 }.baseOfPages = false := by decide
theorem test_regionInSpace : { testParams with flashBase := 0xFFFFC400 }.regionInSpace = false := by decide
theorem test_wrpInRegion : { testParams with wrp := [16] }.wrpInRegion = false := by decide
theorem test_windowAligned : { testParams with blkBase := 0x40000002 }.windowAligned = false := by decide
theorem test_windowInSpace : { testParams with blkBase := 0xFFFFFFC4 }.windowInSpace = false := by decide
theorem test_windowApart : { testParams with blkBase := 0x13FFC }.windowApart = false := by decide
theorem test_keysDiffer : { testParams with key2 := 0x0BADC0DE#32 }.keysDiffer = false := by decide
theorem test_timeoutPositive : { testParams with flashOpTimeout := 0 }.timeoutPositive = false := by decide

/-! ### Decoding: every instruction's word, written from 30_encoding.md R123 to R130 -/

theorem test_decode_i2cNop : decode .i2cCmd 0b00000000000000000000000000000000#32 = .ok .i2cNop := by decide
theorem test_decode_i2cStart : decode .i2cCmd 0b00000000000000000000000000000001#32 = .ok .i2cStart := by decide
theorem test_decode_i2cAddrw :
    decode .i2cCmd 0b00000000000000000011110000000010#32 = .ok (.i2cAddrw 0x3C#7) ∧
      decode .i2cCmd 0x00000002#32 = .ok (.i2cAddrw 0#7) ∧ decode .i2cCmd 0x00007F02#32 = .ok (.i2cAddrw 127#7) := by
  decide
theorem test_decode_i2cWrite :
    decode .i2cCmd 0b00000000000000001000000000000011#32 = .ok (.i2cWrite 0x80#8) ∧
      decode .i2cCmd 0x00004003#32 = .ok (.i2cWrite 0x40#8) := by decide
theorem test_decode_i2cStop : decode .i2cCmd 0b00000000000000000000000000000100#32 = .ok .i2cStop := by decide
theorem test_decode_flNop : decode .flCmd 0b00000000000000000000000000000000#32 = .ok .flNop := by decide
theorem test_decode_flErasePage : decode .flCmd 0b00000000000000000000000000000001#32 = .ok .flErasePage := by decide
theorem test_decode_flProgramWord :
    decode .flCmd 0b00000000000000000000000000000010#32 = .ok .flProgramWord := by decide
theorem test_decode_flLock : decode .flCmd 0b00000000000000000000000000000011#32 = .ok .flLock := by decide
theorem test_decode_flKey :
    decode .flKey 0b01011110111011010001001000110100#32 = .ok (.flKey 0x5EED1234#32) := by decide

/-- Reserved values are refused by name (30_encoding.md R126, R132). -/
theorem test_decode_reserved_i2c :
    decode .i2cCmd 0x00000101#32 = .error (.i2cCmd 0x00000101#32) ∧
    decode .i2cCmd 0x00000013#32 = .error (.i2cCmd 0x00000013#32) ∧
    decode .i2cCmd 0x00010003#32 = .error (.i2cCmd 0x00010003#32) ∧
    decode .i2cCmd 0x0000000F#32 = .error (.i2cCmd 0x0000000F#32) ∧
    decode .i2cCmd 0x00008002#32 = .error (.i2cCmd 0x00008002#32) := by decide
theorem test_decode_reserved_fl :
    decode .flCmd 0x00000004#32 = .error (.flCmd 0x00000004#32) ∧
    decode .flCmd 0x00000011#32 = .error (.flCmd 0x00000011#32) := by decide

/-- The host's numbering: a bare word, and a word with its register's offset above it (log 12). -/
theorem test_decodeTableWord :
    decodeTableWord 32 0x00003C02 = some (.i2cAddrw 0x3C#7) ∧
    decodeTableWord 32 0x5EED1234 = some (.flKey 0x5EED1234#32) ∧
    decodeTableWord 40 0x2400000001 = some .flErasePage ∧ decodeTableWord 40 0x0C00000001 = some .i2cStart ∧
    decodeTableWord 40 0x2400000004 = none := by decide

/-! ### The I2CM commands (95_test_vectors.md 2.3) -/

theorem test_i2cNop : statAfterCommand (bus .ready .noPhase) 0x00000000#32 = some 0x0500005E#32 := by decide
theorem test_i2cStart_idle : statAfterCommand (bus .idle .noPhase) 0x00000001#32 = some 0x02000004#32 := by decide
theorem test_i2cStart_stopping : statAfterCommand (bus .stopping .p1) 0x00000001#32 = some 0x07000086#32 := by decide
theorem test_i2cAddrw :
    (after (exec (.i2cAddrw 0x3C#7) (bus .started .noPhase))).map (fun t => (t.i2c.txbyte, t.i2c.shreg, t.i2c.bitcnt, t.i2c.ph)) =
      some (0x78#8, 0x78#8, 8, .b0) := by decide
theorem test_i2cAddrw_idle : statAfterCommand (bus .idle .noPhase) 0x00003C02#32 = some 0x01003400#32 := by decide
theorem test_i2cWrite : statAfterCommand (bus .ready .noPhase) 0x0000AF03#32 = some 0x06000046#32 := by decide
theorem test_i2cWrite_started : statAfterCommand (bus .started .noPhase) 0x00008003#32 = some 0x03003407#32 := by decide
theorem test_i2cStop_ready : statAfterCommand (bus .ready .noPhase) 0x00000004#32 = some 0x07000006#32 := by decide
theorem test_i2cStop_idle : statAfterCommand (bus .idle .noPhase) 0x00000004#32 = some 0x01003400#32 := by decide
theorem test_i2c_off :
    statAfterCommand powered 0x00000001#32 = some 0x00002400#32 ∧
      statAfterCommand powered 0x00000005#32 = some 0x00001400#32 := by decide

/-! ### The FPROG commands (95_test_vectors.md 3.2, 3.3) -/

theorem test_flKey_first : flStatAfter powered .flKey 0x0BADC0DE#32 = some 0x00001002#32 := by decide
theorem test_flKey_wrong : flStatAfter powered .flKey 0x5EED1234#32 = some 0x00000442#32 := by decide
theorem test_flNop :
    flStatAfter (flash { unlocked 0#32 with opstate := .erase }) .flCmd 0#32 = some 0x00010001#32 := by decide
theorem test_flErasePage : flStatAfter (flash (unlocked 0x00013C00#32)) .flCmd 1#32 = some 0x00010001#32 := by decide
theorem test_flErasePage_align :
    flStatAfter (flash (unlocked 0x00010004#32)) .flCmd 1#32 = some 0x00000640#32 := by decide
theorem test_flProgramWord : flStatAfter (flash (unlocked 0x00013FFC#32)) .flCmd 2#32 = some 0x00020001#32 := by decide
theorem test_flProgramWord_wrp :
    flStatAfter (flash (unlocked 0x00013BFC#32)) .flCmd 2#32 = some 0x00000708#32 := by decide
theorem test_flLock :
    flStatAfter (flash { FlashState.reset with keyseq := true }) .flCmd 3#32 = some 0x00000002#32 := by decide
theorem test_flLock_busy :
    flStatAfter (flash { unlocked 0#32 with opstate := .erase }) .flCmd 3#32 = some 0x00010241#32 := by decide
theorem test_fl_order :
    flStatAfter (flash { FlashState.reset with addr := 3#32 }) .flCmd 1#32 = some 0x00000342#32 ∧
    flStatAfter (flash (unlocked 0x00014001#32)) .flCmd 1#32 = some 0x00000540#32 ∧
    flStatAfter (flash (unlocked 0x0000FFFC#32)) .flCmd 2#32 = some 0x00000540#32 ∧
    flStatAfter powered .flCmd 5#32 = some 0x00000142#32 := by decide

/-! ### Status words and W1C (95_test_vectors.md 2.1, 2.7, 3.5) -/

theorem test_i2cStat :
    (I2cState.reset.statWord sclLow, { i2cAt .started .noPhase with sclDrv := true, sdaDrv := true }.statWord free,
      { i2cAt .ready .noPhase with sent := true, sclDrv := true }.statWord free,
      { i2cAt .stopping .p0 with spend := true, sclDrv := true, sdaDrv := true }.statWord free) =
    (0x00020000#32, 0x03000007#32, 0x05020076#32, 0x07000086#32) := by decide
theorem test_i2cStat_w1c :
    (({ i2cAt .idle .noPhase with nackf := true, cmderr := true, errcode := some .nackAddr }.clearStatus 0x00000100#32).statWord
      ⟨false, false⟩) = 0x01004400#32 := by decide
theorem test_flStat_w1c :
    ({ unlocked 0#32 with eop := true, pgerr := true, cmderr := true, errcode := some .arrayTimeout }.clearStatus
      0x00000010#32).statWord = 0x00000B44#32 := by decide

/-! ### The engines (95_test_vectors.md 2.4, 2.6, 3.4) -/

theorem test_bit7 :
    (({ i2cAt .addressing .b0 with shreg := 0x78#8, bitcnt := 8, sclDrv := true }).tick free).i2c.sdaDrv = true :=
  by decide
theorem test_bit7_shift :
    (fun e : I2cEffect => (e.i2c.shreg, e.i2c.bitcnt, e.i2c.ph))
      (({ i2cAt .addressing .b3 with shreg := 0x78#8, bitcnt := 8 }).tick free) = (0xF0#8, 7, .b0) := by decide
theorem test_timeout_last_sample :
    (fun e : I2cEffect => (e.i2c.statWord ⟨false, false⟩, e.events)) (({ i2cAt .transmitting .a2 with wcnt := 3#16 }).tick sclLow) =
      (0x01008200#32, [.release]) := by decide
theorem test_notErased :
    (({ unlocked 0x10000#32 with opstate := .program, kind := .program, opAddr := 0x10000#32 }).tick testParams .noAnswer []
      [(0x10000, 0x00#8)]).fl.statWord = 0x00000810#32 := by decide
theorem test_program_ok :
    (({ unlocked 0x10000#32 with
        opstate := .program, kind := .program, ph := .await, opAddr := 0x10000#32, opData := 0x44332211#32 }).tick
      testParams .ok [] []).array = [(0x10000, 0x11#8), (0x10001, 0x22#8), (0x10002, 0x33#8), (0x10003, 0x44#8)] :=
  by decide

/-- The port's status in AWAIT, read data in VERIFY, and the data an erase drives (30_encoding.md R113,
41_flash_programmer.md R225). -/
theorem test_arrayPort :
    (fun s : State => (s.aRdata .silent, s.aWdata)) (flash { unlocked 0#32 with
      opstate := .erase, ph := .await, opAddr := 0x10000#32, opData := 0x44332211#32 }) =
      (.status .ok, some 0x44332211#32) ∧
    (flash { unlocked 0#32 with opstate := .verify, ph := .await, opAddr := 0x10000#32 }).aRdata .fail =
      .data 0xFFFFFFFF#32 := by decide

/-! ### Accesses, reset, the driver (95_test_vectors.md 4, 5, 6) -/

/-- The array of section 4. -/
def beef : Cells := [(0x10000, 0xDE#8), (0x10001, 0xAD#8), (0x10002, 0xBE#8), (0x10003, 0xEF#8)]

theorem test_region_reads :
    (arrayRead beef 0x10000 4, arrayRead beef 0x10002 2, arrayRead beef 0x10001 1) = (0xEFBEADDE, 0xEFBE, 0xAD) :=
  by decide
theorem test_wordAt :
    (fun m => (wordAt m 0 0 8, wordAt m 0 4 7, wordAt m 0 4 5, wordAt m 0 0 3))
      [(0, 1#8), (1, 2#8), (2, 3#8), (3, 4#8), (4, 5#8), (5, 6#8), (6, 7#8), (7, 8#8)] =
      (0x04030201, 0x00070605, 0x00000005, 0x00030201) := by decide
theorem test_reset_ready :
    (after (step { bus .ready .noPhase with sched := [.reset []] })).map (fun t => (t.trace, t.fl.statWord)) =
      some ([.release], 0x00000002#32) := by decide
theorem test_exprAddrw : evalExpr [] (exprAddrw (.lit 0x3C)) = 0x00003C02 := by decide

/-! ### Witnesses: for each statement with hypotheses, concrete values that meet them, each clause at a boundary -/

/-- A state with one turn scheduled. -/
def withTurn (s : State) (u : Turn) : State := { s with sched := [u] }

/-- A configuration with small pages, for the statements about whole pages. -/
def smallPages : Params := { testParams with regionSize := 64, pageSize := 8, wrp := [6] }

/-- An operation accepted at the start of page 0, in a phase, in the small configuration. -/
def operating (kind : FlKind) (opstate : FlOpstate) (ph : FlPhase) : State :=
  { powered with
    params := smallPages
    fl := { unlocked 0x10000#32 with
      opstate := opstate, kind := kind, ph := ph, opAddr := 0x10000#32, opData := 0x44332211#32 } }

theorem witness_DecodedWordIsItsEncoding :
    decode .i2cCmd 0x00007F02#32 = .ok (.i2cAddrw 127#7) ∧ decode .i2cCmd 0x0000FF03#32 = .ok (.i2cWrite 255#8) ∧
    decode .flCmd 0x00000003#32 = .ok .flLock ∧ decode .flKey 0xFFFFFFFF#32 = .ok (.flKey 0xFFFFFFFF#32) := by decide

theorem witness_I2cWordIsValidOrRejected : ∀ i, decode .i2cCmd 0x00000005#32 ≠ .ok i := by
  intro i h
  rw [show decode .i2cCmd 0x00000005#32 = .error (.i2cCmd 0x00000005#32) by decide] at h
  cases h

theorem witness_FlashWordIsValidOrRejected : 4 ≤ (0x00000004#32).toNat ∧ 4 ≤ (0xFFFFFFFF#32).toNat := by decide

/-- A host access is next and lands at a place. -/
abbrev Accessing (s : State) (target : HostTarget) (size : Size) (w : Option Word) (pl : Place) : Prop :=
  (access s target size w).sched = [.host free] ∧ (access s target size w).hostQ = [⟨target, size, w⟩] ∧
    placeOf (access s target size w).params target = pl

theorem witness_StepRunsDecodedInstruction :
    Accessing (bus .idle .noPhase) (.reg 0x0C) .four (some 0x00000001#32) (.window 0x0C) ∧
    decode .i2cCmd 0x00000001#32 = .ok .i2cStart ∧
    Accessing powered (.addr 0x40000020#32) .four (some 0x0BADC0DE#32) (.window 0x20) ∧
    decode .flKey 0x0BADC0DE#32 = .ok (.flKey 0x0BADC0DE#32) ∧
    Accessing powered (.addr 0x40000024#32) .four (some 3#32) (.window 0x24) ∧
    decode .flCmd 3#32 = .ok .flLock ∧
    (∀ off ∈ [0x00, 0x04, 0x08, 0x10, 0x28, 0x2C, 0x30],
      Accessing powered (.reg off) .four (some 0xFFFFFFFF#32) (.window off)) ∧
    (0x4000003F#32).toNat = testParams.blkBase + 0x3F := by decide

/-- The register map of 30_encoding.md R116, at the port: a write to FL_ADDR is read back there and not in FL_DATA. -/
theorem test_registerMap :
    (after (step (access powered (.addr 0x40000028#32) .four (some 0x00010400#32)))).map
      (fun t => (t.fl.addr, t.fl.data)) = some (0x00010400#32, 0#32) ∧
    (after (step (access powered (.addr 0x40000030#32) .four none))).map (fun t => t.response) =
      some (.value 0x00000002#32) := by decide

theorem witness_PlacedWordRunsItsInstruction :
    decodeTableWord 32 0x00008003 = some (.i2cWrite 0x80#8) ∧ decodeTableWord 40 0x2400000003 = some .flLock :=
  by decide

theorem witness_StartBeginsOrIsQueued :
    ((bus .idle .noPhase).i2c.en = true ∧ (bus .idle .noPhase).i2c.st = .idle) ∧
    (bus .stopping .p0).i2c.en = true ∧ (bus .stopping .p0).i2c.st = .stopping ∧
      (bus .stopping .p0).i2c.spend = false := by decide

theorem witness_AddrwLoadsTheAddressFrame :
    (bus .started .noPhase).i2c.en = true ∧ (bus .started .noPhase).i2c.st = .started := by decide

theorem witness_WriteLoadsTheByte :
    (bus .ready .noPhase).i2c.en = true ∧ (bus .ready .noPhase).i2c.st = .ready := by decide

theorem witness_StopBeginsTheStopCondition :
    ((bus .started .noPhase).i2c.en = true ∧ (bus .started .noPhase).i2c.st = .started) ∧
    (bus .ready .noPhase).i2c.en = true ∧ (bus .ready .noPhase).i2c.st = .ready := by decide

theorem witness_I2cCommandChecksInOrder :
    validI2cWord 0x00000005#32 = false ∧ validI2cWord 0x00000004#32 = true ∧
    decode .i2cCmd 0x00000004#32 = .ok .i2cStop ∧ powered.i2c.en = false ∧
    (bus .idle .noPhase).i2c.en = true ∧ i2cAccepts .i2cStop .idle false = false ∧
    (bus .ready .noPhase).i2c.en = true ∧ i2cAccepts .i2cStop .ready false = true := by decide

theorem witness_KeyWordsUnlockInSequence :
    powered.fl.locked = true ∧ powered.fl.keyseq = false ∧ powered.params.valid = true := by decide

theorem witness_ErasePageStartsOnACheckedPage :
    (fun s : State => s.fl.opstate = .idle ∧ s.fl.locked = false ∧ s.params.flashBase ≤ s.fl.addr.toNat ∧
      s.fl.addr.toNat < s.params.flashBase + s.params.regionSize ∧
      (s.fl.addr.toNat - s.params.flashBase) % s.params.pageSize = 0 ∧
      (s.fl.addr.toNat - s.params.flashBase) / s.params.pageSize ∉ s.params.wrp) (flash (unlocked 0x00013C00#32)) := by
  decide

theorem witness_ProgramWordStartsOnACheckedWord :
    (fun s : State => s.fl.opstate = .idle ∧ s.fl.locked = false ∧ s.params.flashBase ≤ s.fl.addr.toNat ∧
      s.fl.addr.toNat < s.params.flashBase + s.params.regionSize ∧ s.fl.addr.toNat % 4 = 0 ∧
      (s.fl.addr.toNat - s.params.flashBase) / s.params.pageSize ∉ s.params.wrp) (flash (unlocked 0x00013FFC#32)) := by
  decide

theorem witness_LockLocksWhenIdle :
    powered.fl.opstate = .idle ∧ (operating .erase .erase .issue).fl.opstate ≠ .idle := by decide

theorem witness_CheckedTargetsLieInTheRegion :
    testParams.valid = true ∧ testParams.flashBase ≤ 0x13C00 ∧ 0x13C00 < testParams.flashBase + testParams.regionSize ∧
      (0x13C00 - testParams.flashBase) % testParams.pageSize = 0 ∧
      0x13FFF < testParams.flashBase + testParams.regionSize ∧ 0x13FFF % 1 = 0 ∧ 0x13FFE % 2 = 0 ∧ 0x13FFC % 4 = 0 := by
  decide

theorem witness_BusyMeansUnlocked :
    (operating .erase .erase .issue).fl.locked = false ∧ (operating .erase .erase .issue).fl.bsy = true ∧
      (after (step (withTurn (operating .erase .erase .issue) (.flTick .ok [])))).isSome = true := by decide

theorem witness_CommandsChangeOnlyTheirEngine :
    (after (exec .i2cStart (bus .idle .noPhase))).isSome = true ∧ (after (exec .flLock powered)).isSome = true :=
  by decide

theorem witness_ErrorsDoNotBlock :
    let s := bus .idle .noPhase
    let s' := s.setI2c (s.i2c.raise .nackData)
    s ≠ s' ∧ s.withoutErrors = s'.withoutErrors ∧ (after (exec .i2cStart s)).isSome = true ∧
      (after (exec .i2cStart s')).isSome = true := by decide

theorem witness_StartConditionTakesTwoTicks :
    (fun s : State => s.sched = [.i2cTick free] ∧ s.i2c.st = .starting ∧ s.i2c.ph = .s0 ∧ s.i2c.sclDrv = false ∧
      s.i2c.sdaDrv = false) (withTurn (bus .starting .s0) (.i2cTick free)) ∧
    (fun s : State => s.sched = [.i2cTick sdaLow] ∧ s.i2c.st = .starting ∧ s.i2c.ph = .s1)
      (withTurn (bus .starting .s1) (.i2cTick sdaLow)) := by decide

theorem witness_DataBitPhases :
    (∀ ph ∈ [I2cPhase.b0, .b1, .b2], (fun s : State => s.sched = [.i2cTick free] ∧ s.i2c.st = .addressing ∧
      s.i2c.ph = ph ∧ s.i2c.sclDrv = false ∧ free.scl = true) (withTurn (bus .addressing ph) (.i2cTick free))) ∧
    (∀ n ∈ [0, 7], (fun s : State => s.sched = [.i2cTick free] ∧ s.i2c.st = .transmitting ∧ s.i2c.ph = .b3 ∧
      s.i2c.bitcnt = n + 1)
      (withTurn { powered with i2c := { i2cAt .transmitting .b3 with bitcnt := n + 1 } } (.i2cTick free))) := by decide

theorem witness_AcknowledgePhases :
    (∀ ph ∈ [I2cPhase.a0, .a1, .a2], (fun s : State => s.sched = [.i2cTick sdaLow] ∧ s.i2c.st = .addressing ∧
      s.i2c.ph = ph ∧ s.i2c.sclDrv = false ∧ s.i2c.sdaDrv = false ∧ sdaLow.scl = true)
      (withTurn (bus .addressing ph) (.i2cTick sdaLow))) ∧
    (∀ a ∈ [true, false], (fun s : State => s.sched = [.i2cTick free] ∧ s.i2c.st = .transmitting ∧ s.i2c.ph = .a3 ∧
      s.i2c.ack = a) (withTurn { powered with i2c := { i2cAt .transmitting .a3 with ack := a } } (.i2cTick free))) := by
  decide

theorem witness_StopConditionTakesFourTicks :
    ∀ p ∈ [false, true], (fun s : State => s.sched = [.i2cTick sclLow, .i2cTick sclLow, .i2cTick free, .i2cTick sclLow] ∧
      s.i2c.st = .stopping ∧ s.i2c.ph = .p0 ∧ free.scl = true ∧ s.i2c.spend = p)
      { powered with
        i2c := { i2cAt .stopping .p0 with spend := p }
        sched := [.i2cTick sclLow, .i2cTick sclLow, .i2cTick free, .i2cTick sclLow] } := by decide

/-- Each wait, one sample before its budget is spent (`wcnt = TO - 1`) and with it spent (`wcnt = TO`). -/
theorem witness_FailedWaitStaysOrTimesOut :
    ∀ x ∈ [(I2cSt.starting, I2cPhase.s0), (.addressing, .b2), (.transmitting, .a2), (.stopping, .p2)],
      (fun s : State => s.sched = [.i2cTick sclLow] ∧ phaseFits s.i2c.st s.i2c.ph = true ∧ s.i2c.ph.isWait = true ∧
        s.i2c.waitHolds sclLow = false ∧ s.i2c.wcnt.toNat < s.i2c.budget.toNat)
        (withTurn { powered with i2c := { i2cAt x.1 x.2 with wcnt := 2#16 } } (.i2cTick sclLow)) ∧
      (fun s : State => s.sched = [.i2cTick sclLow] ∧ phaseFits s.i2c.st s.i2c.ph = true ∧ s.i2c.ph.isWait = true ∧
        s.i2c.waitHolds sclLow = false ∧ s.i2c.budget.toNat ≤ s.i2c.wcnt.toNat)
        (withTurn { powered with i2c := { i2cAt x.1 x.2 with wcnt := 3#16 } } (.i2cTick sclLow)) := by decide

/-- `TO = 3`: three failing samples and then a passing one, and four. -/
theorem witness_WaitToleratesExactlyItsBudget :
    (fun (s : State) (bad : List BusLines) => phaseFits s.i2c.st s.i2c.ph = true ∧ s.i2c.ph.isWait = true ∧
      (∀ e ∈ bad, s.i2c.waitHolds e = false) ∧ s.i2c.wcnt = 0#16 ∧ s.sched = bad.map Turn.i2cTick ++ [.i2cTick free] ∧
      bad.length = s.i2c.budget.toNat ∧ s.i2c.waitHolds free = true)
      { bus .starting .s0 with sched := [.i2cTick sdaLow, .i2cTick sclLow, .i2cTick sdaLow, .i2cTick free] }
      [sdaLow, sclLow, sdaLow] ∧
    (fun (s : State) (bad : List BusLines) => phaseFits s.i2c.st s.i2c.ph = true ∧ s.i2c.ph.isWait = true ∧
      (∀ e ∈ bad, s.i2c.waitHolds e = false) ∧ s.i2c.wcnt = 0#16 ∧ s.sched = bad.map Turn.i2cTick ++ [] ∧
      bad.length = s.i2c.budget.toNat + 1)
      { bus .stopping .p2 with sched := [.i2cTick sclLow, .i2cTick sclLow, .i2cTick sclLow, .i2cTick sclLow] }
      [sclLow, sclLow, sclLow, sclLow] := by decide

/-- The lines of a frame's 36 ticks, the acknowledge sampled at the 35th. -/
def frameLines (ackSample : BusLines) : List BusLines := List.replicate 34 free ++ [ackSample, free]

theorem witness_FrameTakesThirtySixTicks :
    ∀ a ∈ [sdaLow, free], (frameLines a).length = 36 ∧ (∀ e ∈ frameLines a, e.scl = true) ∧
    (frameLines a)[34]? = some a ∧
      (fun s : State => s.i2c.st = .addressing ∧ s.i2c.ph = .b0 ∧ s.i2c.bitcnt = 8 ∧ s.i2c.shreg = 0x78#8 ∧
        s.i2c.txbyte = 0x78#8 ∧ s.i2c.wcnt = 0#16 ∧ s.sched = (frameLines a).map Turn.i2cTick ++ [])
        { powered with
          i2c := (i2cAt .started .noPhase).loadFrame 0x78#8 .addressing
          sched := (frameLines a).map Turn.i2cTick ++ [] } := by decide

/-- I2CM idle, starting (S0) and stopping (P3), as the invariant has them. -/
theorem idle_inv : (i2cAt .idle .noPhase).Inv := by constructor <;> decide
theorem starting_inv : (i2cAt .starting .s0).Inv := by constructor <;> decide
theorem stopping_inv : { i2cAt .stopping .p3 with sdaDrv := true }.Inv := by constructor <;> decide
theorem waiting_inv : { i2cAt .stopping .p2 with sdaDrv := true, wcnt := 3#16 }.Inv := by constructor <;> decide
theorem ready_inv : { i2cAt .ready .noPhase with sclDrv := true }.Inv := by constructor <;> decide

/-- SDA's driver moves in S0, in P3, in a timeout, and in a disable. -/
theorem witness_SdaMovesWhileSclIsReleasedOnlyAtStartAndStop :
    ((i2cAt .starting .s0).Inv ∧
      (after (step (withTurn (bus .starting .s0) (.i2cTick free)))).map (fun t => t.i2c.sdaDrv) = some true) ∧
    (({ i2cAt .stopping .p3 with sdaDrv := true }.Inv ∧
      (after (step (withTurn { powered with i2c := { i2cAt .stopping .p3 with sdaDrv := true } } (.i2cTick free)))).map
        (fun t => t.i2c.sdaDrv) = some false)) ∧
    ({ i2cAt .stopping .p2 with sdaDrv := true, wcnt := 3#16 }.Inv ∧
      (after (step (withTurn { powered with i2c := { i2cAt .stopping .p2 with sdaDrv := true, wcnt := 3#16 } }
        (.i2cTick sclLow)))).map (fun t => t.i2c.sdaDrv) = some false) ∧
    (after (step (access { powered with i2c := { i2cAt .stopping .p3 with sdaDrv := true } } (.reg 0) .four
      (some 0#32)))).map (fun t => t.i2c.sdaDrv) = some false :=
  ⟨⟨starting_inv, by decide⟩, ⟨stopping_inv, by decide⟩, ⟨waiting_inv, by decide⟩, by decide⟩

/-- I2CM started, and ready after a data byte, as the invariant has them. -/
theorem started_inv : { i2cAt .started .noPhase with sclDrv := true, sdaDrv := true }.Inv := by constructor <;> decide
theorem sent_inv : { i2cAt .ready .noPhase with sclDrv := true, sent := true }.Inv := by constructor <;> decide

/-- SB lost by an accepted ADDRW, BTF by an accepted WRITE, TXE and ADDR by a disable and by a reset; BSY set by an
accepted ERASE_PAGE of the last page and an accepted PROGRAM_WORD of the last word. -/
theorem witness_WaitedConditionsAreStable :
    ({ i2cAt .started .noPhase with sclDrv := true, sdaDrv := true }.Inv ∧ (i2cAt .started .noPhase).sb = true ∧
      (after (step (access (bus .started .noPhase) (.reg 0x0C) .four (some 0x00003C02#32)))).map (fun t => t.i2c.sb) =
        some false) ∧
    ({ i2cAt .ready .noPhase with sclDrv := true, sent := true }.Inv ∧
      { i2cAt .ready .noPhase with sent := true }.btf = true ∧
      (after (step (access { powered with i2c := { i2cAt .ready .noPhase with sclDrv := true, sent := true } } (.reg 0x0C)
        .four (some 0x0000AF03#32)))).map (fun t => t.i2c.btf) = some false) ∧
    ({ i2cAt .ready .noPhase with sclDrv := true }.Inv ∧
      ((i2cAt .ready .noPhase).txe = true ∧ (i2cAt .ready .noPhase).addrAcked = true) ∧
      (after (step (access { powered with i2c := { i2cAt .ready .noPhase with sclDrv := true } } (.reg 0) .four
        (some 0#32)))).map (fun t => (t.i2c.txe, t.i2c.addrAcked)) = some (false, false) ∧
      (after (step (withTurn { powered with i2c := { i2cAt .ready .noPhase with sclDrv := true } } (.reset [])))).map
        (fun t => (t.i2c.txe, t.i2c.addrAcked)) = some (false, false)) ∧
    (I2cState.reset.Inv ∧ (unlocked 0#32).bsy = false ∧
      (after (step (access (flash (unlocked 0x13C00#32)) (.reg 0x24) .four (some 1#32)))).map (fun t => t.fl.bsy) =
        some true ∧
      (after (step (access (flash (unlocked 0x13FFC#32)) (.reg 0x24) .four (some 2#32)))).map (fun t => t.fl.bsy) =
        some true) :=
  ⟨⟨started_inv, by decide, by decide⟩, ⟨sent_inv, by decide, by decide⟩, ⟨ready_inv, by decide, by decide, by decide⟩,
    by constructor <;> decide, by decide, by decide, by decide⟩

theorem witness_DisabledTicksChangeNothing :
    (∀ st ∈ [I2cSt.off, .idle, .started, .ready], (withTurn (bus st .noPhase) (.i2cTick free)).sched = [.i2cTick free] ∧
      (withTurn (bus st .noPhase) (.i2cTick free)).i2c.st = st) ∧
    (withTurn powered (.flTick .ok [])).sched = [.flTick .ok []] ∧ (withTurn powered (.flTick .ok [])).fl.opstate = .idle := by
  decide

theorem witness_EnableAndDisable :
    (0xFFFFFFFE#32).getLsbD 0 = powered.i2c.en ∧ ((1#32).getLsbD 0 = true ∧ powered.i2c.en = false) ∧
    (0xFFFFFFFE#32).getLsbD 0 = false ∧ (bus .ready .noPhase).i2c.en = true := by decide

theorem witness_IssueTestsAProgramTarget :
    (fun s : State => s.fl.ph = .issue ∧ s.fl.opstate = .program ∧ s.fl.kind = .program ∧
      arrayRead s.array s.fl.opAddr.toNat 4 ≠ 0xFFFFFFFF)
      (withTurn { operating .program .program .issue with array := [(0x10003, 0xFE#8)] } (.flTick .noAnswer [])) ∧
    (fun s : State => s.fl.ph = .issue ∧ s.fl.opstate = .program ∧ s.fl.kind = .program ∧
      arrayRead s.array s.fl.opAddr.toNat 4 = 0xFFFFFFFF)
      (withTurn (operating .program .program .issue) (.flTick .noAnswer [])) ∧
    (fun s : State => s.fl.ph = .issue ∧ s.fl.opstate = .erase ∧ s.fl.kind = .erase)
      (withTurn (operating .erase .erase .issue) (.flTick .noAnswer [])) := by decide

/-- An erase and a program in AWAIT; the last tick within the budget (`wcnt = 2`) and the one that spends it (3); a
target's last byte with the content drawn for it. -/
theorem witness_AwaitTickActsOnTheArraysAnswer :
    (∀ k ∈ [FlKind.erase, .program], ∀ a ∈ [ArrayAnswer.noAnswer, .ok, .silent, .fail],
      (fun s : State => s.sched = [.flTick a []] ∧ s.fl.ph = .await ∧ s.fl.kind = k ∧ s.fl.opstate = k.opstate)
        (withTurn (operating k k.opstate .await) (.flTick a []))) ∧
    (2 + 1 < smallPages.flashOpTimeout ∧ smallPages.flashOpTimeout ≤ 3 + 1) ∧
    (7 < smallPages.pageSize ∧ [0xFF#8, 0xFF#8, 0xFF#8, 0xFF#8, 0xFF#8, 0xFF#8, 0xFF#8, 0x7F#8][7]? = some 0x7F#8) := by
  decide

theorem witness_AwaitTickActsOnTheArraysAnswer_outside :
    outsideRange 0x10000 8 0xFFFF ∧ outsideRange 0x10000 8 0x10008 := by unfold outsideRange; omega

/-- An erased page, and one whose last byte is not erased. -/
theorem witness_VerifyComparesEveryByte :
    let s := withTurn (operating .erase .verify .await) (.flTick .ok [])
    s.sched = [.flTick .ok []] ∧ s.fl.opstate = .verify ∧ s.fl.kind = .erase ∧
    (∀ k, k < s.params.pageSize → readByte s.array (s.fl.opAddr.toNat + k) = intendedByte s.fl.kind s.fl.opData k) ∧
    ¬ (∀ k, k < s.params.pageSize → readByte [(0x10007, 0x7F#8)] (s.fl.opAddr.toNat + k) =
      intendedByte s.fl.kind s.fl.opData k) := by decide

theorem witness_SuccessfulOperationWritesItsTarget :
    ∀ k ∈ [FlKind.erase, .program], (fun s : State => s.fl.kind = k ∧ s.fl.opstate = k.opstate ∧ s.fl.ph = .issue ∧
      arrayRead s.array s.fl.opAddr.toNat 4 = 0xFFFFFFFF ∧
      s.sched = [.flTick .noAnswer [], .flTick .ok [], .flTick .fail []])
      { operating k k.opstate .issue with sched := [.flTick .noAnswer [], .flTick .ok [], .flTick .fail []] } :=
  by decide

theorem witness_OperationEndsWithinItsBudget :
    let answers := List.replicate 6 (ArrayAnswer.noAnswer, ([] : List Byte))
    (fun s : State => 1 ≤ s.params.flashOpTimeout ∧ s.fl.opstate ≠ .idle ∧ s.fl.ph = .issue ∧
      answers.length = s.params.flashOpTimeout + 2 ∧ s.sched = answers.map (fun x => Turn.flTick x.1 x.2) ++ [])
      { operating .erase .erase .issue with sched := List.replicate 6 (.flTick .noAnswer []) } := by decide

/-- The turns of a run in which FPROG, I2CM and the host move one after the other. -/
def roundTurns (n : Nat) : Turn :=
  if n % 3 = 0 then .flTick .ok [] else if n % 3 = 1 then .i2cTick free else .host free

/-- An erase just accepted and a start on its way. -/
def bothBusy : State := { operating .erase .erase .issue with i2c := i2cAt .starting .s0 }

/-- The host polls FL_STAT at every turn of its own. -/
def pollAccess (_ : Nat) : List HostAccess := [⟨.reg Reg.flStat.offset, .four, none⟩]

/-- The states of that run. -/
def roundStates : Nat → State
  | 0 => bothBusy
  | n + 1 => (after (step { roundStates n with sched := [roundTurns n], hostQ := pollAccess n })).getD powered

/-- Any sequence of states is weakly fair under those turns. -/
theorem roundTurns_fair (states : Nat → State) : WeaklyFair roundTurns states := by
  refine ⟨fun N _ => ⟨3 * N + 1, by omega, ?_⟩, fun N _ => ⟨3 * N, by omega, ?_⟩⟩ <;>
    simp [roundTurns, Turn.isI2cTick, Turn.isFlTick]

/-- A weakly fair run in which the host polls for ever and both engines' ticks are enabled at first. -/
theorem witness_OperationEndsWithinItsBudget_fair :
    IsRun roundTurns pollAccess roundStates ∧ WeaklyFair roundTurns roundStates ∧ (roundStates 0).i2c.Inv ∧
      (roundStates 0).fl.bsy = true ∧ (roundStates 0).i2c.tickEnabled = true := by
  refine ⟨fun n => ?_, roundTurns_fair _, starting_inv, rfl, rfl⟩
  rw [roundStates, roundTurns]
  split
  · rfl
  · split
    · rfl
    · simp [step, takeTurn, hostTurn, pollAccess, isHeld, placeOf, Reg.offset, Config.windowSize, performAccess,
        windowAccess, Reg.ofOffset, after]

/-- A host program whose WAIT never ends. -/
def polling : HostCtx := HostCtx.start (.wait .flStat (.lit 0) (.lit 1) (.lit 0) none) []

/-- The systems of a run of that program, from the same block. -/
def pollSystems : Nat → HostSystem
  | 0 => ⟨polling, bothBusy⟩
  | n + 1 =>
    match (pollSystems n).turn (roundTurns n) with
    | .next z => z
    | .fault _ => ⟨polling, powered⟩
    | .refused _ => ⟨polling, powered⟩

/-- Whatever the block, every turn of that run answers a next system in which the program still polls. -/
theorem polling_turn (n : Nat) (b : State) : ∃ c, HostSystem.turn (roundTurns n) ⟨polling, b⟩ = .next ⟨polling, c⟩ := by
  unfold roundTurns
  split
  · exact ⟨_, rfl⟩
  · split
    · exact ⟨_, rfl⟩
    · simp [HostSystem.turn, HostSystem.hostMove, polling, HostCtx.start, HostCtx.nextAccess, hostTurn, isHeld, placeOf,
        Reg.offset, Config.windowSize, performAccess, windowAccess, Reg.ofOffset, State.respond, HostCtx.answered,
        HostCtx.waitRead, evalExpr]

/-- A weakly fair run with a host program that polls for ever. -/
theorem witness_OperationEndsWithinItsBudget_program :
    HostSystem.IsRun roundTurns pollSystems ∧ WeaklyFair roundTurns (fun n => (pollSystems n).block) ∧
      (pollSystems 0).block.i2c.Inv ∧ (pollSystems 0).block.fl.bsy = true := by
  have polls : ∀ n, ∃ b, pollSystems n = ⟨polling, b⟩ := by
    intro n
    induction n with
    | zero => exact ⟨_, rfl⟩
    | succ n ih =>
      obtain ⟨b, hb⟩ := ih
      obtain ⟨c, hc⟩ := polling_turn n b
      exact ⟨c, by rw [pollSystems, hb, hc]⟩
  refine ⟨fun n => ?_, roundTurns_fair _, starting_inv, rfl⟩
  obtain ⟨b, hb⟩ := polls n
  obtain ⟨c, hc⟩ := polling_turn n b
  rw [pollSystems, hb, hc]

/-- I2C_WRITE, called before I2C_INIT: its START is rejected with CMD_DISABLED (42_driver_sequences.md R268). -/
def earlyWrite : HostSystem := ⟨HostCtx.start (macroI2cWrite 0x3C [0x80#8]) [], powered⟩

/-- The system after `n` moves of the host. -/
def earlySystems : Nat → HostSystem
  | 0 => earlyWrite
  | n + 1 =>
    match (earlySystems n).hostMove free with
    | .next z => z
    | .fault _ => earlyWrite
    | .refused _ => earlyWrite

/-- It has ended after nine moves, with the error its WAIT read. -/
theorem test_earlyWrite : (earlySystems 9).ctx.result = some (.err (.reg .i2cStat) 0x00032400) := by decide

/-- And stays there. -/
theorem earlySystems_end (d : Nat) : earlySystems (9 + d) = earlySystems 9 := by
  have stays : ∀ y : HostSystem, y.ctx.result.isSome = true → y.hostMove free = .next y := fun y h => by
    simp [HostSystem.hostMove, h]
  induction d with
  | zero => rfl
  | succ d ih => rw [← Nat.add_assoc, earlySystems, ih, stays _ (by rw [test_earlyWrite]; rfl)]

/-- The hypotheses of `driver_ends`, met by that run. -/
theorem witness_driver_ends :
    EndingDriver (macroI2cWrite 0x3C [0x80#8]) ∧ HostSystem.IsExecution (fun _ => .host free) earlySystems ∧
      NoReset (fun _ => .host free) ∧ (earlySystems 0).block.i2c.Inv ∧
      (earlySystems 0).ctx.stack = [.run (macroI2cWrite 0x3C [0x80#8])] ∧ (earlySystems 0).ctx.result = none := by
  have moves : ∀ n, ∃ z, (earlySystems n).hostMove free = .next z := fun n => by
    by_cases h : n < 9
    · interval_cases n <;> exact ⟨_, rfl⟩
    · rw [show n = 9 + (n - 9) by omega, earlySystems_end]
      exact ⟨_, rfl⟩
  have off : ∀ n, (earlySystems n).block.i2c.tickEnabled = false ∧ (earlySystems n).block.fl.bsy = false := fun n => by
    by_cases h : n < 9
    · interval_cases n <;> decide
    · rw [show n = 9 + (n - 9) by omega, earlySystems_end]
      decide
  refine ⟨.i2cWrite _ _, ⟨fun n => ?_, ⟨fun N h => ?_, fun N h => ?_⟩, fun N => ⟨9 + N, by omega, .inr ?_⟩⟩, nofun,
    by constructor <;> decide, rfl, rfl⟩
  · obtain ⟨z, hz⟩ := moves n
    show (earlySystems n).hostMove free = _
    rw [earlySystems, hz]
  · exact absurd (h N (Nat.le_refl _)) (by simp [(off N).1])
  · exact absurd (h N (Nat.le_refl _)) (by simp [(off N).2])
  · rw [earlySystems_end]; decide

/-- A narrow access, the misaligned offsets 2 and 0x3F, and the last aligned word. -/
theorem witness_RegisterAccessesAreAlignedWords :
    Accessing powered (.addr 0x40000010#32) .one none (.window 0x10) ∧ Size.one ≠ .four ∧
    Accessing powered (.addr 0x40000002#32) .four (some 1#32) (.window 0x02) ∧ 0x02 % 4 ≠ 0 ∧
    Accessing powered (.addr 0x4000003F#32) .four none (.window 0x3F) ∧ 0x3F % 4 ≠ 0 ∧
    Accessing powered (.addr 0x4000003C#32) .four none (.window 0x3C) ∧ 0x3C % 4 = 0 := by decide

theorem witness_ReservedSlotsAndWriteOnlyRegistersReadZero :
    Accessing powered (.reg 0x14) .four none (.window 0x14) ∧
    Accessing powered (.addr 0x4000003C#32) .four (some 1#32) (.window 0x3C) ∧
    Accessing powered (.reg 0x0C) .four none (.window 0x0C) := by decide

theorem witness_RegisterReadsHaveNoSideEffect :
    (∀ off ∈ [0x00, 0x04, 0x08, 0x0C, 0x10, 0x20, 0x24, 0x28, 0x2C, 0x30],
      Accessing powered (.reg off) .four none (.window off)) ∧
    Accessing powered (.addr 0x40000000#32) .four none (.window 0x00) ∧
    Accessing powered (.addr 0x40000030#32) .four none (.window 0x30) := by decide

/-- A write, a held read, a misaligned read, and aligned reads at the first and the last address of the region. -/
theorem witness_FlashRegionAccesses :
    (testParams.valid = true ∧ testParams.flashBase ≤ (0x00013FFF#32).toNat ∧
      (0x00013FFF#32).toNat < testParams.flashBase + testParams.regionSize) ∧
    Accessing powered (.addr 0x00010000#32) .four (some 0#32) (.region 0x10000) ∧
    (Accessing (operating .erase .erase .issue) (.addr 0x00010000#32) .four none (.region 0x10000) ∧
      (operating .erase .erase .issue).fl.opstate ≠ .idle) ∧
    (Accessing powered (.addr 0x00013FFF#32) .two none (.region 0x13FFF) ∧ powered.fl.opstate = .idle ∧
      0x13FFF % Size.two.bytes ≠ 0) ∧
    (Accessing powered (.addr 0x00013FFF#32) .one none (.region 0x13FFF) ∧ 0x13FFF % Size.one.bytes = 0) ∧
    (Accessing powered (.addr 0x00010002#32) .two none (.region 0x10002) ∧ 0x10002 % Size.two.bytes = 0) ∧
    (Accessing powered (.addr 0x00010000#32) .four none (.region 0x10000) ∧ 0x10000 % Size.four.bytes = 0) := by decide

/-- The first address past the region, and the first past the window. -/
theorem witness_OtherAddressesAreNotTheBlocks :
    Accessing powered (.addr 0x00014000#32) .four none (.outside 0x14000) ∧
    powered.params.flashBase + powered.params.regionSize ≤ (0x00014000#32).toNat ∧
    (0x00014000#32).toNat < powered.params.blkBase ∧
    Accessing powered (.addr 0x40000040#32) .four none (.outside 0x40000040) ∧
    powered.params.blkBase + 0x40 ≤ (0x40000040#32).toNat ∧
    powered.params.flashBase + powered.params.regionSize ≤ (0x40000040#32).toNat := by decide

theorem witness_ErrcodeIsZeroExactlyWhenClean :
    let s := (bus .idle .noPhase).setI2c ((i2cAt .idle .noPhase).raise .nackAddr)
    (s.i2c.errcode = none ↔ s.i2c.clean = true) ∧ (s.fl.errcode = none ↔ s.fl.clean = true) ∧
      (after (step (access s (.reg 0x10) .four (some 0x00000700#32)))).map (fun t => t.i2c.errcode) = some none :=
  by decide

theorem witness_ResetSetsEveryElement :
    (withTurn (bus .ready .noPhase) (.reset [])).sched = .reset [] :: [] := by decide

/-- A reset while the bus is owned and an erase is in AWAIT, and one while the engines are idle. -/
theorem witness_ResetKeepsWhatIsNotAnElement :
    (fun s : State => (s.fl.opstate = .erase ∨ s.fl.opstate = .program) ∧ s.fl.ph = .await)
      (withTurn (operating .erase .erase .await) (.reset [0x12#8])) ∧
    ¬ ((powered.fl.opstate = .erase ∨ powered.fl.opstate = .program) ∧ powered.fl.ph = .await) ∧
    ([0x12#8][0]? = some 0x12#8 ∧ 0 < smallPages.pageSize) := by decide

theorem witness_RegistersReadTheirResetValues :
    ∃ t, step (withTurn (bus .ready .noPhase) (.reset [])) = .next t := ⟨_, rfl⟩

/-- The block idle in the test configuration satisfies the invariant. -/
theorem powered_inv : powered.Inv :=
  ⟨by decide, by constructor <;> decide, by constructor <;> decide, by decide, by decide, by decide⟩

theorem witness_EveryStepKeepsTheInvariant :
    (withTurn powered (.host free)).Inv ∧ (after (step (access powered (.reg 0) .four (some 1#32)))).isSome = true :=
  ⟨⟨powered_inv.params, powered_inv.i2c, powered_inv.fl, powered_inv.array, powered_inv.region, powered_inv.trace⟩, by decide⟩

theorem witness_OwnershipIsAnOpenStart : powered.Inv ∧ Reaches powered powered := ⟨powered_inv, .refl _⟩

theorem witness_EveryStepKeepsTheArraysForm :
    Memory.wf (operating .program .program .await).array = true ∧
      (after (step (withTurn (operating .program .program .await) (.flTick .ok [])))).isSome = true := by decide

theorem witness_EnginesShareNoState :
    ∀ u ∈ [Turn.host free, .i2cTick free, .flTick .silent [0x00#8], .reset []],
      (after (step (withTurn (operating .program .program .await) u))).isSome = true := by
  intro u hu
  fin_cases hu <;> rfl

theorem witness_FaultMarkIsSetAndNeverCleared :
    (after (step powered)).isSome = true ∧
      ∃ t, step (access powered (.reg 0x10) .one none) = .fault (.hostBusError .registerAccess t) :=
  ⟨by decide, _, rfl⟩

/-- A program at a WAIT for `BTF` whose error mask is the value of the name "m", inside a called macro or outside any. -/
def atWait (x : Option String) (rest : List HostFrame) : HostCtx :=
  ⟨.run (.wait .i2cStat (.lit 0x20) (.lit 0x20) (.var "m") x) :: rest, [("m", 0x700)], [], none⟩

/-- The masks of `BTF` and of the I2C errors: an error, a success, and neither, in a macro and outside any, with a name
bound and with none. -/
theorem witness_WaitTestsErrorsFirst :
    (∀ x ∈ [some "x", none], ∀ rest ∈ [[], [HostFrame.back []]],
      (atWait x rest).stack = .run (.wait .i2cStat (.lit 0x20) (.lit 0x20) (.var "m") x) :: rest) ∧
    evalExpr (atWait none []).names (.var "m") = 0x700 ∧ evalExpr (atWait none []).names (.lit 0x20) = 0x20 ∧
    (0x01004100 &&& 0x700 ≠ 0) ∧ (0x05000076 &&& 0x700 = 0 ∧ 0x05000076 &&& 0x20 = 0x20) ∧
    (0x06000046 &&& 0x700 = 0 ∧ 0x06000046 &&& 0x20 ≠ 0x20) := by decide

end Sys2Proof.Tests
end

section
/-! PROOFS. The layout of the two status words (10_state.md R43, R49; 30_encoding.md R120, R131) and the reset values of
the two engines (10_state.md R56, R57). -/

namespace Sys2Proof.Machine

/-! ### The derived conditions of I2CM, by state (10_state.md R43) -/

theorem I2cState.sb_eq_decide (i : I2cState) : i.sb = decide (i.st = .started) := rfl

theorem I2cState.msl_eq_decide (i : I2cState) :
    i.msl = decide (i.st = .started ∨ i.st = .addressing ∨ i.st = .ready ∨ i.st = .transmitting ∨ i.st = .stopping) := by
  rw [Bool.eq_iff_iff]
  simp [msl, or_assoc]

/-- The spec lists the six busy states; they are all but OFF and IDLE. -/
theorem I2cState.busy_eq_decide (i : I2cState) : i.busy = decide (i.st ≠ .off ∧ i.st ≠ .idle) := by
  unfold busy
  cases i.st <;> rfl

theorem I2cState.addrAcked_eq_decide (i : I2cState) : i.addrAcked = decide (i.st = .ready ∧ i.sent = false) := by
  rw [Bool.eq_iff_iff]
  simp [addrAcked]

theorem I2cState.txe_eq_decide (i : I2cState) : i.txe = decide (i.st = .ready) := rfl

theorem I2cState.btf_eq_decide (i : I2cState) : i.btf = decide (i.st = .ready ∧ i.sent = true) := by
  rw [Bool.eq_iff_iff]
  simp [btf]

theorem I2cState.tra_eq_decide (i : I2cState) : i.tra = decide (i.st = .ready ∨ i.st = .transmitting) := by
  rw [Bool.eq_iff_iff]
  simp [tra]

/-! ### The levels of the lines (10_state.md R42) -/

theorem I2cState.sclLevel_eq_decide (i : I2cState) (env : BusLines) :
    i.sclLevel env = decide (i.sclDrv = false ∧ env.scl = true) := by
  rw [Bool.eq_iff_iff]
  simp [sclLevel]

theorem I2cState.sdaLevel_eq_decide (i : I2cState) (env : BusLines) :
    i.sdaLevel env = decide (i.sdaDrv = false ∧ env.sda = true) := by
  rw [Bool.eq_iff_iff]
  simp [sdaLevel]

/-! ### The fields of I2C_STAT that `I2cState.statWord_flags` leaves out (30_encoding.md R120) -/

theorem I2cState.statWord_tra (i : I2cState) (env : BusLines) : (i.statWord env).getLsbD 6 = i.tra := by
  simp only [statWord, BitVec.getLsbD_append]
  simp

theorem I2cState.statWord_spend (i : I2cState) (env : BusLines) : (i.statWord env).getLsbD 7 = i.spend := by
  simp only [statWord, BitVec.getLsbD_append]
  simp

theorem I2cState.statWord_levels (i : I2cState) (env : BusLines) :
    (i.statWord env).getLsbD 16 = i.sclLevel env ∧ (i.statWord env).getLsbD 17 = i.sdaLevel env := by
  simp only [statWord, BitVec.getLsbD_append]
  simp

theorem I2cState.statWord_errcode (i : I2cState) (env : BusLines) :
    (i.statWord env).extractLsb' 12 4 = i2cErrcode i.errcode := by
  simp (disch := omega) only [statWord, BitVec.extractLsb'_append_eq_of_le, BitVec.extractLsb'_append_eq_of_add_le,
    Nat.reduceSub, BitVec.extractLsb'_eq_self]

theorem I2cState.statWord_state (i : I2cState) (env : BusLines) : (i.statWord env).extractLsb' 24 4 = i.st.code := by
  simp (disch := omega) only [statWord, BitVec.extractLsb'_append_eq_of_le, BitVec.extractLsb'_append_eq_of_add_le,
    Nat.reduceSub, BitVec.extractLsb'_eq_self]

theorem I2cState.statWord_reserved (i : I2cState) (env : BusLines) :
    (i.statWord env).getLsbD 11 = false ∧ (i.statWord env).extractLsb' 18 6 = 0#6 ∧
      (i.statWord env).extractLsb' 28 4 = 0#4 := by
  refine ⟨?_, ?_, ?_⟩
  · simp only [statWord, BitVec.getLsbD_append]
    simp
  all_goals
    simp (disch := omega) only [statWord, BitVec.extractLsb'_append_eq_of_le, BitVec.extractLsb'_append_eq_of_add_le,
      Nat.reduceSub, BitVec.extractLsb'_eq_self]

/-- No derived condition holds in OFF (10_state.md R43). -/
theorem I2cState.statWord_conditions_of_off (i : I2cState) (env : BusLines) (h : i.st = .off) :
    (i.statWord env).extractLsb' 0 7 = 0#7 := by
  obtain ⟨hsb, hmsl, hbusy, haddr, htxe, hbtf, -⟩ := i.statWord_flags env
  have htra := i.statWord_tra env
  refine BitVec.eq_of_getLsbD_eq fun k hk => ?_
  rw [BitVec.getLsbD_extractLsb', BitVec.getLsbD_zero, Nat.zero_add]
  interval_cases k <;>
    simp only [hsb, hmsl, hbusy, haddr, htxe, hbtf, htra, sb, msl, busy, addrAcked, txe, btf, tra, h] <;> rfl

/-! ### The fields of FL_STAT (30_encoding.md R131) -/

theorem FlashState.bsy_eq_decide (f : FlashState) : f.bsy = decide (f.opstate ≠ .idle) := by
  unfold bsy
  cases f.opstate <;> rfl

theorem FlashState.statWord_flags (f : FlashState) :
    f.statWord.getLsbD 0 = f.bsy ∧ f.statWord.getLsbD 1 = f.locked ∧ f.statWord.getLsbD 2 = f.eop ∧
    f.statWord.getLsbD 3 = f.wrperr ∧ f.statWord.getLsbD 4 = f.pgerr ∧ f.statWord.getLsbD 5 = f.verr ∧
    f.statWord.getLsbD 6 = f.cmderr ∧ f.statWord.getLsbD 12 = f.keyseq := by
  simp only [statWord, BitVec.getLsbD_append]
  simp

theorem FlashState.statWord_errcode (f : FlashState) : f.statWord.extractLsb' 8 4 = flErrcode f.errcode := by
  simp (disch := omega) only [statWord, BitVec.extractLsb'_append_eq_of_le, BitVec.extractLsb'_append_eq_of_add_le,
    Nat.reduceSub, BitVec.extractLsb'_eq_self]

theorem FlashState.statWord_opstate (f : FlashState) : f.statWord.extractLsb' 16 2 = f.opstate.code := by
  simp (disch := omega) only [statWord, BitVec.extractLsb'_append_eq_of_le, BitVec.extractLsb'_append_eq_of_add_le,
    Nat.reduceSub, BitVec.extractLsb'_eq_self]

theorem FlashState.statWord_reserved (f : FlashState) :
    f.statWord.getLsbD 7 = false ∧ f.statWord.extractLsb' 13 3 = 0#3 ∧ f.statWord.extractLsb' 18 14 = 0#14 := by
  refine ⟨?_, ?_, ?_⟩
  · simp only [statWord, BitVec.getLsbD_append]
    simp
  all_goals
    simp (disch := omega) only [statWord, BitVec.extractLsb'_append_eq_of_le, BitVec.extractLsb'_append_eq_of_add_le,
      Nat.reduceSub, BitVec.extractLsb'_eq_self]

/-! ### The obligations -/

/-- Settles O45: each field of the word is the lemma of that field, and the codes are compared value by value. -/
theorem i2cStatLayout : Obligations.I2cStatLayout := by
  intro s env
  obtain ⟨hsb, hmsl, hbusy, haddr, htxe, hbtf, hnackf, htof, hcmderr⟩ := s.i2c.statWord_flags env
  obtain ⟨hscl, hsda⟩ := s.i2c.statWord_levels env
  obtain ⟨h11, h18, h28⟩ := s.i2c.statWord_reserved env
  refine ⟨hsb.trans s.i2c.sb_eq_decide, hmsl.trans s.i2c.msl_eq_decide, hbusy.trans s.i2c.busy_eq_decide,
    haddr.trans s.i2c.addrAcked_eq_decide, htxe.trans s.i2c.txe_eq_decide, hbtf.trans s.i2c.btf_eq_decide,
    (s.i2c.statWord_tra env).trans s.i2c.tra_eq_decide, s.i2c.statWord_spend env, hnackf, htof, hcmderr, h11,
    (s.i2c.statWord_errcode env).trans ?errcode, hscl.trans (s.i2c.sclLevel_eq_decide env),
    hsda.trans (s.i2c.sdaLevel_eq_decide env), h18, h28, (s.i2c.statWord_state env).trans ?state⟩
  case errcode => rcases s.i2c.errcode with _ | ⟨⟨⟩⟩ <;> rfl
  case state => cases s.i2c.st <;> rfl

/-- Settles O46: each field of the word is the lemma of that field, and the codes are compared value by value. -/
theorem flStatLayout : Obligations.FlStatLayout := by
  intro s env
  obtain ⟨hbsy, hlocked, heop, hwrperr, hpgerr, hverr, hcmderr, hkeyseq⟩ := s.fl.statWord_flags
  obtain ⟨h7, h13, h18⟩ := s.fl.statWord_reserved
  refine ⟨hbsy.trans s.fl.bsy_eq_decide, hlocked, heop, hwrperr, hpgerr, hverr, hcmderr, h7, hkeyseq, h13, h18,
    s.fl.statWord_opstate.trans ?opstate, s.fl.statWord_errcode.trans ?errcode⟩
  case opstate => cases s.fl.opstate <;> rfl
  case errcode => rcases s.fl.errcode with _ | ⟨⟨⟩⟩ <;> rfl

/-- Settles O51: the step of a reset turn puts both engines at their reset states, and I2CM is then in OFF. -/
theorem resetSetsEveryElement : Obligations.ResetSetsEveryElement := by
  intro s content rest hs
  exact ⟨_, step_reset s content rest hs, rfl, rfl, fun env => I2cState.reset.statWord_conditions_of_off env rfl, rfl⟩

end Sys2Proof.Machine
end

section
/-! PROOFS. The host's side of the register window (20_memory.md R86, R87) and the stability of the conditions it waits
on (20_memory.md R97). -/

namespace Sys2Proof.Machine

/-! ### An access to the register window, case by case (20_memory.md R86, R87) -/

theorem windowAccess_rejected (env : BusLines) (off : Nat) (acc : HostAccess) (s : State)
    (h : acc.size ≠ .four ∨ off % 4 ≠ 0) : windowAccess env off acc s = hostBusError .registerAccess s := by
  rw [windowAccess, if_pos h]

theorem windowAccess_read (env : BusLines) {off : Nat} {acc : HostAccess} (s : State) {r : Reg}
    (hsize : acc.size = .four) (hr : Reg.ofOffset off = some r) (hw : acc.wdata = none) :
    windowAccess env off acc s = .next (s.respond (.value (readReg r env s))) := by
  have halign : off % 4 = 0 := ofOffset_offset off r hr ▸ (offset_slot r).2.1
  simp [windowAccess, hsize, halign, hr, hw]

theorem windowAccess_write (env : BusLines) {off : Nat} {acc : HostAccess} (s : State) {r : Reg} {v : Word}
    (hsize : acc.size = .four) (hr : Reg.ofOffset off = some r) (hw : acc.wdata = some v) :
    windowAccess env off acc s = writeReg r v (s.respond .written) := by
  have halign : off % 4 = 0 := ofOffset_offset off r hr ▸ (offset_slot r).2.1
  simp [windowAccess, hsize, halign, hr, hw]

theorem windowAccess_reserved_read (env : BusLines) {off : Nat} {acc : HostAccess} (s : State)
    (hsize : acc.size = .four) (halign : off % 4 = 0) (hr : Reg.ofOffset off = none) (hw : acc.wdata = none) :
    windowAccess env off acc s = .next (s.respond (.value 0#32)) := by
  simp [windowAccess, hsize, halign, hr, hw]

theorem windowAccess_reserved_write (env : BusLines) {off : Nat} {acc : HostAccess} (s : State) {v : Word}
    (hsize : acc.size = .four) (halign : off % 4 = 0) (hr : Reg.ofOffset off = none) (hw : acc.wdata = some v) :
    windowAccess env off acc s = .next (s.respond .written) := by
  simp [windowAccess, hsize, halign, hr, hw]

/-- An aligned 32-bit access is accepted: it answers a next state, with the fault mark as it was. -/
theorem windowAccess_accepted (env : BusLines) (off : Nat) (acc : HostAccess) (s : State)
    (hsize : acc.size = .four) (halign : off % 4 = 0) :
    ∃ t, windowAccess env off acc s = .next t ∧ t.faulted = s.faulted := by
  cases hr : Reg.ofOffset off with
  | none =>
    cases hw : acc.wdata with
    | none => exact ⟨_, windowAccess_reserved_read env s hsize halign hr hw, rfl⟩
    | some v => exact ⟨_, windowAccess_reserved_write env s hsize halign hr hw, rfl⟩
  | some r =>
    cases hw : acc.wdata with
    | none => exact ⟨_, windowAccess_read env s hsize hr hw, rfl⟩
    | some v =>
      obtain ⟨t, ht⟩ := writeReg_next r v (s.respond .written)
      exact ⟨t, (windowAccess_write env s hsize hr hw).trans ht, (writeReg_moves r v _ t ht).faulted⟩

/-- The reserved slots of the window (30_encoding.md R116). -/
theorem reservedSlots_spec :
    ∀ off ∈ [0x14, 0x18, 0x1C, 0x34, 0x38, 0x3C], off % 4 = 0 ∧ Reg.ofOffset off = none := by decide

/-- The slots of the command registers, which are write-only (30_encoding.md R116). -/
theorem writeOnlySlots_spec :
    ∀ off ∈ [0x0C, 0x20, 0x24], ∃ r ∈ [Reg.i2cCmd, .flKey, .flCmd], Reg.ofOffset off = some r := by decide

theorem readReg_writeOnly (env : BusLines) (s : State) :
    ∀ r ∈ [Reg.i2cCmd, .flKey, .flCmd], readReg r env s = 0#32 := by simp [readReg]

/-- Settles O40: the step is the access to the window, which is rejected or accepted by its width and offset. -/
theorem registerAccessesAreAlignedWords : Obligations.RegisterAccessesAreAlignedWords := by
  intro s env rest acc q off hs hq hp
  rw [step_window s env rest acc q off hs hq hp]
  exact ⟨windowAccess_rejected env off acc _, windowAccess_accepted env off acc _⟩

/-- Settles O41: the step is the access to the window, at a slot without a register or at one that reads 0. -/
theorem reservedSlotsAndWriteOnlyRegistersReadZero : Obligations.ReservedSlotsAndWriteOnlyRegistersReadZero := by
  intro s env rest acc q off hs hq hp hsize
  rw [step_window s env rest acc q off hs hq hp]
  refine ⟨fun hoff => ?_, fun hoff hw => ?_⟩
  · obtain ⟨halign, hr⟩ := reservedSlots_spec off hoff
    exact ⟨windowAccess_reserved_read env _ hsize halign hr, fun v => windowAccess_reserved_write env _ hsize halign hr⟩
  · obtain ⟨r, hmem, hr⟩ := writeOnlySlots_spec off hoff
    rw [windowAccess_read env _ hsize hr hw, readReg_writeOnly env _ r hmem]
    rfl

/-! ### What can take SB, ADDR, BTF or TXE away (20_memory.md R97) -/

/-- SB, ADDR, BTF and TXE are read off `st` and `sent` (10_state.md R43): one that is lost was set in STARTED or READY,
and one of the two elements changed. -/
theorem I2cState.condition_lost {i j : I2cState}
    (h : (i.sb = true ∧ j.sb = false) ∨ (i.addrAcked = true ∧ j.addrAcked = false) ∨ (i.btf = true ∧ j.btf = false) ∨
      (i.txe = true ∧ j.txe = false)) :
    (i.st = .started ∨ i.st = .ready) ∧ ¬ (j.st = i.st ∧ j.sent = i.sent) := by
  simp only [sb_eq_decide, addrAcked_eq_decide, btf_eq_decide, txe_eq_decide, decide_eq_true_eq,
    decide_eq_false_iff_not] at h
  refine ⟨?_, fun ⟨hst, hsent⟩ => ?_⟩
  · rcases h with ⟨h, -⟩ | ⟨⟨h, -⟩, -⟩ | ⟨⟨h, -⟩, -⟩ | ⟨h, -⟩ <;> simp [h]
  · simp only [hst, hsent, and_not_self, or_self] at h

theorem I2cState.tickEnabled_of_waited {i : I2cState} (h : i.st = .started ∨ i.st = .ready) : i.tickEnabled = false := by
  rcases h with h | h <;> simp [tickEnabled, h]

/-- I2CM is enabled in STARTED and READY (40_i2c_master.md R180). -/
theorem I2cState.Inv.enabled_of_waited {i : I2cState} (hinv : i.Inv) (h : i.st = .started ∨ i.st = .ready) :
    i.en = true := by
  have hoff : i.st ≠ .off := by rcases h with h | h <;> rw [h] <;> decide
  simpa using mt hinv.off_iff_disabled.2 hoff

/-- A command that is not allowed in the state keeps `st` and `sent` (40_i2c_master.md R186). -/
theorem I2cState.command_keeps_or_allowed (i : I2cState) (allowed : Bool) (accepted : I2cState) :
    ((i.command allowed accepted).st = i.st ∧ (i.command allowed accepted).sent = i.sent) ∨ allowed = true := by
  rcases i.command_cases allowed accepted with ⟨-, e⟩ | ⟨-, ha, -⟩ | ⟨-, -, e⟩
  · rw [e]; exact .inl ⟨i.raise_st _, i.raise_sent _⟩
  · exact .inr ha
  · rw [e]; exact .inl ⟨i.raise_st _, i.raise_sent _⟩

/-- An instruction of FPROG leaves I2CM alone. -/
theorem exec_keeps_i2c {i : Instr} {s t : State} (h : exec i s = .next t) (hreg : i.reg ≠ .i2cCmd) : t.i2c = s.i2c := by
  rcases exec_cases i s t h with ⟨e, -⟩ | ⟨-, f, rfl⟩
  · exact absurd e hreg
  · rfl

/-- An instruction of I2CM leaves FPROG alone. -/
theorem exec_keeps_fl {i : Instr} {s t : State} (h : exec i s = .next t) (hreg : i.reg = .i2cCmd) : t.fl = s.fl := by
  rcases exec_cases i s t h with ⟨-, j, rfl⟩ | ⟨e, -⟩
  · rfl
  · exact absurd hreg e

/-! The acceptance table is what the commands check (40_i2c_master.md R186). -/

theorem i2cAccepts_start (i : I2cState) : i2cAccepts .i2cStart i.st i.spend = i.allowsStart := by
  unfold I2cState.allowsStart
  cases i.st <;> rfl

theorem i2cAccepts_addrw (a : BitVec 7) (i : I2cState) : i2cAccepts (.i2cAddrw a) i.st i.spend = (i.st == .started) := by
  cases i.st <;> rfl

theorem i2cAccepts_write (b : Byte) (i : I2cState) : i2cAccepts (.i2cWrite b) i.st i.spend = (i.st == .ready) := by
  cases i.st <;> rfl

theorem i2cAccepts_stop (i : I2cState) : i2cAccepts .i2cStop i.st i.spend = i.allowsStop := by
  unfold I2cState.allowsStop
  cases i.st <;> rfl

/-- An instruction that I2CM does not accept keeps `st` and `sent`. -/
theorem exec_keeps_or_accepts (i : Instr) (s t : State) (h : exec i s = .next t) :
    (t.i2c.st = s.i2c.st ∧ t.i2c.sent = s.i2c.sent) ∨ i2cAccepts i s.i2c.st s.i2c.spend = true := by
  cases i <;> cases h
  case i2cStart => rw [i2cAccepts_start]; exact s.i2c.command_keeps_or_allowed _ _
  case i2cAddrw a => rw [i2cAccepts_addrw]; exact s.i2c.command_keeps_or_allowed _ _
  case i2cWrite b => rw [i2cAccepts_write]; exact s.i2c.command_keeps_or_allowed _ _
  case i2cStop => rw [i2cAccepts_stop]; exact s.i2c.command_keeps_or_allowed _ _
  all_goals exact .inl ⟨rfl, rfl⟩

/-- A write of `EN <- 1` while enabled keeps `st` and `sent` (40_i2c_master.md R180). -/
theorem I2cState.writeCtrl_keeps_or_disables (i : I2cState) (v : Word) (hen : i.en = true) :
    ((i.writeCtrl v).i2c.st = i.st ∧ (i.writeCtrl v).i2c.sent = i.sent) ∨ v.getLsbD 0 = false := by
  cases hv : v.getLsbD 0
  · exact .inr rfl
  · exact .inl (by simp [writeCtrl, hv, hen])

/-- A register write keeps `st` and `sent` of an enabled I2CM, or is an accepted command or a write of `EN <- 0`. -/
theorem writeReg_keeps_or_accepts (r : Reg) (v : Word) (s t : State) (hen : s.i2c.en = true)
    (h : writeReg r v s = .next t) :
    (t.i2c.st = s.i2c.st ∧ t.i2c.sent = s.i2c.sent) ∨
    (r = .i2cCmd ∧ ∃ i, decode .i2cCmd v = .ok i ∧ i2cAccepts i s.i2c.st s.i2c.spend = true) ∨
    (r = .i2cCtrl ∧ v.getLsbD 0 = false) := by
  rcases writeReg_cases r v s t h with ⟨rfl, rfl⟩ | ⟨-, rfl⟩ | ⟨-, rfl⟩ | ⟨-, rfl⟩ | ⟨rfl, ⟨i, hd, hx⟩ | rfl⟩ |
    ⟨-, rfl⟩ | ⟨-, rfl⟩ | ⟨-, rfl⟩ | ⟨-, ⟨i, hd, hx⟩ | rfl⟩ | ⟨-, rfl⟩
  · exact (s.i2c.writeCtrl_keeps_or_disables v hen).imp_right fun hv => .inr ⟨rfl, hv⟩
  · exact .inl ⟨rfl, rfl⟩
  · exact .inl ⟨rfl, rfl⟩
  · exact .inl ⟨rfl, rfl⟩
  · exact (exec_keeps_or_accepts i s t hx).imp_right fun ha => .inl ⟨rfl, i, hd, ha⟩
  · exact .inl ⟨s.i2c.raise_st _, s.i2c.raise_sent _⟩
  · exact .inl ⟨rfl, rfl⟩
  · exact .inl ⟨rfl, rfl⟩
  · exact .inl ⟨rfl, rfl⟩
  · have e : t.i2c = s.i2c := exec_keeps_i2c hx (by rw [decode_reg _ _ _ hd]; decide)
    exact .inl ⟨congrArg I2cState.st e, congrArg I2cState.sent e⟩
  · exact .inl ⟨rfl, rfl⟩
  · exact .inl ⟨rfl, rfl⟩

/-- A step that loses SB, ADDR, BTF or TXE is a reset, an accepted I2CM command, or a write of `EN <- 0`. -/
theorem step_loses_condition (s t : State) (u : Turn) (rest : List Turn) (hinv : s.i2c.Inv) (hs : s.sched = u :: rest)
    (h : step s = .next t)
    (hlost : (s.i2c.sb = true ∧ t.i2c.sb = false) ∨ (s.i2c.addrAcked = true ∧ t.i2c.addrAcked = false) ∨
      (s.i2c.btf = true ∧ t.i2c.btf = false) ∨ (s.i2c.txe = true ∧ t.i2c.txe = false)) :
    (∃ c, u = .reset c) ∨
    ∃ env acc q v, u = .host env ∧ s.hostQ = acc :: q ∧ acc.wdata = some v ∧
      ((placeOf s.params acc.target = .window 0x0C ∧
          ∃ i, decode .i2cCmd v = .ok i ∧ i2cAccepts i s.i2c.st s.i2c.spend = true) ∨
        (placeOf s.params acc.target = .window 0x00 ∧ v.getLsbD 0 = false)) := by
  obtain ⟨hst, hchanged⟩ := I2cState.condition_lost hlost
  cases u with
  | reset c => exact .inl ⟨c, rfl⟩
  | i2cTick env =>
    rw [step_i2cTick s env rest hs] at h
    cases h
    exact absurd (by simp [s.i2c.tick_off env (I2cState.tickEnabled_of_waited hst)]) hchanged
  | flTick a c =>
    rw [step_flTick s a c rest hs] at h
    cases h
    exact absurd ⟨rfl, rfl⟩ hchanged
  | host env =>
    rcases hostStep_cases s t env rest hs h with ⟨q, r, rfl⟩ | ⟨acc, q, v, r, off, hq, hv, -, hp, hr, hw⟩
    · exact absurd ⟨rfl, rfl⟩ hchanged
    · have hen : s.i2c.en = true := hinv.enabled_of_waited hst
      rw [ofOffset_offset off r hr] at hp
      rcases writeReg_keeps_or_accepts r v { s with sched := rest, hostQ := q, response := .written } t hen hw with
        hkept | ⟨rfl, hacc⟩ | ⟨rfl, hdis⟩
      · exact absurd hkept hchanged
      · exact .inr ⟨env, acc, q, v, rfl, hq, hv, .inl ⟨hp, hacc⟩⟩
      · exact .inr ⟨env, acc, q, v, rfl, hq, hv, .inr ⟨hp, hdis⟩⟩

/-! ### What can set BSY (20_memory.md R97) -/

@[simp] theorem FlashState.raise_bsy (f : FlashState) (c : FlError) : (f.raise c).bsy = f.bsy := by simp [bsy]

@[simp] theorem FlashState.lock_bsy (f : FlashState) : f.lock.bsy = f.bsy := by
  unfold lock
  split
  · exact f.raise_bsy _
  · rfl

@[simp] theorem FlashState.keyWord_bsy (p : Params) (v : Word) (f : FlashState) : (f.keyWord p v).bsy = f.bsy := by
  unfold keyWord
  split_ifs
  case neg => exact raise_bsy _ _
  all_goals simp [bsy]

/-- An ERASE_PAGE or PROGRAM_WORD that sets BSY passed the checks (41_flash_programmer.md R220). -/
theorem FlashState.operate_sets_bsy {p : Params} {k : FlKind} {f : FlashState} (hidle : f.bsy = false)
    (hbusy : (f.operate p k).bsy = true) : f.locked = false ∧ addressError p k f.addr.toNat = none := by
  rcases f.operate_cases p k with ⟨e, -, h⟩ | ⟨-, hlocked, haddr, -⟩
  · rw [h, raise_bsy, hidle] at hbusy; cases hbusy
  · exact ⟨hlocked, haddr⟩

/-- An instruction that sets BSY is an operation that passed the checks. -/
theorem exec_sets_bsy (i : Instr) (s t : State) (h : exec i s = .next t) (hidle : s.fl.bsy = false)
    (hbusy : t.fl.bsy = true) :
    s.fl.locked = false ∧
      ((i = .flErasePage ∧ addressError s.params .erase s.fl.addr.toNat = none) ∨
        (i = .flProgramWord ∧ addressError s.params .program s.fl.addr.toNat = none)) := by
  have changed : t.fl.bsy ≠ s.fl.bsy := by rw [hidle, hbusy]; decide
  cases i <;> cases h
  case flErasePage => exact (FlashState.operate_sets_bsy hidle hbusy).imp_right fun ha => .inl ⟨rfl, ha⟩
  case flProgramWord => exact (FlashState.operate_sets_bsy hidle hbusy).imp_right fun ha => .inr ⟨rfl, ha⟩
  case flLock => exact absurd s.fl.lock_bsy changed
  case flKey key => exact absurd (s.fl.keyWord_bsy s.params key) changed
  all_goals exact absurd rfl changed

theorem decode_flCmd_erasePage {v : Word} (h : decode .flCmd v = .ok .flErasePage) : v = 1#32 := by
  rw [decode_flCmd] at h
  split_ifs at h <;> cases h
  assumption

theorem decode_flCmd_programWord {v : Word} (h : decode .flCmd v = .ok .flProgramWord) : v = 2#32 := by
  rw [decode_flCmd] at h
  split_ifs at h <;> cases h
  assumption

/-- A register write that sets BSY is one of ERASE_PAGE or PROGRAM_WORD to FL_CMD that passed the checks. -/
theorem writeReg_sets_bsy (r : Reg) (v : Word) (s t : State) (h : writeReg r v s = .next t) (hidle : s.fl.bsy = false)
    (hbusy : t.fl.bsy = true) :
    r = .flCmd ∧ s.fl.locked = false ∧
      ((v = 1#32 ∧ addressError s.params .erase s.fl.addr.toNat = none) ∨
        (v = 2#32 ∧ addressError s.params .program s.fl.addr.toNat = none)) := by
  have changed : t.fl.bsy ≠ s.fl.bsy := by rw [hidle, hbusy]; decide
  rcases writeReg_cases r v s t h with ⟨-, rfl⟩ | ⟨-, rfl⟩ | ⟨-, rfl⟩ | ⟨-, rfl⟩ | ⟨-, ⟨i, hd, hx⟩ | rfl⟩ |
    ⟨-, rfl⟩ | ⟨-, rfl⟩ | ⟨-, rfl⟩ | ⟨rfl, ⟨i, hd, hx⟩ | rfl⟩ | ⟨-, rfl⟩
  · exact absurd rfl changed
  · exact absurd rfl changed
  · exact absurd rfl changed
  · exact absurd rfl changed
  · exact absurd (congrArg FlashState.bsy (exec_keeps_fl hx (decode_reg _ _ _ hd))) changed
  · exact absurd rfl changed
  · exact absurd rfl changed
  · exact absurd rfl changed
  · exact absurd rfl changed
  · obtain ⟨hlocked, ⟨rfl, ha⟩ | ⟨rfl, ha⟩⟩ := exec_sets_bsy i s t hx hidle hbusy
    · exact ⟨rfl, hlocked, .inl ⟨decode_flCmd_erasePage hd, ha⟩⟩
    · exact ⟨rfl, hlocked, .inr ⟨decode_flCmd_programWord hd, ha⟩⟩
  · exact absurd (s.fl.raise_bsy _) changed
  · exact absurd (s.fl.keyWord_bsy s.params v) changed

/-- A step that sets BSY is a write of ERASE_PAGE or PROGRAM_WORD to FL_CMD that passed the checks. -/
theorem step_sets_bsy (s t : State) (u : Turn) (rest : List Turn) (hs : s.sched = u :: rest) (h : step s = .next t)
    (hidle : s.fl.bsy = false) (hbusy : t.fl.bsy = true) :
    ∃ env acc q v, u = .host env ∧ s.hostQ = acc :: q ∧ acc.wdata = some v ∧
      placeOf s.params acc.target = .window 0x24 ∧ s.fl.locked = false ∧
      ((v = 1#32 ∧ addressError s.params .erase s.fl.addr.toNat = none) ∨
        (v = 2#32 ∧ addressError s.params .program s.fl.addr.toNat = none)) := by
  have changed : t.fl.bsy ≠ s.fl.bsy := by rw [hidle, hbusy]; decide
  cases u with
  | reset c =>
    rw [step_reset s c rest hs] at h
    cases h
    cases hbusy
  | i2cTick env =>
    rw [step_i2cTick s env rest hs] at h
    cases h
    exact absurd rfl changed
  | flTick a c =>
    rw [step_flTick s a c rest hs] at h
    cases h
    exact absurd (congrArg FlashState.bsy (s.fl.tick_idle _ _ _ _ hidle)) changed
  | host env =>
    rcases hostStep_cases s t env rest hs h with ⟨q, r, rfl⟩ | ⟨acc, q, v, r, off, hq, hv, -, hp, hr, hw⟩
    · exact absurd rfl changed
    · obtain ⟨rfl, hlocked, hchecked⟩ := writeReg_sets_bsy r v _ t hw hidle hbusy
      rw [ofOffset_offset off _ hr] at hp
      exact ⟨env, acc, q, v, rfl, hq, hv, hp, hlocked, hchecked⟩

/-- Settles O31: the two halves are what a step that loses a condition, and one that sets BSY, can be. -/
theorem waitedConditionsAreStable : Obligations.WaitedConditionsAreStable :=
  fun s t u rest hinv hs h => ⟨step_loses_condition s t u rest hinv hs h, step_sets_bsy s t u rest hs h⟩

end Sys2Proof.Machine
end

section
/-! PROOFS. Which values of the command registers are instructions, what a reserved value does (30_encoding.md R126,
R132), and what a write to a status register clears (30_encoding.md R121). -/

namespace Sys2Proof

/-! ### The values of I2C_CMD, field by field (30_encoding.md R126) -/

/-- The four fields of I2C_CMD, the high half, the argument, bits 7 to 4 and the opcode, make up the word. -/
theorem word_eq_iff_fields (v w : Word) :
    v = w ↔ v.extractLsb' 16 16 = w.extractLsb' 16 16 ∧ v.extractLsb' 8 8 = w.extractLsb' 8 8 ∧
      v.extractLsb' 4 4 = w.extractLsb' 4 4 ∧ v.extractLsb' 0 4 = w.extractLsb' 0 4 := by
  refine ⟨by rintro rfl; simp, fun ⟨hhigh, harg, hmid, hop⟩ => ?_⟩
  simp only [← BitVec.toNat_inj, BitVec.extractLsb'_toNat, Nat.shiftRight_eq_div_pow] at hhigh harg hmid hop
  exact BitVec.eq_of_toNat_eq (by omega)

theorem i2cOp_le_four_iff (op : BitVec 4) :
    op.toNat ≤ 4 ↔ op = 0#4 ∨ op = 1#4 ∨ op = 2#4 ∨ op = 3#4 ∨ op = 4#4 := by
  revert op; decide

theorem argBit15_eq_false_iff (v : Word) : v.extractLsb' 8 8 &&& 0x80#8 = 0#8 ↔ v.getLsbD 15 = false := by
  have hbit : v.getLsbD 15 = (v.extractLsb' 8 8).getLsbD 7 := by simp
  rw [hbit]
  generalize v.extractLsb' 8 8 = a
  revert a; decide

theorem validI2cWord_iff (v : Word) :
    validI2cWord v = true ↔
      v.extractLsb' 16 16 = 0#16 ∧ v.extractLsb' 4 4 = 0#4 ∧ (v.extractLsb' 0 4).toNat ≤ 4 ∧
        (v.extractLsb' 0 4 = 0#4 ∨ v.extractLsb' 0 4 = 1#4 ∨ v.extractLsb' 0 4 = 4#4 → v.extractLsb' 8 8 = 0#8) ∧
        (v.extractLsb' 0 4 = 2#4 → v.getLsbD 15 = false) := by
  simp only [validI2cWord, i2cHighZero, i2cMiddleZero, i2cOpDefined, i2cNoArg, i2cAddrArg, Bool.and_eq_true,
    Bool.or_eq_true, beq_iff_eq, decide_eq_true_eq, Bool.not_eq_true', ← Bool.not_eq_true, imp_iff_not_or, or_assoc,
    and_assoc]

/-- The words of I2C_CMD that some row of the opcode table fits. -/
theorem decodes_i2cCmd_iff (v : Word) :
    (∃ i, decode .i2cCmd v = .ok i) ↔
      v = 0#32 ∨ v = 1#32 ∨ v &&& 0xFFFF80FF#32 = 2#32 ∨ v &&& 0xFFFF00FF#32 = 3#32 ∨ v = 4#32 := by
  rw [decode_i2cCmd]
  split_ifs <;> simp [*]

/-- The decoder of I2C_CMD reads an instruction exactly from the valid words (30_encoding.md R126): a row's mask and
pattern compare field by field, and the rows go by the opcode. -/
theorem decodes_i2cCmd_iff_valid (v : Word) : (∃ i, decode .i2cCmd v = .ok i) ↔ validI2cWord v = true := by
  rw [decodes_i2cCmd_iff, validI2cWord_iff, i2cOp_le_four_iff, ← argBit15_eq_false_iff]
  simp only [word_eq_iff_fields, BitVec.extractLsb'_and]
  generalize v.extractLsb' 16 16 = high, v.extractLsb' 8 8 = arg, v.extractLsb' 4 4 = mid, v.extractLsb' 0 4 = op
  have high_ones : high &&& 0xFFFF#16 = high := BitVec.and_allOnes
  have mid_ones : mid &&& 0xF#4 = mid := BitVec.and_allOnes
  have op_ones : op &&& 0xF#4 = op := BitVec.and_allOnes
  simp only [BitVec.reduceExtractLsb', high_ones, mid_ones, op_ones, BitVec.and_zero, true_and]
  constructor
  · rintro (⟨rfl, rfl, rfl, rfl⟩ | ⟨rfl, rfl, rfl, rfl⟩ | ⟨rfl, harg, rfl, rfl⟩ | ⟨rfl, rfl, rfl⟩ | ⟨rfl, rfl, rfl, rfl⟩)
    case inr.inr.inl => simp [harg]
    all_goals simp
  · rintro ⟨rfl, rfl, rfl | rfl | rfl | rfl | rfl, hnoArg, haddr⟩
    all_goals simp_all

end Sys2Proof

namespace Sys2Proof.Machine

/-! ### Recording a command error and clearing flags, as the statements write them (60_exceptions.md R293, R295, R300) -/

theorem I2cState.clean_iff (i : I2cState) : i.clean = true ↔ i.nackf = false ∧ i.tof = false ∧ i.cmderr = false := by
  simp [clean, and_assoc]

theorem FlashState.clean_iff (f : FlashState) :
    f.clean = true ↔ f.wrperr = false ∧ f.pgerr = false ∧ f.verr = false ∧ f.cmderr = false := by
  simp [clean, and_assoc]

theorem I2cState.raise_of_cmderr (i : I2cState) {c : I2cError} (h : c.flag = .cmderr) : i.raise c = i.withCmdError c := by
  simp only [raise, setFlag, h, withCmdError, clean_iff]

theorem FlashState.raise_of_cmderr (f : FlashState) {c : FlError} (h : c.flag = .cmderr) :
    f.raise c = f.withCmdError c := by
  simp only [raise, setFlag, h, withCmdError, captured, clean_iff]

theorem I2cState.clearStatus_eq (i : I2cState) (v : Word) : i.clearStatus v = { i with
    nackf := if v.getLsbD 8 then false else i.nackf
    tof := if v.getLsbD 9 then false else i.tof
    cmderr := if v.getLsbD 10 then false else i.cmderr
    errcode := (i.clearStatus v).errcode } := by
  simp [clearStatus, settleErrcode, Bool.if_false_left, Bool.and_comm]

theorem I2cState.clearStatus_errcode (i : I2cState) (v : Word) :
    (i.clearStatus v).errcode =
      if (i.clearStatus v).nackf = false ∧ (i.clearStatus v).tof = false ∧ (i.clearStatus v).cmderr = false then none
      else i.errcode :=
  if_congr (i.clearStatus v).clean_iff rfl rfl

theorem FlashState.clearStatus_eq (f : FlashState) (v : Word) : f.clearStatus v = { f with
    eop := if v.getLsbD 2 then false else f.eop
    wrperr := if v.getLsbD 3 then false else f.wrperr
    pgerr := if v.getLsbD 4 then false else f.pgerr
    verr := if v.getLsbD 5 then false else f.verr
    cmderr := if v.getLsbD 6 then false else f.cmderr
    errcode := (f.clearStatus v).errcode } := by
  simp [clearStatus, settleErrcode, Bool.if_false_left, Bool.and_comm]

theorem FlashState.clearStatus_errcode (f : FlashState) (v : Word) :
    (f.clearStatus v).errcode =
      if (f.clearStatus v).wrperr = false ∧ (f.clearStatus v).pgerr = false ∧ (f.clearStatus v).verr = false ∧
        (f.clearStatus v).cmderr = false then none
      else f.errcode :=
  if_congr (f.clearStatus v).clean_iff rfl rfl

/-! ### Reserved values (30_encoding.md R126, R132) -/

/-- A command word that decodes to no instruction is its register's reserved write (30_encoding.md R126, R132). -/
theorem writeCommand_reserved {r : CmdReg} {v : Word} (h : ∀ i, decode r v ≠ .ok i) (s : State) :
    writeCommand r v s = .next (reservedWrite (reservedWord r v) s) := by
  rcases writeCommand_cases r v s with ⟨i, hd, -⟩ | ⟨e, hd, hw⟩
  · exact absurd hd (h i)
  · rw [hw, decode_error r v e hd]

/-- A reserved value of I2C_CMD records CMD_RESERVED and changes nothing else (30_encoding.md R126). -/
theorem writeReg_i2cCmd_reserved {v : Word} (h : ∀ i, decode .i2cCmd v ≠ .ok i) (s : State) :
    writeReg .i2cCmd v s = .next (s.setI2c (s.i2c.withCmdError .cmdReserved)) := by
  rw [← s.i2c.raise_of_cmderr rfl]
  exact writeCommand_reserved h s

/-- A reserved value of FL_CMD records CMD_RESERVED and changes nothing else (30_encoding.md R132). -/
theorem writeReg_flCmd_reserved {v : Word} (h : ∀ i, decode .flCmd v ≠ .ok i) (s : State) :
    writeReg .flCmd v s = .next (s.setFl (s.fl.withCmdError .cmdReserved)) := by
  rw [← s.fl.raise_of_cmderr rfl]
  exact writeCommand_reserved h s

/-- No row of FL_CMD fits a value of 4 or more (30_encoding.md R132). -/
theorem decode_flCmd_of_four_le {v : Word} (hv : 4 ≤ v.toNat) : decode .flCmd v = .error (.flCmd v) := by
  have hne (k : Word) (hk : k.toNat < 4) : v ≠ k := by rintro rfl; omega
  rw [decode_flCmd, if_neg (hne 0#32 (by decide)), if_neg (hne 1#32 (by decide)), if_neg (hne 2#32 (by decide)),
    if_neg (hne 3#32 (by decide))]

/-! ### The obligations -/

/-- Settles O3: the decoder reads exactly the valid words, and R126 states validity by the five fields. -/
theorem i2cWordIsValidOrRejected : Obligations.I2cWordIsValidOrRejected :=
  fun v => ⟨(validI2cWord_iff v).symm.trans (decodes_i2cCmd_iff_valid v).symm, writeReg_i2cCmd_reserved⟩

/-- Settles O4: the four rows of FL_CMD, and the write of a value that none of them fits. -/
theorem flashWordIsValidOrRejected : Obligations.FlashWordIsValidOrRejected := by
  refine ⟨decode_flCmd _, decode_flCmd _, decode_flCmd _, decode_flCmd _, fun v hv => ?_⟩
  have reserved : ∀ i, decode .flCmd v ≠ .ok i := fun i => by rw [decode_flCmd_of_four_le hv]; exact nofun
  exact ⟨reserved, writeReg_flCmd_reserved reserved⟩

/-- Settles O48: the flags are those of `clearStatus`, and the code is settled on the flags left. -/
theorem statusWritesClearFlags : Obligations.StatusWritesClearFlags := fun s v =>
  ⟨⟨_, rfl, congrArg s.setI2c (s.i2c.clearStatus_eq v), s.i2c.clearStatus_errcode v⟩,
    _, rfl, congrArg s.setFl (s.fl.clearStatus_eq v), s.fl.clearStatus_errcode v⟩

end Sys2Proof.Machine
end

section
/-! PROOFS. The I2CM commands: the checks of a value written to I2C_CMD in their order, and what an accepted command
changes (40_i2c_master.md R181 to R186). -/

namespace Sys2Proof.Machine

/-! ### A command behind its checks (40_i2c_master.md R186) -/

/-- What the command does to I2CM once it is past its checks (40_i2c_master.md R181 to R185); FPROG's instructions
leave I2CM alone. -/
def I2cState.accepted (i : I2cState) : Instr → I2cState
  | .i2cStart => i.acceptStart
  | .i2cAddrw a => i.loadFrame (addressFrame a) .addressing
  | .i2cWrite b => i.loadFrame b .transmitting
  | .i2cStop => i.acceptStop
  | .i2cNop | .flNop | .flErasePage | .flProgramWord | .flLock | .flKey _ => i

/-- Every I2CM instruction but NOP is its accepted effect behind the checks, the acceptance table being the third. -/
theorem exec_eq_command {c : Instr} (hreg : c.reg = .i2cCmd) (hnop : c ≠ .i2cNop) (s : State) :
    exec c s = .next (s.setI2c (s.i2c.command (i2cAccepts c s.i2c.st s.i2c.spend) (s.i2c.accepted c))) := by
  cases c
  case i2cNop => exact absurd rfl hnop
  case i2cStart => rw [i2cAccepts_start]; rfl
  case i2cAddrw a => rw [i2cAccepts_addrw]; rfl
  case i2cWrite b => rw [i2cAccepts_write]; rfl
  case i2cStop => rw [i2cAccepts_stop]; rfl
  all_goals cases hreg

theorem I2cState.command_of_disabled {i : I2cState} (hen : i.en = false) (allowed : Bool) (accepted : I2cState) :
    i.command allowed accepted = i.withCmdError .cmdDisabled := by
  simp [command, hen, i.raise_of_cmderr (c := .cmdDisabled) rfl]

theorem I2cState.command_of_not_allowed {i : I2cState} (hen : i.en = true) (accepted : I2cState) :
    i.command false accepted = i.withCmdError .cmdSequence := by
  simp [command, hen, i.raise_of_cmderr (c := .cmdSequence) rfl]

theorem I2cState.command_of_allowed {i : I2cState} (hen : i.en = true) (accepted : I2cState) :
    i.command true accepted = accepted := by
  simp [command, hen]

theorem writeReg_i2cCmd_eq_exec {v : Word} {c : Instr} (hd : decode .i2cCmd v = .ok c) (s : State) :
    writeReg .i2cCmd v s = exec c s := by
  simp [writeReg, writeCommand, hd]

/-- An accepted command keeps every error flag and the code (40_i2c_master.md R181 to R184). -/
theorem I2cState.accepted_keeps_errors (i : I2cState) (c : Instr) :
    (i.accepted c).nackf = i.nackf ∧ (i.accepted c).tof = i.tof ∧ (i.accepted c).cmderr = i.cmderr ∧
      (i.accepted c).errcode = i.errcode := by
  cases c
  case i2cStart => by_cases hidle : i.st = .idle <;> simp [accepted, acceptStart, hidle]
  all_goals exact ⟨rfl, rfl, rfl, rfl⟩

/-- An accepted command enters another state, or makes a start pending (40_i2c_master.md R181 to R184). -/
theorem I2cState.accepted_moves_on {i : I2cState} {c : Instr} (hacc : i2cAccepts c i.st i.spend = true) :
    (i.accepted c).st ≠ i.st ∨ (i.accepted c).spend ≠ i.spend := by
  cases c
  case i2cStart =>
    rw [i2cAccepts_start] at hacc
    by_cases hidle : i.st = .idle
    · exact .inl (by simp [accepted, acceptStart, hidle])
    · obtain ⟨-, hspend⟩ : i.st = .stopping ∧ i.spend = false := by simpa [allowsStart, hidle] using hacc
      exact .inr (by simp [accepted, acceptStart, hidle, hspend])
  case i2cAddrw a =>
    rw [i2cAccepts_addrw, beq_iff_eq] at hacc
    exact .inl (by simp [accepted, loadFrame, hacc])
  case i2cWrite b =>
    rw [i2cAccepts_write, beq_iff_eq] at hacc
    exact .inl (by simp [accepted, loadFrame, hacc])
  case i2cStop =>
    rw [i2cAccepts_stop, allowsStop, Bool.or_eq_true, beq_iff_eq, beq_iff_eq] at hacc
    exact .inl (by rcases hacc with hst | hst <;> simp [accepted, acceptStop, hst])
  all_goals simp [i2cAccepts] at hacc

/-! ### The obligations -/

/-- Settles O8: each NOP is the first row of its register, and answers the state it is given. -/
theorem nopsChangeNothing : Obligations.NopsChangeNothing := ⟨decode_i2cCmd _, decode_flCmd _, fun _ => ⟨rfl, rfl⟩⟩

/-- Settles O13: a value is reserved, NOP, or a command behind its checks, and those are the branches of `command`. -/
theorem i2cCommandChecksInOrder : Obligations.I2cCommandChecksInOrder := by
  intro v s
  refine ⟨fun hinvalid => ?_, fun hvalid => ?_⟩
  · have hno_row : ¬ ∃ c, decode .i2cCmd v = .ok c := by rw [decodes_i2cCmd_iff_valid, hinvalid]; decide
    exact writeReg_i2cCmd_reserved (fun c hc => hno_row ⟨c, hc⟩) s
  · obtain ⟨c, hd⟩ := (decodes_i2cCmd_iff_valid v).2 hvalid
    have hcommand (hnop : c ≠ .i2cNop) := exec_eq_command (decode_reg _ _ _ hd) hnop s
    rw [writeReg_i2cCmd_eq_exec hd]
    refine ⟨c, hd, ?_, fun hnop hen => ?_, fun hnop hen hacc => ?_, fun hnop hen hacc => ?_⟩
    · rintro rfl; rfl
    · rw [hcommand hnop, I2cState.command_of_disabled hen]
    · rw [hcommand hnop, hacc, I2cState.command_of_not_allowed hen]
    · rw [hcommand hnop, hacc, I2cState.command_of_allowed hen]
      refine ⟨_, rfl, rfl, fun heq => ?_, s.i2c.accepted_keeps_errors c⟩
      have hsame : s.i2c.accepted c = s.i2c := congrArg State.i2c heq
      rcases I2cState.accepted_moves_on hacc with h | h <;> exact h (by rw [hsame])

end Sys2Proof.Machine
end

section
/-! PROOFS. The micro-phases of a start, of a data bit and of the acknowledge, each by its own tick (40_i2c_master.md
R160 to R171). -/

namespace Sys2Proof.Machine

/-! ### A tick of an enabled engine (40_i2c_master.md R160, R161) -/

/-- The step of a tick in a state that has one is the action of the phase. -/
theorem step_phaseAction {s : State} {env : BusLines} {rest : List Turn} (hs : s.sched = .i2cTick env :: rest)
    (hen : s.i2c.tickEnabled = true) :
    step s = .next ({ s with sched := rest }.applyI2c (s.i2c.phaseAction env)) := by
  rw [step_i2cTick s env rest hs, I2cState.tick, if_pos hen]

theorem State.applyI2c_quiet (s : State) (i : I2cState) : s.applyI2c i.quiet = s.setI2c i := by
  simp [applyI2c, setI2c, I2cState.quiet]

theorem I2cState.tickEnabled_of_starting {i : I2cState} (h : i.st = .starting) : i.tickEnabled = true := by
  simp [tickEnabled, h]

theorem I2cState.tickEnabled_of_stopping {i : I2cState} (h : i.st = .stopping) : i.tickEnabled = true := by
  simp [tickEnabled, h]

theorem I2cState.tickEnabled_of_framing {i : I2cState} (h : i.st = .addressing ∨ i.st = .transmitting) :
    i.tickEnabled = true := by
  rcases h with h | h <;> simp [tickEnabled, h]

theorem I2cState.sclLevel_of_released {i : I2cState} {env : BusLines} (hdrv : i.sclDrv = false)
    (henv : env.scl = true) : i.sclLevel env = true := by
  rw [sclLevel_eq_decide]; exact decide_eq_true ⟨hdrv, henv⟩

/-- A sample that passes clears the wait counter and goes on (40_i2c_master.md R161). -/
theorem I2cState.wait_passed (i : I2cState) {cond : Bool} (h : cond = true) (code : I2cError)
    (pass : I2cState → I2cEffect) : i.wait cond code pass = pass { i with wcnt := 0#16 } :=
  if_pos h

/-! ### The error of a missing acknowledge, as the statement writes it (60_exceptions.md R293, R295) -/

theorem I2cState.raise_of_nackf (i : I2cState) {c : I2cError} (h : c.flag = .nackf) : i.raise c = { i with
    nackf := true
    errcode := if i.nackf = false ∧ i.tof = false ∧ i.cmderr = false then some c else i.errcode } := by
  simp only [raise, setFlag, h, clean_iff]

theorem I2cState.nackCode_flag (i : I2cState) : i.nackCode.flag = .nackf := by
  unfold nackCode
  split <;> rfl

theorem I2cState.phaseA3_acknowledged {i : I2cState} (hst : i.st = .addressing ∨ i.st = .transmitting)
    (hack : i.ack = true) :
    i.phaseA3 = quiet { i with
      sclDrv := true, sent := decide (i.st = .transmitting), st := .ready, ph := .noPhase } := by
  have hsent : (i.st != .addressing) = decide (i.st = .transmitting) := by
    rcases hst with hst | hst <;> rw [hst] <;> rfl
  simp only [phaseA3, hack, if_true, hsent]

theorem I2cState.phaseA3_not_acknowledged {i : I2cState} (hack : i.ack = false) :
    i.phaseA3 = quiet { i with
      sclDrv := true, st := .stopping, ph := .p0, wcnt := 0#16, nackf := true
      errcode := if i.nackf = false ∧ i.tof = false ∧ i.cmderr = false then some i.nackCode else i.errcode } := by
  simp only [phaseA3, hack, Bool.false_eq_true, if_false, raise_of_nackf _ i.nackCode_flag]

/-! ### Shifting and the status bits -/

/-- A left shift by one drops the top bit and takes a 0 in (40_i2c_master.md R167). -/
theorem byte_shiftLeft_one (b : Byte) : b <<< 1 = b.extractLsb' 0 7 ++ 0#1 := by
  revert b; decide

/-- SB, MSL and BUSY, the three low bits of I2C_STAT, read 1 in STARTED (10_state.md R43). -/
theorem I2cState.statWord_of_started {i : I2cState} (h : i.st = .started) (env : BusLines) :
    (i.statWord env).extractLsb' 0 3 = 7#3 := by
  obtain ⟨hsb, hmsl, hbusy, -⟩ := i.statWord_flags env
  refine BitVec.eq_of_getLsbD_eq fun k hk => ?_
  rw [BitVec.getLsbD_extractLsb', Nat.zero_add]
  interval_cases k
  · simp [hsb, sb, h]
  · simp [hmsl, msl, h]
  · simp [hbusy, busy, h]

/-! ### The obligations -/

/-- Settles O23: S0 is a wait that passes, and S1 has one action; the status bits are those of STARTED. -/
theorem startConditionTakesTwoTicks : Obligations.StartConditionTakesTwoTicks := by
  intro s env rest hs hst
  rw [step_phaseAction hs (I2cState.tickEnabled_of_starting hst)]
  refine ⟨fun hph hscl hsda henv => ?_, fun hph => ?_⟩
  · have hfree : (s.i2c.sclLevel env && s.i2c.sdaLevel env) = true := by
      simp [I2cState.sclLevel, I2cState.sdaLevel, hscl, hsda, henv]
    simp only [I2cState.phaseAction, hph, I2cState.phaseS0, I2cState.wait_passed _ hfree]
    rfl
  · simp only [I2cState.phaseAction, hph, I2cState.phaseS1, State.applyI2c_quiet]
    exact ⟨_, rfl, rfl, I2cState.statWord_of_started rfl⟩

/-- Settles O24: B0, B1 and B3 have one action each, and B2 is a wait that passes. -/
theorem dataBitPhases : Obligations.DataBitPhases := by
  intro s env rest hs hst
  rw [step_phaseAction hs (I2cState.tickEnabled_of_framing hst)]
  refine ⟨fun hph => ?_, fun hph => ?_, fun hph hscl henv => ?_, fun hph n hn => ?_⟩
  · have hbit : (!s.i2c.shreg.getLsbD 7) = if s.i2c.shreg.getLsbD 7 = false then true else false := by
      cases s.i2c.shreg.getLsbD 7 <;> rfl
    simp only [I2cState.phaseAction, hph, I2cState.phaseB0, State.applyI2c_quiet, hbit]
    rfl
  · simp only [I2cState.phaseAction, hph, I2cState.phaseB1, State.applyI2c_quiet]
    rfl
  · simp only [I2cState.phaseAction, hph, I2cState.phaseB2,
      I2cState.wait_passed _ (I2cState.sclLevel_of_released hscl henv), State.applyI2c_quiet]
    rfl
  · simp only [I2cState.phaseAction, hph, I2cState.phaseB3, State.applyI2c_quiet, hn, Nat.add_sub_cancel,
      byte_shiftLeft_one]
    rfl

/-- Settles O25: A0, A1 and A3 have one action each, A3's by the acknowledge, and A2 is a wait that passes. -/
theorem acknowledgePhases : Obligations.AcknowledgePhases := by
  intro s env rest hs hst
  rw [step_phaseAction hs (I2cState.tickEnabled_of_framing hst)]
  refine ⟨fun hph => ?_, fun hph => ?_, fun hph hscl hsda henv => ?_, fun hph hack => ?_, fun hph hack => ?_⟩
  · simp only [I2cState.phaseAction, hph, I2cState.phaseA0, State.applyI2c_quiet]
    rfl
  · simp only [I2cState.phaseAction, hph, I2cState.phaseA1, State.applyI2c_quiet]
    rfl
  · simp only [I2cState.phaseAction, hph, I2cState.phaseA2,
      I2cState.wait_passed _ (I2cState.sclLevel_of_released hscl henv), I2cState.sdaLevel, hsda]
    rfl
  · simp only [I2cState.phaseAction, hph, I2cState.phaseA3_acknowledged hst hack, State.applyI2c_quiet]
    rfl
  · simp only [I2cState.phaseAction, hph, I2cState.phaseA3_not_acknowledged hack, State.applyI2c_quiet]
    rfl

end Sys2Proof.Machine
end

section
/-! PROOFS. The four waits: what a failing sample does, and how many of them a wait tolerates (40_i2c_master.md R161,
R174, R175, R193). -/

namespace Sys2Proof.Machine

/-! ### The waits as one (40_i2c_master.md R161, R175) -/

theorem wait_places {st : I2cSt} {ph : I2cPhase} (hf : phaseFits st ph = true) (hw : ph.isWait = true) :
    (st = .starting ∧ ph = .s0) ∨ ((st = .addressing ∨ st = .transmitting) ∧ (ph = .b2 ∨ ph = .a2)) ∨
      (st = .stopping ∧ ph = .p2) := by
  cases ph
  case s0 | b2 | a2 | p2 => cases st <;> simp [phaseFits] at hf ⊢
  all_goals cases hw

theorem I2cState.frameTimeout_eq_waitCode {i : I2cState} (hst : i.st = .addressing ∨ i.st = .transmitting)
    (hph : i.ph = .b2 ∨ i.ph = .a2) : i.frameTimeout = waitCode i.st i.ph := by
  rcases hst with hst | hst <;> rcases hph with hph | hph <;> simp [frameTimeout, waitCode, hst, hph]

/-- A tick of S0, B2, A2 or P2 is `wait` on the condition and with the code of the place; passing it goes to another
phase and keeps `st`, `wcnt`, TOF and, but for the start condition of S0, SDA's driver. -/
theorem I2cState.tick_eq_wait {i : I2cState} (hf : phaseFits i.st i.ph = true) (hw : i.ph.isWait = true)
    (env : BusLines) :
    ∃ pass : I2cState → I2cEffect, i.tick env = i.wait (i.waitHolds env) (waitCode i.st i.ph) pass ∧
      ∀ j, (pass j).i2c.st = j.st ∧ (pass j).i2c.wcnt = j.wcnt ∧ (pass j).i2c.tof = j.tof ∧ (pass j).i2c.ph ≠ i.ph ∧
        (i.ph ≠ .s0 → (pass j).i2c.sdaDrv = j.sdaDrv) := by
  rcases wait_places hf hw with ⟨hst, hph⟩ | ⟨hst, hph⟩ | ⟨hst, hph⟩
  · simp only [tick, tickEnabled_of_starting hst, if_true, phaseAction, phaseS0, waitHolds, waitCode, hph]
    exact ⟨_, rfl, fun j => ⟨rfl, rfl, rfl, nofun, fun hs0 => absurd rfl hs0⟩⟩
  · rw [← frameTimeout_eq_waitCode hst hph]
    rcases hph with hph | hph <;>
      simp only [tick, tickEnabled_of_framing hst, if_true, phaseAction, phaseB2, phaseA2, waitHolds, hph,
        reduceCtorEq, if_false] <;>
      exact ⟨_, rfl, fun j => ⟨rfl, rfl, rfl, nofun, fun _ => rfl⟩⟩
  · simp only [tick, tickEnabled_of_stopping hst, if_true, phaseAction, phaseP2, waitHolds, waitCode, hph]
    exact ⟨_, rfl, fun j => ⟨rfl, rfl, rfl, nofun, fun _ => rfl⟩⟩

/-! ### A sample that fails -/

theorem waitCode_flag (st : I2cSt) (ph : I2cPhase) : (waitCode st ph).flag = .tof := by
  unfold waitCode
  split <;> rfl

theorem waitCode_taxonomy (st : I2cSt) (ph : I2cPhase) : (waitCode st ph).taxonomy = .busTimeout := by
  unfold waitCode
  split <;> rfl

theorem I2cState.raise_of_tof (i : I2cState) {c : I2cError} (h : c.flag = .tof) : i.raise c = { i with
    tof := true
    errcode := if i.nackf = false ∧ i.tof = false ∧ i.cmderr = false then some c else i.errcode } := by
  simp only [raise, setFlag, h, clean_iff]

/-- In every wait but S0 I2CM owns the bus, so that a timeout there is seen as a Release (40_i2c_master.md R174). -/
theorem I2cState.releaseEvents_of_wait {i : I2cState} (hf : phaseFits i.st i.ph = true) (hw : i.ph.isWait = true) :
    i.releaseEvents = if i.ph = .s0 then [] else [.release] := by
  rcases wait_places hf hw with ⟨hst, hph⟩ | ⟨hst | hst, hph | hph⟩ | ⟨hst, hph⟩ <;>
    simp [releaseEvents, owned, msl, hst, hph]

/-- The state a wait is left in when its failing samples were counted to `n` and the schedule goes on with `rest`. -/
def State.counted (s : State) (rest : List Turn) (n : Nat) : State :=
  { s with sched := rest, i2c := { s.i2c with wcnt := BitVec.ofNat 16 n } }

theorem State.counted_wcnt (s : State) (rest : List Turn) {n : Nat} (hn : n ≤ s.i2c.budget.toNat) :
    (s.counted rest n).i2c.wcnt.toNat = n :=
  (BitVec.toNat_ofNat n 16).trans (Nat.mod_eq_of_lt (hn.trans_lt s.i2c.budget.isLt))

/-- A failing sample with budget left counts and does nothing else (40_i2c_master.md R161). -/
theorem step_of_failed_sample {s : State} {env : BusLines} {rest : List Turn} (hs : s.sched = .i2cTick env :: rest)
    (hf : phaseFits s.i2c.st s.i2c.ph = true) (hw : s.i2c.ph.isWait = true) (hfails : s.i2c.waitHolds env = false)
    (hleft : s.i2c.wcnt.toNat < s.i2c.budget.toNat) : step s = .next (s.counted rest (s.i2c.wcnt.toNat + 1)) := by
  obtain ⟨pass, htick, -⟩ := I2cState.tick_eq_wait hf hw env
  have hcount : s.i2c.wcnt + 1#16 = BitVec.ofNat 16 (s.i2c.wcnt.toNat + 1) := by simp [BitVec.ofNat_add]
  rw [step_i2cTick s env rest hs, htick, I2cState.wait, hfails, if_neg nofun, if_neg (by omega), State.applyI2c_quiet,
    hcount]
  rfl

/-- A failing sample with the budget spent is the timeout of the place (40_i2c_master.md R174, R175). -/
theorem step_of_timeout {s : State} {env : BusLines} {rest : List Turn} (hs : s.sched = .i2cTick env :: rest)
    (hf : phaseFits s.i2c.st s.i2c.ph = true) (hw : s.i2c.ph.isWait = true) (hfails : s.i2c.waitHolds env = false)
    (hspent : s.i2c.budget.toNat ≤ s.i2c.wcnt.toNat) :
    step s = .next { s with
      sched := rest, trace := s.trace ++ if s.i2c.ph = .s0 then [] else [.release]
      i2c := { s.i2c with
        sclDrv := false, sdaDrv := false, spend := false, wcnt := 0#16, st := .idle, ph := .noPhase, tof := true
        errcode :=
          if s.i2c.nackf = false ∧ s.i2c.tof = false ∧ s.i2c.cmderr = false then some (waitCode s.i2c.st s.i2c.ph)
          else s.i2c.errcode } } := by
  obtain ⟨pass, htick, -⟩ := I2cState.tick_eq_wait hf hw env
  rw [step_i2cTick s env rest hs, htick, I2cState.wait, hfails, if_neg nofun, if_pos hspent, I2cState.timeout,
    I2cState.raise_of_tof _ (waitCode_flag _ _), I2cState.releaseEvents_of_wait hf hw]
  rfl

/-! ### Failing samples in a row (40_i2c_master.md R193) -/

/-- As long as the budget lasts, failing samples in a row only count. -/
theorem runSteps_of_failed_samples (bad : List BusLines) (rest : List Turn) {s : State} {k : Nat}
    (hs : s.sched = bad.map Turn.i2cTick ++ rest) (hf : phaseFits s.i2c.st s.i2c.ph = true)
    (hw : s.i2c.ph.isWait = true) (hfails : ∀ e ∈ bad, s.i2c.waitHolds e = false) (hk : s.i2c.wcnt = BitVec.ofNat 16 k)
    (hleft : k + bad.length ≤ s.i2c.budget.toNat) :
    runSteps bad.length s = .next (s.counted rest (k + bad.length)) := by
  induction bad generalizing s k with
  | nil =>
    have hsame : s.sched = rest := hs
    simp [runSteps, State.counted, ← hsame, ← hk]
  | cons e bad ih =>
    rw [List.length_cons] at hleft ⊢
    have hwcnt : s.i2c.wcnt.toNat = k := by rw [hk]; exact s.counted_wcnt rest (by omega)
    have hfirst := step_of_failed_sample (rest := bad.map Turn.i2cTick ++ rest) hs hf hw
      (hfails e List.mem_cons_self) (by omega)
    rw [runSteps, hfirst, hwcnt, ← Nat.add_assoc, Nat.add_right_comm]
    exact ih (s := s.counted _ (k + 1)) rfl hf hw (fun e he => hfails e (List.mem_cons_of_mem _ he)) rfl
      (by rw [Nat.add_right_comm]; exact hleft)

/-- A passing sample ends the wait in the same state, without an error (40_i2c_master.md R161). -/
theorem step_of_passing_sample {s : State} {env : BusLines} {rest : List Turn} (hs : s.sched = .i2cTick env :: rest)
    (hf : phaseFits s.i2c.st s.i2c.ph = true) (hw : s.i2c.ph.isWait = true) (hholds : s.i2c.waitHolds env = true) :
    ∃ t, step s = .next t ∧ t.i2c.tof = s.i2c.tof ∧ t.i2c.st = s.i2c.st ∧ t.i2c.wcnt = 0#16 ∧ t.i2c.ph ≠ s.i2c.ph := by
  obtain ⟨pass, htick, hpass⟩ := I2cState.tick_eq_wait hf hw env
  obtain ⟨hst, hwcnt, htof, hph, -⟩ := hpass { s.i2c with wcnt := 0#16 }
  rw [step_i2cTick s env rest hs, htick, I2cState.wait_passed _ hholds]
  exact ⟨_, rfl, htof, hst, hwcnt, hph⟩

/-! ### The obligations -/

/-- Settles O27: the two cases of a failing sample, and the class of the codes. -/
theorem failedWaitStaysOrTimesOut : Obligations.FailedWaitStaysOrTimesOut :=
  ⟨fun _ _ _ hs hf hw hfails => ⟨step_of_failed_sample hs hf hw hfails, step_of_timeout hs hf hw hfails⟩,
    waitCode_taxonomy⟩

/-- Settles O28: the samples within the budget count, and the next one passes the wait or, failing, finds the budget
spent. -/
theorem waitToleratesExactlyItsBudget : Obligations.WaitToleratesExactlyItsBudget := by
  intro s bad rest hf hw hfails hbegun hs
  have tolerated (first : List BusLines) (later : List Turn) (hsched : s.sched = first.map Turn.i2cTick ++ later)
      (hfirst : ∀ e ∈ first, s.i2c.waitHolds e = false) (hle : first.length ≤ s.i2c.budget.toNat) :
      runSteps first.length s = .next (s.counted later first.length) := by
    have hrun := runSteps_of_failed_samples (k := 0) first later hsched hf hw hfirst hbegun (by omega)
    rwa [Nat.zero_add] at hrun
  refine ⟨fun hle => ⟨tolerated bad rest hs hfails hle, fun good hgood hnext => ?_⟩, fun hlen => ?_⟩
  · obtain ⟨later, rfl⟩ := List.head?_eq_some_iff.1 hnext
    obtain ⟨t, ht, hkept⟩ := step_of_passing_sample (s := s.counted (.i2cTick good :: later) bad.length) rfl hf hw hgood
    rw [runSteps_add _ 1 _ _ (tolerated bad _ hs hfails hle), runSteps, ht]
    exact ⟨t, rfl, hkept⟩
  · obtain ⟨first, last, rfl⟩ : ∃ first last, bad = first ++ [last] :=
      ⟨_, _, (List.dropLast_append_getLast (List.ne_nil_of_length_eq_add_one hlen)).symm⟩
    have hfirst : first.length = s.i2c.budget.toNat := by simpa using hlen
    have hrun := tolerated first (.i2cTick last :: rest) (by simpa using hs) (fun e he => hfails e (by simp [he]))
      hfirst.le
    have hlast := step_of_timeout (s := s.counted (.i2cTick last :: rest) first.length) rfl hf hw
      (hfails last (by simp)) (by rw [s.counted_wcnt _ hfirst.le]; exact hfirst.ge)
    rw [List.length_append, List.length_singleton, runSteps_add _ 1 _ _ hrun, runSteps, hlast]
    exact ⟨_, rfl, rfl, rfl, rfl⟩

end Sys2Proof.Machine
end

section
/-! PROOFS. Who drives the bus: when SDA's driver moves while SCL is released (40_i2c_master.md R177), and that I2CM
owns the bus exactly while the wire trace has an open start (R159). -/

namespace Sys2Proof.Machine

/-! ### What a tick does to SDA's driver (40_i2c_master.md R177) -/

/-- The phases that set SDA up, B0, A0 and P0, stand with SCL low. -/
theorem driversExpected_of_setup {st : I2cSt} {ph : I2cPhase} (hf : phaseFits st ph = true)
    (hph : ph = .b0 ∨ ph = .a0 ∨ ph = .p0) : (driversExpected st ph).1 = some true := by
  rcases hph with rfl | rfl | rfl <;> cases st <;> simp [phaseFits, driversExpected] at hf ⊢

theorem I2cState.Inv.sclDrv_of_setup {i : I2cState} (hinv : i.Inv) (hph : i.ph = .b0 ∨ i.ph = .a0 ∨ i.ph = .p0) :
    i.sclDrv = true := by
  have hscl := hinv.scl
  rw [driversExpected_of_setup hinv.phase hph] at hscl
  exact beq_iff_eq.1 hscl

/-- A disabled I2CM drives neither line (40_i2c_master.md R180). -/
theorem I2cState.Inv.sdaDrv_of_disabled {i : I2cState} (hinv : i.Inv) (hen : i.en = false) : i.sdaDrv = false := by
  have hsda := hinv.sda
  rw [hinv.off_iff_disabled.2 hen] at hsda
  exact beq_iff_eq.1 hsda

/-- A wait moves SDA's driver by passing or by timing out, and not by staying. -/
theorem I2cState.wait_moves_sda {i : I2cState} {cond : Bool} {c : I2cError} {pass : I2cState → I2cEffect}
    (hpass : ∀ j, (pass j).i2c.sdaDrv = j.sdaDrv) (hmoves : (i.wait cond c pass).i2c.sdaDrv ≠ i.sdaDrv) :
    cond = false ∧ i.wait cond c pass = i.timeout c := by
  rcases i.wait_cases cond c pass with ⟨-, e⟩ | ⟨hcond, -, e⟩ | ⟨-, -, e⟩
  · rw [e] at hmoves; exact absurd (hpass _) hmoves
  · exact ⟨hcond, e⟩
  · rw [e] at hmoves; exact absurd rfl hmoves

/-- With SCL released, a phase that does not wait leaves SDA's driver alone, but for P3. -/
theorem I2cState.phaseAction_keeps_sda {i : I2cState} (hinv : i.Inv) (hscl : i.sclDrv = false)
    (hw : i.ph.isWait = false) (hp3 : i.ph ≠ .p3) (env : BusLines) : (i.phaseAction env).i2c.sdaDrv = i.sdaDrv := by
  have hsetup (hph : i.ph = .b0 ∨ i.ph = .a0 ∨ i.ph = .p0) : False := by
    rw [hinv.sclDrv_of_setup hph] at hscl; cases hscl
  cases hph : i.ph <;> simp only [phaseAction, hph]
  case s0 | b2 | a2 | p2 => rw [hph] at hw; cases hw
  case b0 | a0 | p0 => exact (hsetup (by simp [hph])).elim
  case p3 => exact absurd hph hp3
  case a3 => unfold phaseA3; split <;> simp
  all_goals rfl

/-- With SCL released, a tick that moves SDA's driver is in S0, in P3, or a wait that times out. -/
theorem I2cState.tick_moves_sda {i : I2cState} (hinv : i.Inv) (hscl : i.sclDrv = false) {env : BusLines}
    (hmoves : (i.tick env).i2c.sdaDrv ≠ i.sdaDrv) :
    (i.ph = .s0 ∨ i.ph = .p3) ∨
      (i.ph.isWait = true ∧ i.waitHolds env = false ∧ i.tick env = i.timeout (waitCode i.st i.ph)) := by
  by_cases hs0 : i.ph = .s0
  · exact .inl (.inl hs0)
  by_cases hp3 : i.ph = .p3
  · exact .inl (.inr hp3)
  cases hw : i.ph.isWait
  · have hkeeps : (i.tick env).i2c.sdaDrv = i.sdaDrv := by
      unfold tick
      split
      · exact phaseAction_keeps_sda hinv hscl hw hp3 env
      · rfl
    exact absurd hkeeps hmoves
  · obtain ⟨pass, htick, hpass⟩ := tick_eq_wait hinv.phase hw env
    rw [htick] at hmoves ⊢
    have hpass_keeps (j : I2cState) : (pass j).i2c.sdaDrv = j.sdaDrv := by
      obtain ⟨-, -, -, -, hsda⟩ := hpass j
      exact hsda hs0
    exact .inr ⟨rfl, wait_moves_sda hpass_keeps hmoves⟩

/-- A timeout ends in IDLE with TOF set and both lines released (40_i2c_master.md R174). -/
theorem I2cState.timeout_releases (i : I2cState) {c : I2cError} (hc : c.flag = .tof) :
    (i.timeout c).i2c.st = .idle ∧ (i.timeout c).i2c.tof = true ∧ (i.timeout c).i2c.sclDrv = false ∧
      (i.timeout c).i2c.sdaDrv = false := by
  simp [timeout, hc]

/-! ### What the host does to SDA's driver -/

theorem I2cState.accepted_sdaDrv (i : I2cState) (c : Instr) : (i.accepted c).sdaDrv = i.sdaDrv := by
  cases c
  case i2cStart => by_cases hidle : i.st = .idle <;> simp [accepted, acceptStart, hidle]
  all_goals rfl

/-- No command moves SDA's driver: it moves in the phases that follow. -/
theorem exec_keeps_sda {c : Instr} {s t : State} (h : exec c s = .next t) : t.i2c.sdaDrv = s.i2c.sdaDrv := by
  by_cases hreg : c.reg = .i2cCmd
  · by_cases hnop : c = .i2cNop
    · subst hnop; cases h; rfl
    · rw [exec_eq_command hreg hnop] at h
      cases h
      rcases s.i2c.command_cases (i2cAccepts c s.i2c.st s.i2c.spend) (s.i2c.accepted c) with
        ⟨-, e⟩ | ⟨-, -, e⟩ | ⟨-, -, e⟩ <;> rw [State.setI2c_i2c, e]
      · exact s.i2c.raise_sdaDrv _
      · exact s.i2c.accepted_sdaDrv c
      · exact s.i2c.raise_sdaDrv _
  · rw [exec_keeps_i2c h hreg]

/-- A write of I2C_CTRL that moves SDA's driver is a disable, which releases both lines (40_i2c_master.md R180). -/
theorem I2cState.writeCtrl_moves_sda {i : I2cState} {v : Word} (hmoves : (i.writeCtrl v).i2c.sdaDrv ≠ i.sdaDrv) :
    i.en = true ∧ (i.writeCtrl v).i2c.en = false ∧ (i.writeCtrl v).i2c.sclDrv = false ∧
      (i.writeCtrl v).i2c.sdaDrv = false := by
  unfold writeCtrl at hmoves ⊢
  split_ifs at hmoves ⊢ with hv hen hen
  · exact absurd rfl hmoves
  · exact absurd rfl hmoves
  · exact ⟨hen, rfl, rfl, rfl⟩
  · exact absurd rfl hmoves

/-- A register write that moves SDA's driver is a disable. -/
theorem writeReg_moves_sda {r : Reg} {v : Word} {s t : State} (h : writeReg r v s = .next t)
    (hmoves : t.i2c.sdaDrv ≠ s.i2c.sdaDrv) :
    s.i2c.en = true ∧ t.i2c.en = false ∧ t.i2c.sclDrv = false ∧ t.i2c.sdaDrv = false := by
  rcases writeReg_cases r v s t h with ⟨-, rfl⟩ | ⟨-, rfl⟩ | ⟨-, rfl⟩ | ⟨-, rfl⟩ | ⟨-, ⟨c, -, hx⟩ | rfl⟩ |
    ⟨-, rfl⟩ | ⟨-, rfl⟩ | ⟨-, rfl⟩ | ⟨-, ⟨c, -, hx⟩ | rfl⟩ | ⟨-, rfl⟩
  · exact I2cState.writeCtrl_moves_sda hmoves
  · exact absurd rfl hmoves
  · exact absurd rfl hmoves
  · exact absurd rfl hmoves
  · exact absurd (exec_keeps_sda hx) hmoves
  · exact absurd (s.i2c.raise_sdaDrv _) hmoves
  · exact absurd rfl hmoves
  · exact absurd rfl hmoves
  · exact absurd rfl hmoves
  · exact absurd (exec_keeps_sda hx) hmoves
  · exact absurd rfl hmoves
  · exact absurd rfl hmoves

/-! ### Ownership and the wire trace (40_i2c_master.md R159) -/

/-- The events of an action take an observer from what I2CM owned before it to what it owns after it. -/
def I2cEffect.Observed (i : I2cState) (e : I2cEffect) : Prop :=
  e.events.foldl observe (some i.owned) = some e.i2c.owned

theorem observed_quiet {i j : I2cState} (h : j.owned = i.owned) : I2cEffect.Observed i ⟨j, []⟩ :=
  congrArg some h.symm

theorem observed_frame {i j : I2cState} (hi : i.owned = true) (hj : j.owned = true) (b : Byte) (ack : Bool) :
    I2cEffect.Observed i ⟨j, [.frame b ack]⟩ := by
  simp [I2cEffect.Observed, hi, hj, observe]

theorem observed_start {i j : I2cState} (hi : i.owned = false) (hj : j.owned = true) :
    I2cEffect.Observed i ⟨j, [.start]⟩ := by
  simp [I2cEffect.Observed, hi, hj, observe]

theorem observed_stop {i j : I2cState} (hi : i.owned = true) (hj : j.owned = false) :
    I2cEffect.Observed i ⟨j, [.stop]⟩ := by
  simp [I2cEffect.Observed, hi, hj, observe]

/-- Letting go of the bus without a stop is seen as a Release exactly if the bus was owned (10_state.md R47). -/
theorem observed_release (i : I2cState) {j : I2cState} (hj : j.owned = false) :
    I2cEffect.Observed i ⟨j, i.releaseEvents⟩ := by
  cases hi : i.owned <;> simp [I2cEffect.Observed, I2cState.releaseEvents, hi, hj, observe]

theorem I2cState.owned_iff (i : I2cState) : i.owned = true ↔
    (i.st = .started ∨ i.st = .addressing ∨ i.st = .ready ∨ i.st = .transmitting ∨ i.st = .stopping) ∨
      (i.st = .starting ∧ i.ph = .s1) := by
  simp [owned, msl_eq_decide]

theorem I2cState.owned_of_framing {i : I2cState} (h : i.st = .addressing ∨ i.st = .transmitting) : i.owned = true := by
  rw [owned_iff]; rcases h with h | h <;> simp [h]

theorem I2cState.owned_of_stopping {i : I2cState} (h : i.st = .stopping) : i.owned = true := by
  simp [owned_iff, h]

theorem I2cState.owned_of_ready {i : I2cState} (h : i.st = .ready) : i.owned = true := by
  simp [owned_iff, h]

theorem I2cState.owned_of_started {i : I2cState} (h : i.st = .started) : i.owned = true := by
  simp [owned_iff, h]

theorem I2cState.not_owned_of_off {i : I2cState} (h : i.st = .off) : i.owned = false := by
  simp [← Bool.not_eq_true, owned_iff, h]

theorem I2cState.not_owned_of_idle {i : I2cState} (h : i.st = .idle) : i.owned = false := by
  simp [← Bool.not_eq_true, owned_iff, h]

theorem I2cState.not_owned_of_s0 {i : I2cState} (h : i.st = .starting) (hph : i.ph = .s0) : i.owned = false := by
  simp [← Bool.not_eq_true, owned_iff, h, hph]

theorem I2cState.owned_of_s1 {i : I2cState} (h : i.st = .starting) (hph : i.ph = .s1) : i.owned = true :=
  i.owned_iff.2 (.inr ⟨h, hph⟩)

theorem I2cState.raise_owned (i : I2cState) (c : I2cError) : (i.raise c).owned = i.owned := by
  simp [owned, msl]

theorem I2cState.timeout_observed (i : I2cState) (c : I2cError) : (i.timeout c).Observed i :=
  observed_release i (raise_owned _ c)

theorem I2cState.wait_observed {i : I2cState} {cond : Bool} {c : I2cError} {pass : I2cState → I2cEffect}
    (hpass : (pass { i with wcnt := 0#16 }).Observed i) : (i.wait cond c pass).Observed i := by
  rcases i.wait_cases cond c pass with ⟨-, e⟩ | ⟨-, -, e⟩ | ⟨-, -, e⟩ <;> rw [e]
  · exact hpass
  · exact i.timeout_observed c
  · exact observed_quiet rfl

/-- S0 makes the Start and S1 keeps what it opened (40_i2c_master.md R162, R163). -/
theorem I2cState.phaseAction_observed_of_starting {i : I2cState} (hf : phaseFits i.st i.ph = true)
    (hst : i.st = .starting) (env : BusLines) : (i.phaseAction env).Observed i := by
  rw [hst] at hf
  cases hph : i.ph <;> rw [hph] at hf <;> simp only [phaseAction, hph]
  case s0 => exact wait_observed (observed_start (not_owned_of_s0 hst hph) (owned_of_s1 hst rfl))
  case s1 => exact observed_quiet ((owned_of_started rfl).trans (owned_of_s1 hst hph).symm)
  all_goals cases hf

/-- A frame is sent and acknowledged within one start (40_i2c_master.md R164 to R171). -/
theorem I2cState.phaseAction_observed_of_framing {i : I2cState} (hf : phaseFits i.st i.ph = true)
    (hst : i.st = .addressing ∨ i.st = .transmitting) (env : BusLines) : (i.phaseAction env).Observed i := by
  have howned : i.owned = true := owned_of_framing hst
  have hkept {j : I2cState} (hj : j.st = i.st) : j.owned = true := owned_of_framing (hj ▸ hst)
  have hquiet {j : I2cState} (hj : j.st = i.st) : j.quiet.Observed i := observed_quiet ((hkept hj).trans howned.symm)
  cases hph : i.ph <;> simp only [phaseAction, hph]
  case b0 | b1 | b3 | a0 | a1 => exact hquiet rfl
  case b2 => exact wait_observed (hquiet rfl)
  case a2 =>
    refine wait_observed (observed_frame howned (hkept ?_) _ _)
    rfl
  case a3 =>
    unfold phaseA3
    split
    · exact observed_quiet ((owned_of_ready rfl).trans howned.symm)
    · exact observed_quiet ((raise_owned _ _).trans ((owned_of_stopping rfl).trans howned.symm))
  all_goals rcases hst with hst | hst <;> simp [hst, hph, phaseFits] at hf

/-- The Stop of P3 ends what was open, and only it does (40_i2c_master.md R172, R173). -/
theorem I2cState.phaseAction_observed_of_stopping {i : I2cState} (hf : phaseFits i.st i.ph = true)
    (hst : i.st = .stopping) (env : BusLines) : (i.phaseAction env).Observed i := by
  have howned : i.owned = true := owned_of_stopping hst
  have hquiet {j : I2cState} (hj : j.st = i.st) : j.quiet.Observed i :=
    observed_quiet ((owned_of_stopping (hj.trans hst)).trans howned.symm)
  cases hph : i.ph <;> simp only [phaseAction, hph]
  case p0 | p1 => exact hquiet rfl
  case p2 => exact wait_observed (hquiet rfl)
  case p3 => unfold phaseP3; split <;> exact observed_stop howned rfl
  all_goals simp [hst, hph, phaseFits] at hf

theorem I2cState.tick_observed {i : I2cState} (hf : phaseFits i.st i.ph = true) (env : BusLines) :
    (i.tick env).Observed i := by
  unfold tick
  split
  next hen =>
    cases hst : i.st
    case starting => exact phaseAction_observed_of_starting hf hst env
    case addressing => exact phaseAction_observed_of_framing hf (.inl hst) env
    case transmitting => exact phaseAction_observed_of_framing hf (.inr hst) env
    case stopping => exact phaseAction_observed_of_stopping hf hst env
    all_goals simp [tickEnabled, hst] at hen
  next => exact observed_quiet rfl

/-- Enabling comes from OFF, where nothing is owned; disabling lets go of the bus (40_i2c_master.md R180). -/
theorem I2cState.writeCtrl_observed {i : I2cState} (hoff : i.st = .off ↔ i.en = false) (v : Word) :
    (i.writeCtrl v).Observed i := by
  unfold writeCtrl
  split_ifs with hv hen hen
  · exact observed_quiet rfl
  · have hst : i.st = .off := hoff.2 (by simpa using hen)
    exact observed_quiet ((not_owned_of_idle rfl).trans (not_owned_of_off hst).symm)
  · exact observed_release i rfl
  · exact observed_quiet rfl

/-- Every move of I2CM writes down in the trace what it does to the ownership of the bus. -/
theorem I2cMove.observed {i : I2cState} {e : I2cEffect} (m : I2cMove i e)
    (hf : Machine.phaseFits i.st i.ph = true) (hoff : i.st = .off ↔ i.en = false) : e.Observed i := by
  cases m
  case tick env => exact I2cState.tick_observed hf env
  case ctrl v => exact I2cState.writeCtrl_observed hoff v
  case error c _ => exact observed_quiet (i.raise_owned c)
  case start he ha =>
    by_cases hidle : i.st = .idle
    · rw [I2cState.acceptStart, if_pos hidle]
      exact observed_quiet ((I2cState.not_owned_of_s0 rfl rfl).trans (I2cState.not_owned_of_idle hidle).symm)
    · rw [I2cState.acceptStart, if_neg hidle]
      exact observed_quiet rfl
  case addrw a he hs =>
    exact observed_quiet ((I2cState.owned_of_framing (.inl rfl)).trans (I2cState.owned_of_started hs).symm)
  case write b he hs =>
    exact observed_quiet ((I2cState.owned_of_framing (.inr rfl)).trans (I2cState.owned_of_ready hs).symm)
  case stop he ha =>
    rw [I2cState.allowsStop, Bool.or_eq_true, beq_iff_eq, beq_iff_eq] at ha
    have howned : i.owned = true := ha.elim I2cState.owned_of_started I2cState.owned_of_ready
    exact observed_quiet ((I2cState.owned_of_stopping rfl).trans howned.symm)
  case reset => exact observed_release i rfl
  all_goals exact observed_quiet rfl

/-! ### Off means disabled (40_i2c_master.md R180) -/

/-- An enabled tick keeps EN and does not enter OFF. -/
theorem I2cState.phaseAction_stays_on {i : I2cState} (hst : i.st ≠ .off) (env : BusLines) :
    (i.phaseAction env).i2c.en = i.en ∧ (i.phaseAction env).i2c.st ≠ .off := by
  have htimeout (c : I2cError) : (i.timeout c).i2c.en = i.en ∧ (i.timeout c).i2c.st ≠ .off := by simp [timeout]
  cases hph : i.ph <;> simp only [phaseAction, hph]
  case s0 | b2 | a2 | p2 =>
    exact wait_keeps (fun j => j.en = i.en ∧ j.st ≠ .off) _ _ _ _ ⟨rfl, hst⟩ (htimeout _) ⟨rfl, hst⟩
  case s1 => exact ⟨rfl, nofun⟩
  case a3 => unfold phaseA3; split <;> simp
  case p3 => unfold phaseP3; split <;> exact ⟨rfl, nofun⟩
  all_goals exact ⟨rfl, hst⟩

theorem I2cState.tick_off_iff_disabled {i : I2cState} (hoff : i.st = .off ↔ i.en = false) (env : BusLines) :
    (i.tick env).i2c.st = .off ↔ (i.tick env).i2c.en = false := by
  unfold tick
  split
  next hen =>
    have hst : i.st ≠ .off := by intro hst; simp [tickEnabled, hst] at hen
    obtain ⟨hkeeps, hon⟩ := phaseAction_stays_on hst env
    rw [hkeeps]
    exact iff_of_false hon (mt hoff.2 hst)
  next => exact hoff

/-- Every move of I2CM keeps OFF the state of `EN = 0`. -/
theorem I2cMove.off_iff_disabled {i : I2cState} {e : I2cEffect} (m : I2cMove i e)
    (hoff : i.st = .off ↔ i.en = false) : e.i2c.st = .off ↔ e.i2c.en = false := by
  cases m
  case tick env => exact I2cState.tick_off_iff_disabled hoff env
  case ctrl v => unfold I2cState.writeCtrl; split <;> split <;> simp [hoff]
  case error c _ => simpa using hoff
  case start he ha =>
    by_cases hidle : i.st = .idle <;> simp [I2cState.acceptStart, hidle, he, hoff]
  case addrw a he hs => exact iff_of_false nofun (by simp [I2cState.loadFrame, he])
  case write b he hs => exact iff_of_false nofun (by simp [I2cState.loadFrame, he])
  case stop he ha => exact iff_of_false nofun (by simp [I2cState.acceptStop, he])
  case reset => exact iff_of_true rfl rfl
  all_goals exact hoff

/-! ### Ownership along a run -/

/-- What of the invariant the ownership of the bus rests on. -/
structure State.OwnershipInv (s : State) : Prop where
  phase : phaseFits s.i2c.st s.i2c.ph = true
  off_iff_disabled : s.i2c.st = .off ↔ s.i2c.en = false
  trace : traceState s.trace = some s.i2c.owned

theorem State.Inv.ownership {s : State} (hinv : s.Inv) : s.OwnershipInv :=
  ⟨hinv.i2c.phase, hinv.i2c.off_iff_disabled, hinv.trace⟩

theorem State.OwnershipInv.step {s t : State} (hinv : s.OwnershipInv) (h : step s = .next t) : t.OwnershipInv := by
  obtain ⟨e, m, hi2c, htrace⟩ := (step_moves s t h).i2c
  refine ⟨hi2c ▸ m.phaseFits hinv.phase, hi2c ▸ m.off_iff_disabled hinv.off_iff_disabled, ?_⟩
  rw [htrace, hi2c, traceState, List.foldl_append]
  exact (congrArg (e.events.foldl observe) hinv.trace).trans (m.observed hinv.phase hinv.off_iff_disabled)

theorem State.OwnershipInv.reaches {s t : State} (hinv : s.OwnershipInv) (h : Reaches s t) : t.OwnershipInv := by
  induction h with
  | refl => exact hinv
  | step hstep _ ih => exact ih (hinv.step hstep)

/-! ### The obligations -/

/-- Settles O30: by the agent that moves. Commands and FPROG never move SDA's driver, and a reset that does finds I2CM
enabled, since a disabled one drives neither line. -/
theorem sdaMovesWhileSclIsReleasedOnlyAtStartAndStop : Obligations.SdaMovesWhileSclIsReleasedOnlyAtStartAndStop := by
  intro s t u rest hinv hs h hscl hmoves
  cases u with
  | i2cTick env =>
    rw [step_i2cTick s env rest hs] at h
    cases h
    rcases I2cState.tick_moves_sda hinv hscl hmoves with hph | ⟨hw, hfails, htimeout⟩
    · exact .inl ⟨env, rfl, hph⟩
    · refine .inr (.inl ⟨env, rfl, hw, hfails, ?_⟩)
      rw [State.applyI2c_i2c, htimeout]
      exact s.i2c.timeout_releases (waitCode_flag _ _)
  | flTick a content =>
    rw [step_flTick s a content rest hs] at h
    cases h
    exact absurd rfl hmoves
  | host env =>
    rcases hostStep_cases s t env rest hs h with ⟨q, r, rfl⟩ | ⟨acc, q, v, r, off, -, -, -, -, -, hw⟩
    · exact absurd rfl hmoves
    · have hdisabled := writeReg_moves_sda hw hmoves
      exact .inr (.inr hdisabled)
  | reset content =>
    rw [step_reset s content rest hs] at h
    cases h
    have hen : s.i2c.en = true := by
      by_contra hdisabled
      exact hmoves (hinv.sdaDrv_of_disabled (by simpa using hdisabled)).symm
    exact .inr (.inr ⟨hen, rfl, rfl, rfl⟩)

/-- Settles O56: each step writes its change of ownership into the trace, so that the two agree along every run. -/
theorem ownershipIsAnOpenStart : Obligations.OwnershipIsAnOpenStart :=
  ⟨I2cState.owned_iff, fun _ _ hinv hrun => (hinv.ownership.reaches hrun).trace⟩

end Sys2Proof.Machine
end

section
/-! PROOFS. The FPROG commands: the checks of a value written to FL_CMD in their order, LOCK, and the lock while an
operation runs (41_flash_programmer.md R211 to R223). -/

namespace Sys2Proof.Machine

/-! ### Recording a protection error, as the statement writes it (60_exceptions.md R293, R295) -/

theorem FlashState.raise_of_wrperr (f : FlashState) {c : FlError} (h : c.flag = .wrperr) :
    f.raise c = { f with wrperr := true, errcode := f.captured c } := by
  simp only [raise, setFlag, h, captured, clean_iff]

/-! ### The checks of a command, as the statement writes them (41_flash_programmer.md R220 to R223) -/

theorem inRegion_eq_false_iff (p : Params) (a : Nat) :
    inRegion p a = false ↔ a < p.flashBase ∨ p.flashBase + p.regionSize ≤ a := by
  simp [inRegion, imp_iff_not_or]

theorem alignedFor_erase_eq_false_iff (p : Params) (a : Nat) :
    alignedFor p .erase a = false ↔ (a - p.flashBase) % p.pageSize ≠ 0 := by
  simp [alignedFor]

theorem alignedFor_program_eq_false_iff (p : Params) (a : Nat) : alignedFor p .program a = false ↔ a % 4 ≠ 0 := by
  simp [alignedFor]

theorem FlashState.bsy_eq_true_iff (f : FlashState) : f.bsy = true ↔ f.opstate ≠ .idle := by
  rw [bsy_eq_decide, decide_eq_true_iff]

/-- ERASE_PAGE and PROGRAM_WORD: the first check that fails decides the error, and with none the operation starts. -/
theorem FlashState.operate_eq (p : Params) (k : FlKind) (f : FlashState) :
    f.operate p k =
      if f.opstate ≠ .idle then f.withCmdError .busy
      else if f.locked = true then f.withCmdError .locked
      else if f.addr.toNat < p.flashBase ∨ p.flashBase + p.regionSize ≤ f.addr.toNat then f.withCmdError .range
      else if alignedFor p k f.addr.toNat = false then f.withCmdError .align
      else if (f.addr.toNat - p.flashBase) / p.pageSize ∈ p.wrp then { f with wrperr := true, errcode := f.captured .wrp }
      else f.accept k := by
  simp only [operate, rejection, addressError, bsy_eq_true_iff, Bool.not_eq_true', inRegion_eq_false_iff,
    List.contains_iff_mem, pageIndex]
  split_ifs
  · exact f.raise_of_cmderr rfl
  · exact f.raise_of_cmderr rfl
  · exact f.raise_of_cmderr rfl
  · exact f.raise_of_cmderr rfl
  · exact f.raise_of_wrperr rfl
  · rfl

/-- LOCK: rejected while busy, and otherwise the same whether locked already or not (41_flash_programmer.md R219). -/
theorem FlashState.lock_eq (f : FlashState) :
    f.lock = if f.opstate ≠ .idle then f.withCmdError .busy else { f with locked := true, keyseq := false } := by
  simp only [lock, bsy_eq_true_iff, f.raise_of_cmderr (c := .busy) rfl]

/-! ### A value written to FL_CMD -/

theorem writeReg_flCmd_eq_exec {v : Word} {c : Instr} (hd : decode .flCmd v = .ok c) (s : State) :
    writeReg .flCmd v s = exec c s := by
  simp [writeReg, writeCommand, hd]

/-- The values of FL_CMD that are not reserved (30_encoding.md R130). -/
theorem flCmd_values {v : Word} (h : v.toNat < 4) : v = 0#32 ∨ v = 1#32 ∨ v = 2#32 ∨ v = 3#32 := by
  simp only [← BitVec.toNat_inj, BitVec.toNat_ofNat]
  omega

/-! ### The lock while an operation runs (41_flash_programmer.md R213, R214) -/

theorem FlashState.keyWord_of_unlocked (p : Params) (v : Word) {f : FlashState} (h : f.locked = false) :
    f.keyWord p v = f := by
  simp [keyWord, h]

theorem writeReg_flKey_of_unlocked (v : Word) {s : State} (h : s.fl.locked = false) :
    writeReg .flKey v s = .next s := by
  simp only [writeReg, writeCommand, decode_flKey, exec, execFlKey, FlashState.keyWord_of_unlocked _ _ h]
  rfl

theorem FlashState.issue_locked (f : FlashState) (m : Cells) : (f.issue m).fl.locked = f.locked := by
  unfold issue
  split
  · simp
  · rfl

theorem FlashState.awaitStatus_locked (p : Params) (status : ArrayStatus) (f : FlashState) :
    (f.awaitStatus p status).locked = f.locked := by
  cases status with
  | busy => by_cases hspent : p.flashOpTimeout ≤ f.wcnt + 1 <;> simp [awaitStatus, hspent]
  | ok => rfl
  | fail => simp [awaitStatus]

theorem FlashState.verify_locked (p : Params) (f : FlashState) (m : Cells) : (f.verify p m).fl.locked = f.locked := by
  unfold verify
  split
  · rfl
  · simp

/-- The sequencer never touches the lock. -/
theorem FlashState.tick_locked (p : Params) (a : ArrayAnswer) (content : List Byte) (f : FlashState) (m : Cells) :
    (f.tick p a content m).fl.locked = f.locked := by
  unfold tick
  split
  · rfl
  · exact f.issue_locked m
  · exact f.issue_locked m
  · exact f.awaitStatus_locked p a.status
  · exact f.awaitStatus_locked p a.status
  · exact f.verify_locked p m

/-- No move of FPROG is busy and locked: an operation starts unlocked only, LOCK is rejected while busy, and nothing
else sets either (41_flash_programmer.md R214). -/
theorem FlMove.busy_unlocked {p : Params} {f : FlashState} {m : Cells} {e : FlEffect} (move : FlMove p f m e)
    (hinv : f.bsy = true → f.locked = false) : e.fl.bsy = true → e.fl.locked = false := by
  intro hbusy
  cases move with
  | same | addr | data | clear => exact hinv hbusy
  | tick a content =>
    rw [FlashState.tick_locked]
    refine hinv (Bool.eq_true_of_not_eq_false fun hidle => ?_)
    rw [FlashState.tick_idle _ _ _ _ _ hidle, hidle] at hbusy
    cases hbusy
  | reserved =>
    rw [FlashState.raise_bsy] at hbusy
    rw [FlashState.raise_locked, hinv hbusy]
  | operate k =>
    rcases f.operate_cases p k with ⟨err, -, h⟩ | ⟨-, hunlocked, -, h⟩ <;> simp only [h] at hbusy ⊢
    · rw [FlashState.raise_bsy] at hbusy
      rw [FlashState.raise_locked, hinv hbusy]
    · exact hunlocked
  | lock =>
    rw [FlashState.lock_bsy] at hbusy
    rw [FlashState.lock, if_pos hbusy, FlashState.raise_locked, hinv hbusy]
  | key v =>
    rw [FlashState.keyWord_bsy] at hbusy
    rw [FlashState.keyWord_of_unlocked p v (hinv hbusy), hinv hbusy]
  | reset => cases hbusy

/-! ### The obligations -/

/-- Settles O17: word 3 is the last row of FL_CMD, and LOCK has one check. -/
theorem lockLocksWhenIdle : Obligations.LockLocksWhenIdle := by
  refine ⟨decode_flCmd _, fun s => ⟨fun hidle => ?_, fun hbusy => ?_⟩⟩ <;>
    simp only [exec, execFlLock, FlashState.lock_eq]
  · rw [if_neg (not_not_intro hidle)]; rfl
  · rw [if_pos hbusy]; rfl

/-- Settles O18: a value is reserved or one of the four commands, and each command is its own chain of checks. -/
theorem flashCommandChecksInOrder : Obligations.FlashCommandChecksInOrder := by
  intro v s
  by_cases hv : 4 ≤ v.toNat
  · rw [if_pos hv, writeReg_flCmd_reserved fun i => by rw [decode_flCmd_of_four_le hv]; exact nofun]
  · rw [if_neg hv]
    rcases flCmd_values (not_le.mp hv) with rfl | rfl | rfl | rfl
    · exact writeReg_flCmd_eq_exec (decode_flCmd 0#32) s
    · rw [writeReg_flCmd_eq_exec (decode_flCmd _)]
      simp [exec, execFlErasePage, FlashState.operate_eq, alignedFor_erase_eq_false_iff, FlashState.accept,
        FlKind.opstate]
    · rw [writeReg_flCmd_eq_exec (decode_flCmd _)]
      simp [exec, execFlProgramWord, FlashState.operate_eq, alignedFor_program_eq_false_iff,
        FlashState.accept, FlKind.opstate]
    · rw [writeReg_flCmd_eq_exec (decode_flCmd _)]
      simp [exec, execFlLock, FlashState.lock_eq]

/-- Settles O20: every step is a move of FPROG, and no move leaves it busy and locked. -/
theorem busyMeansUnlocked : Obligations.BusyMeansUnlocked := by
  refine ⟨fun s v => writeReg_flKey_of_unlocked v, nofun, fun s t hinv h => ?_, fun s v hinv hbusy =>
    writeReg_flKey_of_unlocked v (hinv hbusy)⟩
  obtain ⟨e, move, hfl, -⟩ := (step_moves s t h).fl
  rw [hfl]
  exact move.busy_unlocked hinv

end Sys2Proof.Machine
end

section
/-! PROOFS. The FPROG sequencer on the array's answer, and the read-back of the target (41_flash_programmer.md R226 to
R228). -/

namespace Sys2Proof.Machine

/-! ### The target and its intended content (41_flash_programmer.md R227) -/

theorem targetLength_eq (p : Params) (k : FlKind) : targetLength p k = if k = .erase then p.pageSize else 4 := by
  cases k <;> rfl

@[simp] theorem intendedBytes_length (p : Params) (k : FlKind) (v : Word) :
    (intendedBytes p k v).length = targetLength p k := by
  cases k
  · exact List.length_replicate
  · rfl

theorem intendedBytes_getElem (p : Params) (k : FlKind) (v : Word) (i : Nat) (h : i < (intendedBytes p k v).length) :
    (intendedBytes p k v)[i] = intendedByte k v i := by
  cases k with
  | erase => exact List.getElem_replicate h
  | program =>
    have hi : i < 4 := h
    interval_cases i <;> rfl

/-- A range reads as a list of bytes exactly when every byte of it does. -/
theorem readBytes_eq_iff (m : Cells) (a : Nat) (vs : List Byte) :
    readBytes m a vs.length = vs ↔ ∀ k (h : k < vs.length), readByte m (a + k) = vs[k] := by
  simp +contextual [List.ext_getElem_iff, readBytes_getElem]

theorem readBytes_eq_intendedBytes_iff (p : Params) (m : Cells) (a : Nat) (k : FlKind) (v : Word) :
    readBytes m a (targetLength p k) = intendedBytes p k v ↔
      ∀ i, i < targetLength p k → readByte m (a + i) = intendedByte k v i := by
  rw [← intendedBytes_length p k v, readBytes_eq_iff]
  simp only [intendedBytes_getElem]

/-! ### The content a draw leaves (41_flash_programmer.md R226) -/

/-- A byte the schedule lists is the byte drawn. -/
theorem drawnBytes_getElem {content : List Byte} {k : Nat} {c : Byte} (h : content[k]? = some c) (a : Nat) {n : Nat}
    (hk : k < (drawnBytes content a n).length) : (drawnBytes content a n)[k] = c := by
  induction n generalizing content a k with
  | zero => simp at hk
  | succ n ih =>
    cases content with
    | nil => cases h
    | cons b bs =>
      cases k with
      | zero => simpa [drawnBytes] using h
      | succ k => exact ih (content := bs) (k := k) h (a + 1) (by simpa using hk)

theorem FlashState.readByte_drawTarget {p : Params} {content : List Byte} {f : FlashState} (m : Cells) {k : Nat}
    {c : Byte} (hk : k < targetLength p f.kind) (h : content[k]? = some c) :
    readByte (f.drawTarget p content m) (f.targetBase + k) = c := by
  rw [drawTarget, readByte_writeBytes_inside _ _ _ _ (by simpa using hk), drawnBytes_getElem h]

/-! ### A tick of AWAIT, answer by answer (41_flash_programmer.md R226) -/

/-- An answer leaves the array alone, or writes the target and nothing else. -/
theorem FlashState.awaitArray_cases (p : Params) (answer : ArrayAnswer) (content : List Byte) (f : FlashState)
    (m : Cells) :
    f.awaitArray p answer content m = m ∨
      ∃ vs, vs.length = targetLength p f.kind ∧ f.awaitArray p answer content m = writeBytes m f.targetBase vs := by
  have drawn : ∃ vs, vs.length = targetLength p f.kind ∧ f.drawTarget p content m = writeBytes m f.targetBase vs :=
    ⟨_, drawnBytes_length _ _ _, rfl⟩
  cases answer with
  | noAnswer =>
    by_cases hspent : p.flashOpTimeout ≤ f.wcnt + 1
    · exact .inr (by rwa [awaitArray, if_pos hspent])
    · exact .inl (if_neg hspent)
  | ok => exact .inr ⟨_, intendedBytes_length _ _ _, rfl⟩
  | silent => exact .inr drawn
  | fail => exact .inr drawn

theorem FlashState.readByte_awaitArray_outside {p : Params} {f : FlashState} (answer : ArrayAnswer)
    (content : List Byte) (m : Cells) {b : Nat} (h : outsideRange f.targetBase (targetLength p f.kind) b) :
    readByte (f.awaitArray p answer content m) b = readByte m b := by
  rcases f.awaitArray_cases p answer content m with heq | ⟨vs, hlen, heq⟩ <;> rw [heq]
  exact readByte_writeBytes_outside vs m _ b (by rwa [hlen])

theorem FlashState.readByte_awaitArray_ok {p : Params} {f : FlashState} (content : List Byte) (m : Cells) {k : Nat}
    (h : k < targetLength p f.kind) :
    readByte (f.awaitArray p .ok content m) (f.targetBase + k) = intendedByte f.kind f.opData k := by
  rw [awaitArray, readByte_writeBytes_inside _ _ _ _ (by simpa using h), intendedBytes_getElem]

/-- After any other answer that ends the wait the target is as drawn. -/
theorem FlashState.awaitArray_drawn {p : Params} {f : FlashState} {answer : ArrayAnswer} (content : List Byte)
    (m : Cells)
    (h : answer = .silent ∨ answer = .fail ∨ (answer = .noAnswer ∧ p.flashOpTimeout ≤ f.wcnt + 1)) :
    f.awaitArray p answer content m = f.drawTarget p content m := by
  rcases h with rfl | rfl | ⟨rfl, hspent⟩
  · rfl
  · rfl
  · exact if_pos hspent

theorem FlashState.raise_finish_of_pgerr (f : FlashState) {c : FlError} (h : c.flag = .pgerr) :
    (f.raise c).finish =
      { f with opstate := .idle, ph := .issue, wcnt := 0, pgerr := true, errcode := f.captured c } := by
  simp only [raise, setFlag, h, captured, clean_iff, finish]

theorem FlashState.failCode_eq (f : FlashState) : f.failCode = if f.kind = .erase then .eraseFail else .progFail := by
  unfold failCode
  split <;> simp [*]

theorem FlashState.failCode_flag (f : FlashState) : f.failCode.flag = .pgerr := by
  unfold failCode
  split <;> rfl

theorem FlashState.awaitStatus_spent {p : Params} {f : FlashState} (h : p.flashOpTimeout ≤ f.wcnt + 1) :
    f.awaitStatus p .busy = { f with
      opstate := .idle, ph := .issue, wcnt := 0, pgerr := true, errcode := f.captured .arrayTimeout } := by
  rw [awaitStatus, if_pos h, raise_finish_of_pgerr _ rfl]

theorem FlashState.awaitStatus_fail (p : Params) (f : FlashState) :
    f.awaitStatus p .fail = { f with
      opstate := .idle, ph := .issue, wcnt := 0, pgerr := true
      errcode := f.captured (if f.kind = .erase then .eraseFail else .progFail) } := by
  rw [awaitStatus, raise_finish_of_pgerr _ f.failCode_flag, failCode_eq]

/-- NONE within the budget counts, and leaves the array alone. -/
theorem FlashState.await_within_budget {p : Params} {f : FlashState} (content : List Byte) (m : Cells)
    (h : f.wcnt + 1 < p.flashOpTimeout) :
    f.await p .noAnswer content m = ⟨{ f with wcnt := f.wcnt + 1 }, m⟩ := by
  rw [await_eq]
  exact if_neg (not_le.mpr h)

/-! ### VERIFY (41_flash_programmer.md R228) -/

theorem FlashState.tick_verify (p : Params) (answer : ArrayAnswer) (content : List Byte) {f : FlashState} (m : Cells)
    (h : f.opstate = .verify) : f.tick p answer content m = f.verify p m := by
  simp only [tick, h]

theorem FlashState.raise_finish_of_verr (f : FlashState) {c : FlError} (h : c.flag = .verr) :
    (f.raise c).finish =
      { f with opstate := .idle, ph := .issue, wcnt := 0, verr := true, errcode := f.captured c } := by
  simp only [raise, setFlag, h, captured, clean_iff, finish]

/-! ### The obligations -/

/-- Settles O35: the tick is the status's effect on FPROG and the answer's on the array; the answers go one by one. -/
theorem awaitTickActsOnTheArraysAnswer : Obligations.AwaitTickActsOnTheArraysAnswer := by
  intro s answer content rest kind hs hph hkind hop
  rw [step_flTick s answer content rest hs, s.fl.tick_await _ _ _ _ kind hph hop, s.aRdata_await answer kind hph hop]
  subst hkind
  rw [← targetLength_eq]
  refine ⟨_, rfl, ?_, fun b hb => FlashState.readByte_awaitArray_outside answer content _ hb, ?_, ?_, ?_, ?_, ?_, ?_⟩
  · cases answer <;> rfl
  · rintro rfl hwithin
    exact congrArg (State.applyFl _) (FlashState.await_within_budget content s.array hwithin)
  · rintro rfl hspent
    simp only [ArrayAnswer.status, FlashState.awaitStatus_spent hspent]
    rfl
  · rintro (rfl | rfl) <;> rfl
  · rintro rfl
    simp only [ArrayAnswer.status, FlashState.awaitStatus_fail]
    rfl
  · rintro rfl k hk
    exact FlashState.readByte_awaitArray_ok content s.array hk
  · intro hdrawn k c hk hc
    rw [State.applyFl_array, FlashState.awaitArray_drawn content s.array hdrawn]
    exact FlashState.readByte_drawTarget s.array hk hc

/-- Settles O36: the list the tick compares is intended exactly when every byte of the target is. -/
theorem verifyComparesEveryByte : Obligations.VerifyComparesEveryByte := by
  intro s answer content rest hs hop
  rw [step_flTick s answer content rest hs, FlashState.tick_verify _ _ _ _ hop, s.aRdata_verify answer hop,
    ← targetLength_eq, ← readBytes_eq_intendedBytes_iff]
  refine ⟨⟨_, rfl⟩, fun hsame => ?_, fun hdiffers => ?_⟩
  · rw [FlashState.verify, FlashState.targetBase, if_pos hsame]
    rfl
  · rw [FlashState.verify, FlashState.targetBase, if_neg hdiffers, FlashState.raise_finish_of_verr _ rfl]
    rfl

end Sys2Proof.Machine
end

section
/-!
PROOFS. The class of the code a host reads from I2C_STAT (42_driver_sequences.md R268): reading the word back gives the
source's class of the error recorded, so each class is settled by which errors it holds.
-/
namespace Sys2Proof.Machine

/-! ### The errors of each class (60_exceptions.md R291) -/

theorem I2cError.taxonomy_eq_busNack_iff (c : I2cError) :
    c.taxonomy = .busNack ↔ c = .nackAddr ∨ c = .nackData := by
  cases c <;> decide

theorem I2cError.taxonomy_eq_busTimeout_iff (c : I2cError) :
    c.taxonomy = .busTimeout ↔ c = .timeoutStart ∨ c = .timeoutAddr ∨ c = .timeoutData ∨ c = .timeoutStop := by
  cases c <;> decide

theorem I2cError.taxonomy_eq_hostError_iff (c : I2cError) :
    c.taxonomy = .hostError ↔ c = .cmdReserved ∨ c = .cmdDisabled ∨ c = .cmdSequence := by
  cases c <;> decide

/-! ### The word read (42_driver_sequences.md R268) -/

/-- The host's classification of the word it reads agrees with the class of the error the engine recorded. -/
theorem I2cState.classifyI2c_statWord (i : I2cState) (env : BusLines) :
    classifyI2c (i.statWord env) = i.errcode.map I2cError.taxonomy := by
  unfold classifyI2c
  rw [i.statWord_errcode env]
  rcases i.errcode with _ | c
  · rfl
  · cases c <;> rfl

/-! ### The obligation -/

/-- Settles O50: the word's class is the recorded error's, and each class holds exactly the errors listed. -/
theorem readCodeClassifiesTheError : Obligations.ReadCodeClassifiesTheError := by
  intro i env
  rw [i.classifyI2c_statWord env]
  simp only [Option.map_eq_some_iff, Option.map_eq_none_iff, I2cError.taxonomy_eq_busNack_iff,
    I2cError.taxonomy_eq_busTimeout_iff, I2cError.taxonomy_eq_hostError_iff, and_or_left, exists_or, exists_eq_right,
    and_self]

end Sys2Proof.Machine
end

section
/-! PROOFS. What recording an error sets, and that no instruction looks at what is recorded (60_exceptions.md R293,
R295, R296). -/

namespace Sys2Proof.Machine

/-! ### The flag of each code (60_exceptions.md R291 to R293) -/

theorem I2cError.flag_beq_cmderr (c : I2cError) : (c.flag == .cmderr) = decide (c.code.toNat ≤ 3) := by
  cases c <;> decide

theorem I2cError.flag_beq_nackf (c : I2cError) :
    (c.flag == .nackf) = decide (c.code.toNat = 4 ∨ c.code.toNat = 5) := by
  cases c <;> decide

theorem I2cError.flag_beq_tof (c : I2cError) : (c.flag == .tof) = decide (6 ≤ c.code.toNat) := by
  cases c <;> decide

theorem FlError.flag_beq_cmderr (c : FlError) : (c.flag == .cmderr) = decide (c.code.toNat ≤ 6) := by
  cases c <;> decide

theorem FlError.flag_beq_wrperr (c : FlError) : (c.flag == .wrperr) = decide (c.code.toNat = 7) := by
  cases c <;> decide

theorem FlError.flag_beq_pgerr (c : FlError) :
    (c.flag == .pgerr) = decide (8 ≤ c.code.toNat ∧ c.code.toNat ≤ 11) := by
  cases c <;> decide

theorem FlError.flag_beq_verr (c : FlError) : (c.flag == .verr) = decide (c.code.toNat = 12) := by
  cases c <;> decide

/-! ### Recording an error, for any code (60_exceptions.md R293, R295) -/

/-- The error state of I2CM is all that `raise` changes, and the field lemmas of `raise` say to what. -/
theorem I2cState.raise_eq (i : I2cState) (c : I2cError) : i.raise c = { i with
    cmderr := i.cmderr || c.flag == .cmderr
    nackf := i.nackf || c.flag == .nackf
    tof := i.tof || c.flag == .tof
    errcode := if i.clean then some c else i.errcode } := by
  rw [← raise_cmderr, ← raise_nackf, ← raise_tof, ← raise_errcode]
  obtain ⟨n, t, m, e, h⟩ := i.raise_frame c
  rw [h]

/-- The error state of FPROG is all that `raise` changes, and the field lemmas of `raise` say to what. -/
theorem FlashState.raise_eq (f : FlashState) (c : FlError) : f.raise c = { f with
    cmderr := f.cmderr || c.flag == .cmderr
    wrperr := f.wrperr || c.flag == .wrperr
    pgerr := f.pgerr || c.flag == .pgerr
    verr := f.verr || c.flag == .verr
    errcode := if f.clean then some c else f.errcode } := by
  rw [← raise_cmderr, ← raise_wrperr, ← raise_pgerr, ← raise_verr, ← raise_errcode]
  obtain ⟨w, p, v, m, e, h⟩ := f.raise_frame c
  rw [h]

/-- An error recorded is an error flag set. -/
theorem FlashState.raise_clean (f : FlashState) (c : FlError) : (f.raise c).clean = false := by
  cases h : c.flag <;> simp [clean, h]

theorem I2cState.raise_raise_errcode (i : I2cState) (c d : I2cError) :
    ((i.raise c).raise d).errcode = (i.raise c).errcode := by
  rw [raise_errcode, raise_clean, if_neg Bool.false_ne_true]

theorem FlashState.raise_raise_errcode (f : FlashState) (c d : FlError) :
    ((f.raise c).raise d).errcode = (f.raise c).errcode := by
  rw [raise_errcode, raise_clean, if_neg Bool.false_ne_true]

theorem FlashState.captured_eq (f : FlashState) (c : FlError) :
    f.captured c = if f.clean then some c else f.errcode := by
  simp only [captured, clean_iff]

/-! ### One engine without its errors (60_exceptions.md R296) -/

/-- I2CM as `State.withoutErrors` leaves it. -/
def I2cState.withoutErrors (i : I2cState) : I2cState :=
  { i with nackf := false, tof := false, cmderr := false, errcode := none }

/-- FPROG as `State.withoutErrors` leaves it. -/
def FlashState.withoutErrors (f : FlashState) : FlashState :=
  { f with wrperr := false, pgerr := false, verr := false, cmderr := false, errcode := none }

theorem State.withoutErrors_setI2c (s : State) {i j : I2cState} (h : j.withoutErrors = i.withoutErrors) :
    (s.withoutErrors.setI2c j).withoutErrors = (s.setI2c i).withoutErrors :=
  congrArg s.withoutErrors.setI2c h

theorem State.withoutErrors_setFl (s : State) {f g : FlashState} (h : g.withoutErrors = f.withoutErrors) :
    (s.withoutErrors.setFl g).withoutErrors = (s.setFl f).withoutErrors :=
  congrArg s.withoutErrors.setFl h

theorem I2cState.raise_withoutErrors (i : I2cState) (c : I2cError) : (i.raise c).withoutErrors = i.withoutErrors := by
  obtain ⟨n, t, m, e, h⟩ := i.raise_frame c
  rw [h]; rfl

theorem FlashState.raise_withoutErrors (f : FlashState) (c : FlError) :
    (f.raise c).withoutErrors = f.withoutErrors := by
  obtain ⟨w, p, v, m, e, h⟩ := f.raise_frame c
  rw [h]; rfl

/-! ### What a command does to an engine without its errors (60_exceptions.md R296) -/

theorem I2cState.withoutErrors_raise (i : I2cState) (c : I2cError) :
    (i.withoutErrors.raise c).withoutErrors = (i.raise c).withoutErrors := by
  rw [raise_withoutErrors, raise_withoutErrors]; rfl

theorem FlashState.withoutErrors_raise (f : FlashState) (c : FlError) :
    (f.withoutErrors.raise c).withoutErrors = (f.raise c).withoutErrors := by
  rw [raise_withoutErrors, raise_withoutErrors]; rfl

theorem I2cState.withoutErrors_accepted (i : I2cState) (c : Instr) :
    (i.withoutErrors.accepted c).withoutErrors = (i.accepted c).withoutErrors := by
  cases c
  case i2cStart => by_cases hidle : i.st = .idle <;> simp [accepted, acceptStart, withoutErrors, hidle]
  all_goals rfl

/-- The checks of an I2CM command look at EN and at the acceptance table only (40_i2c_master.md R186). -/
theorem I2cState.withoutErrors_command (i : I2cState) (allowed : Bool) (c : Instr) :
    (i.withoutErrors.command allowed (i.withoutErrors.accepted c)).withoutErrors =
      (i.command allowed (i.accepted c)).withoutErrors := by
  have hen : i.withoutErrors.en = i.en := rfl
  unfold command
  rw [hen]
  split_ifs
  · exact i.withoutErrors_raise .cmdDisabled
  · exact i.withoutErrors_accepted c
  · exact i.withoutErrors_raise .cmdSequence

/-- The checks of an operation look at BSY, the lock and the address only (41_flash_programmer.md R220). -/
theorem FlashState.withoutErrors_operate (p : Params) (k : FlKind) (f : FlashState) :
    (f.withoutErrors.operate p k).withoutErrors = (f.operate p k).withoutErrors := by
  have hchecks : f.withoutErrors.rejection p k = f.rejection p k := rfl
  unfold operate
  rw [hchecks]
  cases f.rejection p k with
  | some e => exact f.withoutErrors_raise e
  | none => rfl

theorem FlashState.withoutErrors_lock (f : FlashState) :
    f.withoutErrors.lock.withoutErrors = f.lock.withoutErrors := by
  have hbsy : f.withoutErrors.bsy = f.bsy := rfl
  unfold lock
  rw [hbsy]
  split_ifs
  · exact f.withoutErrors_raise .busy
  · rfl

theorem FlashState.withoutErrors_keyWord (p : Params) (v : Word) (f : FlashState) :
    (f.withoutErrors.keyWord p v).withoutErrors = (f.keyWord p v).withoutErrors := by
  have hlocked : f.withoutErrors.locked = f.locked := rfl
  have hkeyseq : f.withoutErrors.keyseq = f.keyseq := rfl
  unfold keyWord
  rw [hlocked, hkeyseq]
  split_ifs
  · rfl
  · rfl
  · exact f.withoutErrors_raise .key
  · rfl
  · exact withoutErrors_raise { f with keyseq := false } .key

/-- An instruction does to a state what it does to the state without its errors, but for the errors. -/
theorem exec_withoutErrors {i : Instr} {s t u : State} (h : exec i s = .next t)
    (hu : exec i s.withoutErrors = .next u) : u.withoutErrors = t.withoutErrors := by
  have i2cm (hreg : i.reg = .i2cCmd) (hnop : i ≠ .i2cNop) : u.withoutErrors = t.withoutErrors := by
    rw [exec_eq_command hreg hnop] at h hu
    cases h; cases hu
    exact s.withoutErrors_setI2c (s.i2c.withoutErrors_command _ i)
  cases i
  case i2cNop | flNop => cases h; cases hu; rfl
  case i2cStart | i2cAddrw | i2cWrite | i2cStop => exact i2cm rfl nofun
  all_goals cases h; cases hu
  case flErasePage => exact s.withoutErrors_setFl (s.fl.withoutErrors_operate s.params .erase)
  case flProgramWord => exact s.withoutErrors_setFl (s.fl.withoutErrors_operate s.params .program)
  case flLock => exact s.withoutErrors_setFl s.fl.withoutErrors_lock
  case flKey key => exact s.withoutErrors_setFl (s.fl.withoutErrors_keyWord s.params key)

/-! ### The obligations -/

/-- Settles O22: both states do what the one state without errors does, which is the same for both. -/
theorem errorsDoNotBlock : Obligations.ErrorsDoNotBlock := by
  intro i s s' t t' hsame h h'
  obtain ⟨u, hu⟩ := exec_next i s.withoutErrors
  have hu' : exec i s'.withoutErrors = .next u := hsame ▸ hu
  exact (exec_withoutErrors h hu).symm.trans (exec_withoutErrors h' hu')

/-- Settles O47: `raise` sets the flag its code's number names, and a flag set keeps the code of a second error. -/
theorem captureKeepsTheFirstError : Obligations.CaptureKeepsTheFirstError := by
  refine ⟨fun i c d => ⟨?_, i.raise_raise_errcode c d⟩, fun f c d => ⟨?_, f.raise_raise_errcode c d⟩⟩
  · simp only [i.raise_eq c, c.flag_beq_cmderr, c.flag_beq_nackf, c.flag_beq_tof, i.clean_iff]
  · simp only [f.raise_eq c, c.flag_beq_cmderr, c.flag_beq_wrperr, c.flag_beq_pgerr, c.flag_beq_verr, f.captured_eq]

end Sys2Proof.Machine
end

section
/-! PROOFS. Reset: what it keeps and records besides putting the elements at their values, and what a host reads of
every register after it (70_reset_and_hazards.md R321 to R323). -/

namespace Sys2Proof.Machine

/-! ### The array and the trace after a reset (70_reset_and_hazards.md R321, R322) -/

/-- Letting go of the bus records a Release in the states that own it, as R159 lists them. -/
theorem I2cState.releaseEvents_eq (i : I2cState) :
    i.releaseEvents =
      if i.st = .started ∨ i.st = .addressing ∨ i.st = .ready ∨ i.st = .transmitting ∨ i.st = .stopping ∨
          (i.st = .starting ∧ i.ph = .s1) then [.release] else [] :=
  if_congr (by rw [owned_iff]; simp only [or_assoc]) rfl rfl

/-- An operation cut short in AWAIT leaves its target as a tick that draws it does. -/
theorem resetArray_of_await (p : Params) (content : List Byte) {f : FlashState} (m : Cells)
    (h : (f.opstate = .erase ∨ f.opstate = .program) ∧ f.ph = .await) :
    resetArray p content f m = f.drawTarget p content m :=
  if_pos h

theorem resetArray_of_not_await (p : Params) (content : List Byte) {f : FlashState} (m : Cells)
    (h : ¬ ((f.opstate = .erase ∨ f.opstate = .program) ∧ f.ph = .await)) : resetArray p content f m = m :=
  if_neg h

theorem FlashState.readByte_drawTarget_outside {p : Params} {f : FlashState} (content : List Byte) (m : Cells) {b : Nat}
    (h : outsideRange f.targetBase (targetLength p f.kind) b) :
    readByte (f.drawTarget p content m) b = readByte m b :=
  readByte_writeBytes_outside _ m _ b (by rwa [drawnBytes_length])

/-! ### The registers after a reset (70_reset_and_hazards.md R323) -/

/-- A read of a register looks at nothing but the two engines. -/
theorem readReg_congr {s t : State} (hi2c : s.i2c = t.i2c) (hfl : s.fl = t.fl) (r : Reg) (env : BusLines) :
    readReg r env s = readReg r env t := by
  cases r <;> simp only [readReg, hi2c, hfl]

/-- Both engines are at their reset states at first power-up and after any later reset. -/
theorem engines_of_reset {t : State}
    (h : t = State.reset ∨ ∃ s content rest, s.sched = .reset content :: rest ∧ step s = .next t) :
    t.i2c = State.reset.i2c ∧ t.fl = State.reset.fl := by
  rcases h with rfl | ⟨s, content, rest, hs, ht⟩
  · exact ⟨rfl, rfl⟩
  · rw [step_reset s content rest hs] at ht
    cases ht
    exact ⟨rfl, rfl⟩

/-- After reset I2CM drives neither line and every other field is 0, so that I2C_STAT shows the sampled lines alone. -/
theorem I2cState.statWord_reset (env : BusLines) :
    I2cState.reset.statWord env =
      (if env.scl then 0x00010000#32 else 0#32) ||| (if env.sda then 0x00020000#32 else 0#32) := by
  obtain ⟨scl, sda⟩ := env
  cases scl <;> cases sda <;> rfl

/-! ### The obligations -/

/-- Settles O52: the step is `takeReset`, which records what letting go of the bus does and keeps the array but for the
target of an operation in AWAIT. -/
theorem resetKeepsWhatIsNotAnElement : Obligations.ResetKeepsWhatIsNotAnElement := by
  intro s content rest hs
  rw [← targetLength_eq]
  refine ⟨_, step_reset s content rest hs, rfl, rfl, congrArg (s.trace ++ ·) s.i2c.releaseEvents_eq, rfl, rfl,
    resetArray_of_not_await s.params content s.array, fun hawait => ?_⟩
  rw [takeReset_array, resetArray_of_await _ content _ hawait]
  exact ⟨fun b hb => FlashState.readByte_drawTarget_outside content s.array hb,
    fun k c hk hc => FlashState.readByte_drawTarget s.array hk hc⟩

/-- Settles O53: a read sees only the engines, which are those of `State.reset`, and a reserved slot has no register. -/
theorem registersReadTheirResetValues : Obligations.RegistersReadTheirResetValues := by
  intro t env ht
  obtain ⟨hi2c, hfl⟩ := engines_of_reset ht
  simp only [readReg_congr hi2c hfl]
  refine ⟨rfl, rfl, rfl, rfl, rfl, rfl, rfl, rfl, rfl, I2cState.statWord_reset env, fun off hoff => ?_⟩
  obtain ⟨halign, hnone⟩ := reservedSlots_spec off hoff
  exact windowAccess_reserved_read env t rfl halign hnone rfl

end Sys2Proof.Machine
end

section
/-! PROOFS. The encoder and the decoder are inverse to each other (30_encoding.md R123 to R130, R135, R136). -/

namespace Sys2Proof

/-! ### An instruction's word fits its own row and no row before it -/

theorem word_i2cAddrw (a : BitVec 7) :
    (Instr.i2cAddrw a).word ≠ 0#32 ∧ (Instr.i2cAddrw a).word ≠ 1#32 ∧
      (Instr.i2cAddrw a).word &&& 0xFFFF80FF#32 = 2#32 ∧ (Instr.i2cAddrw a).word.extractLsb' 8 7 = a := by
  revert a; decide

theorem word_i2cWrite (b : Byte) :
    (Instr.i2cWrite b).word ≠ 0#32 ∧ (Instr.i2cWrite b).word ≠ 1#32 ∧
      (Instr.i2cWrite b).word &&& 0xFFFF80FF#32 ≠ 2#32 ∧ (Instr.i2cWrite b).word &&& 0xFFFF00FF#32 = 3#32 ∧
      (Instr.i2cWrite b).word.extractLsb' 8 8 = b := by
  revert b; decide

theorem decode_word (i : Instr) : decode i.reg i.word = .ok i := by
  cases i
  case i2cAddrw a =>
    obtain ⟨hnop, hstart, hrow, harg⟩ := word_i2cAddrw a
    rw [Instr.reg, decode_i2cCmd, if_neg hnop, if_neg hstart, if_pos hrow, harg]
  case i2cWrite b =>
    obtain ⟨hnop, hstart, haddrw, hrow, harg⟩ := word_i2cWrite b
    rw [Instr.reg, decode_i2cCmd, if_neg hnop, if_neg hstart, if_neg haddrw, if_pos hrow, harg]
  case i2cNop | i2cStart | i2cStop => exact decode_i2cCmd _
  case flNop | flErasePage | flProgramWord | flLock => exact decode_flCmd _
  case flKey key => exact decode_flKey key

/-! ### A row's mask and its operand's bits make up the word -/

theorem or_addressBits (v : Word) :
    (v &&& 0xFFFF80FF#32) ||| ((v.extractLsb' 8 7).setWidth 32 <<< 8) = v := by
  refine BitVec.eq_of_getLsbD_eq fun k hk => ?_
  interval_cases k <;> simp

theorem or_byteBits (v : Word) :
    (v &&& 0xFFFF00FF#32) ||| ((v.extractLsb' 8 8).setWidth 32 <<< 8) = v := by
  refine BitVec.eq_of_getLsbD_eq fun k hk => ?_
  interval_cases k <;> simp

theorem word_of_decode {r : CmdReg} {v : Word} {i : Instr} (h : decode r v = .ok i) : i.word = v := by
  cases r
  case i2cCmd =>
    rw [decode_i2cCmd] at h
    split_ifs at h with hnop hstart haddrw hwrite hstop <;> cases h
    · exact hnop.symm
    · exact hstart.symm
    · rw [Instr.word, ← haddrw, or_addressBits]
    · rw [Instr.word, ← hwrite, or_byteBits]
    · exact hstop.symm
  case flCmd =>
    rw [decode_flCmd] at h
    split_ifs at h with hnop herase hprogram hlock <;> cases h
    · exact hnop.symm
    · exact herase.symm
    · exact hprogram.symm
    · exact hlock.symm
  case flKey =>
    rw [decode_flKey] at h
    cases h
    rfl

/-! ### The obligations -/

/-- Settles O1, instruction by instruction: its word fits its own row and no row before it. -/
theorem decodeInvertsEncode : Obligations.DecodeInvertsEncode := decode_word

/-- Settles O2: the register is the decoder's own, and the row that fits leaves no bit of the word out. -/
theorem decodedWordIsItsEncoding : Obligations.DecodedWordIsItsEncoding :=
  fun r v i h => Prod.ext (decode_reg r v i h) (word_of_decode h)

/-- Settles O5: each word is the encoding of the instruction, written out. -/
theorem writtenWordsDecode : Obligations.WrittenWordsDecode :=
  ⟨decode_word (.i2cAddrw 0x3C#7), decode_word (.i2cAddrw 127#7), decode_word (.i2cWrite 0x80#8),
    decode_word (.i2cWrite 0xAF#8), decode_word .i2cStart, decode_word .i2cStop, decode_word .flErasePage,
    decode_word (.flKey 0x0BADC0DE#32)⟩

end Sys2Proof
end

section
/-! PROOFS. ERRCODE and the error flags of each engine: every move keeps a code recorded exactly while a flag is set
(60_exceptions.md R300). -/

namespace Sys2Proof.Machine

/-! ### ERRCODE and the error flags (60_exceptions.md R300) -/

/-- I2CM's code is recorded exactly while one of its error flags is set. -/
def I2cState.CodeFits (i : I2cState) : Prop := i.errcode = none ↔ i.clean = true

/-- FPROG's code is recorded exactly while one of its error flags is set. -/
def FlashState.CodeFits (f : FlashState) : Prop := f.errcode = none ↔ f.clean = true

theorem I2cState.CodeFits.raise {i : I2cState} (h : i.CodeFits) (c : I2cError) : (i.raise c).CodeFits := by
  rw [CodeFits, raise_clean, raise_errcode]
  refine iff_of_false ?_ Bool.false_ne_true
  split
  next => exact Option.some_ne_none c
  next hdirty => exact mt h.1 hdirty

theorem FlashState.CodeFits.raise {f : FlashState} (h : f.CodeFits) (c : FlError) : (f.raise c).CodeFits := by
  rw [CodeFits, raise_clean, raise_errcode]
  refine iff_of_false ?_ Bool.false_ne_true
  split
  next => exact Option.some_ne_none c
  next hdirty => exact mt h.1 hdirty

/-- Clearing never makes a clean engine dirty, and the code goes with the last flag. -/
theorem I2cState.CodeFits.clearStatus {i : I2cState} (h : i.CodeFits) (v : Word) : (i.clearStatus v).CodeFits := by
  have kept (hclean : i.clean = true) : (i.clearStatus v).clean = true := by
    obtain ⟨hnackf, htof, hcmderr⟩ := i.clean_iff.1 hclean
    rw [clearStatus_eq]
    simp [clean, hnackf, htof, hcmderr]
  rw [CodeFits, clearStatus_errcode, clean_iff]
  split
  next hleft => exact iff_of_true rfl hleft
  next hleft => exact iff_of_false (fun hnone => hleft ((clean_iff _).1 (kept (h.1 hnone)))) hleft

theorem FlashState.CodeFits.clearStatus {f : FlashState} (h : f.CodeFits) (v : Word) : (f.clearStatus v).CodeFits := by
  have kept (hclean : f.clean = true) : (f.clearStatus v).clean = true := by
    obtain ⟨hwrperr, hpgerr, hverr, hcmderr⟩ := f.clean_iff.1 hclean
    rw [clearStatus_eq]
    simp [clean, hwrperr, hpgerr, hverr, hcmderr]
  rw [CodeFits, clearStatus_errcode, clean_iff]
  split
  next hleft => exact iff_of_true rfl hleft
  next hleft => exact iff_of_false (fun hnone => hleft ((clean_iff _).1 (kept (h.1 hnone)))) hleft

theorem I2cState.CodeFits.timeout {i : I2cState} (h : i.CodeFits) (c : I2cError) : (i.timeout c).i2c.CodeFits :=
  raise (i := { i with sclDrv := false, sdaDrv := false, spend := false, wcnt := 0#16, st := .idle, ph := .noPhase }) h c

theorem I2cState.CodeFits.tick {i : I2cState} (h : i.CodeFits) (env : BusLines) : (i.tick env).i2c.CodeFits := by
  unfold I2cState.tick
  split
  · cases hph : i.ph <;> simp only [phaseAction, hph]
    case s0 | b2 | a2 | p2 => exact wait_keeps CodeFits _ _ _ _ h (h.timeout _) h
    case a3 =>
      unfold phaseA3
      split
      · exact h
      · exact raise (i := { i with sclDrv := true, st := .stopping, ph := .p0, wcnt := 0#16 }) h _
    case p3 => unfold phaseP3; split <;> exact h
    all_goals exact h
  · exact h

theorem I2cMove.codeFits {i : I2cState} {e : I2cEffect} (m : I2cMove i e) (h : i.CodeFits) : e.i2c.CodeFits := by
  cases m
  case tick env => exact h.tick env
  case ctrl v => unfold I2cState.writeCtrl; split <;> split <;> exact h
  case clear v => exact h.clearStatus v
  case error c _ => exact h.raise c
  case start => unfold I2cState.acceptStart; split <;> exact h
  case reset => exact iff_of_true rfl rfl
  all_goals exact h

theorem FlashState.CodeFits.tick {f : FlashState} (h : f.CodeFits) (p : Params) (a : ArrayAnswer) (content : List Byte)
    (m : Cells) : (f.tick p a content m).fl.CodeFits := by
  have issue : (f.issue m).fl.CodeFits := by
    unfold FlashState.issue
    split
    · exact h.raise .notErased
    · exact h
  have await : (f.await p a content m).fl.CodeFits := by
    cases hstatus : a.status <;> simp only [FlashState.await, awaitStatus, hstatus]
    case busy => split; exact h.raise .arrayTimeout; exact h
    case ok => exact h
    case fail => exact h.raise f.failCode
  unfold FlashState.tick
  split
  · exact h
  · exact issue
  · exact issue
  · exact await
  · exact await
  · unfold verify
    split
    · exact h
    · exact h.raise .verify

theorem FlMove.codeFits {p : Params} {f : FlashState} {m : Cells} {e : FlEffect} (move : FlMove p f m e)
    (h : f.CodeFits) : e.fl.CodeFits := by
  cases move
  case tick a content => exact h.tick p a content m
  case clear v => exact h.clearStatus v
  case reserved => exact h.raise .cmdReserved
  case operate k =>
    rcases f.operate_cases p k with ⟨c, -, heq⟩ | ⟨-, -, -, heq⟩ <;> simp only [heq]
    · exact h.raise c
    · exact h
  case lock => unfold FlashState.lock; split; exact h.raise .busy; exact h
  case key v =>
    unfold FlashState.keyWord
    split_ifs
    · exact h
    · exact h
    · exact h.raise .key
    · exact h
    · exact FlashState.CodeFits.raise (f := { f with keyseq := false }) h .key
  case reset => exact iff_of_true rfl rfl
  all_goals exact h

/-- Settles O49: no flag is set at reset, and each engine's move keeps the code and the flags in step. -/
theorem errcodeIsZeroExactlyWhenClean : Obligations.ErrcodeIsZeroExactlyWhenClean := by
  refine ⟨iff_of_true rfl rfl, iff_of_true rfl rfl, fun s t hi2c hfl h => ?_⟩
  obtain ⟨-, -, ⟨e, m, ei, -⟩, ⟨d, n, ef, -⟩⟩ := step_moves s t h
  rw [ei, ef]
  exact ⟨m.codeFits hi2c, n.codeFits hfl⟩

end Sys2Proof.Machine
end

section
/-! PROOFS. The flash region in a valid configuration, the target of a checked operation, and what FPROG does to the array
(00_scope.md R9, 41_flash_programmer.md R221, R222, R226). -/

namespace Sys2Proof

/-! ### The region in a valid configuration (00_scope.md R9) -/

/-- The constraints of R8 and R9, one by one. -/
theorem Params.valid_iff (p : Params) : p.valid = true ↔
    p.pageSize % 4 = 0 ∧ (p.regionSize % p.pageSize = 0 ∧ p.regionSize ≠ 0) ∧ p.flashBase % p.pageSize = 0 ∧
      p.flashBase + p.regionSize ≤ 2 ^ 32 ∧ p.wrpInRegion = true ∧ p.blkBase % 4 = 0 ∧ p.blkBase + 0x40 ≤ 2 ^ 32 ∧
      (p.blkBase + 0x40 ≤ p.flashBase ∨ p.flashBase + p.regionSize ≤ p.blkBase) ∧ p.key1 ≠ p.key2 ∧
      1 ≤ p.flashOpTimeout := by
  simp only [valid, pageOfWords, regionOfPages, baseOfPages, regionInSpace, windowAligned, windowInSpace, windowApart,
    keysDiffer, timeoutPositive, Bool.and_eq_true, Bool.or_eq_true, beq_iff_eq, bne_iff_ne, decide_eq_true_eq, and_assoc]
  rfl

theorem page_in_region {p : Params} {a k : Nat} (hv : p.valid = true) (hlo : p.flashBase ≤ a)
    (hhi : a < p.flashBase + p.regionSize) (hpage : (a - p.flashBase) % p.pageSize = 0) (hk : k < p.pageSize) :
    a + k < p.flashBase + p.regionSize := by
  obtain ⟨-, ⟨hpages, -⟩, -⟩ := p.valid_iff.1 hv
  obtain ⟨q, hq⟩ := Nat.dvd_of_mod_eq_zero hpage
  obtain ⟨n, hn⟩ := Nat.dvd_of_mod_eq_zero hpages
  have hqn : q + 1 ≤ n := by
    have : p.pageSize * q < p.pageSize * n := by omega
    exact Nat.lt_of_mul_lt_mul_left this
  have hend : p.pageSize * q + p.pageSize ≤ p.pageSize * n := Nat.mul_le_mul_left p.pageSize hqn
  omega

/-- The region starts and ends at a multiple of 4. -/
theorem region_of_words {p : Params} (hv : p.valid = true) : p.flashBase % 4 = 0 ∧ p.regionSize % 4 = 0 := by
  obtain ⟨hwords, ⟨hpages, -⟩, hbase, -⟩ := p.valid_iff.1 hv
  have hpage : 4 ∣ p.pageSize := Nat.dvd_of_mod_eq_zero hwords
  exact ⟨Nat.mod_eq_zero_of_dvd (hpage.trans (Nat.dvd_of_mod_eq_zero hbase)),
    Nat.mod_eq_zero_of_dvd (hpage.trans (Nat.dvd_of_mod_eq_zero hpages))⟩

theorem access_in_region {p : Params} {a n k : Nat} (hv : p.valid = true) (hhi : a < p.flashBase + p.regionSize)
    (hn : n = 1 ∨ n = 2 ∨ n = 4) (halign : a % n = 0) (hk : k < n) : a + k < p.flashBase + p.regionSize := by
  obtain ⟨hbase, hsize⟩ := region_of_words hv
  rcases hn with rfl | rfl | rfl <;> omega

/-- Settles O19: the page that starts in the region is one of its pages, and the region ends at a multiple of 4. -/
theorem checkedTargetsLieInTheRegion : Obligations.CheckedTargetsLieInTheRegion :=
  fun _ _ hv hlo hhi =>
    ⟨fun hpage _ hk => page_in_region hv hlo hhi hpage hk, fun _ hn halign _ hk => access_in_region hv hhi hn halign hk⟩

end Sys2Proof

namespace Sys2Proof.Machine

/-! ### The target of a checked operation (41_flash_programmer.md R221, R222, R227) -/

theorem inRegion_iff (p : Params) (a : Nat) :
    inRegion p a = true ↔ p.flashBase ≤ a ∧ a < p.flashBase + p.regionSize := by
  simp [inRegion]

/-- The checks a command's address passes (41_flash_programmer.md R221, R222). -/
theorem addressError_eq_none_iff (p : Params) (k : FlKind) (a : Nat) :
    addressError p k a = none ↔ inRegion p a = true ∧ alignedFor p k a = true ∧ pageIndex p a ∉ p.wrp := by
  unfold addressError
  split_ifs <;> simp_all

/-- The whole target of a checked operation lies in the region. -/
theorem target_in_region {p : Params} {k : FlKind} {a i : Nat} (hv : p.valid = true)
    (hchecked : addressError p k a = none) (hi : i < targetLength p k) : inRegion p (a + i) = true := by
  obtain ⟨hregion, halign, -⟩ := (addressError_eq_none_iff p k a).1 hchecked
  obtain ⟨hlo, hhi⟩ := (inRegion_iff p a).1 hregion
  refine (inRegion_iff p (a + i)).2 ⟨by omega, ?_⟩
  cases k with
  | erase => exact page_in_region hv hlo hhi (beq_iff_eq.1 halign) hi
  | program => exact access_in_region hv hhi (.inr (.inr rfl)) (beq_iff_eq.1 halign) hi

/-! ### What a move of FPROG does to the array (41_flash_programmer.md R226, 70_reset_and_hazards.md R322) -/

theorem FlashState.issue_array (f : FlashState) (m : Cells) : (f.issue m).array = m := by
  unfold issue
  split <;> rfl

theorem FlashState.verify_array (p : Params) (f : FlashState) (m : Cells) : (f.verify p m).array = m := by
  unfold verify
  split <;> rfl

/-- A move leaves the array alone, or an operation in progress writes its target. -/
theorem FlMove.array_cases {p : Params} {f : FlashState} {m : Cells} {e : FlEffect} (move : FlMove p f m e) :
    e.array = m ∨
      (f.bsy = true ∧ ∃ vs, vs.length = targetLength p f.kind ∧ e.array = writeBytes m f.targetBase vs) := by
  cases move
  case tick a content =>
    have await (hbusy : f.bsy = true) := (f.awaitArray_cases p a content m).imp_right (And.intro hbusy)
    unfold FlashState.tick
    split
    · exact .inl rfl
    · exact .inl (f.issue_array m)
    · exact .inl (f.issue_array m)
    · exact await (by simp [FlashState.bsy, *])
    · exact await (by simp [FlashState.bsy, *])
    · exact .inl (f.verify_array p m)
  case reset content =>
    by_cases hcut : (f.opstate = .erase ∨ f.opstate = .program) ∧ f.ph = .await
    · refine .inr ⟨?_, _, drawnBytes_length _ _ _, resetArray_of_await p content m hcut⟩
      rcases hcut with ⟨hop | hop, -⟩ <;> simp [FlashState.bsy, hop]
    · exact .inl (resetArray_of_not_await p content m hcut)
  all_goals exact .inl rfl

theorem FlMove.array_wf {p : Params} {f : FlashState} {m : Cells} {e : FlEffect} (move : FlMove p f m e)
    (h : Memory.wf m = true) : Memory.wf e.array = true := by
  rcases move.array_cases with heq | ⟨-, vs, -, heq⟩ <;> rw [heq]
  · exact h
  · exact writeBytes_wf vs m _ h

/-- Settles O57: a step leaves the array or writes a range of bytes, which keeps the form. -/
theorem everyStepKeepsTheArraysForm : Obligations.EveryStepKeepsTheArraysForm := by
  intro s t hwf h
  obtain ⟨e, move, -, harray⟩ := (step_moves s t h).fl
  rw [harray]
  exact move.array_wf hwf

end Sys2Proof.Machine
end

section
/-! PROOFS. Every move of I2CM keeps its invariant (40_i2c_master.md R160 to R186, 10_state.md R36 to R44). -/

namespace Sys2Proof.Machine

/-! ### Building the invariant of I2CM from that of the state before -/

theorem I2cState.Inv.enabled_of_not_off {i : I2cState} (hinv : i.Inv) (hst : i.st ≠ .off) : i.en = true := by
  simpa using mt hinv.off_iff_disabled.2 hst

theorem I2cState.framing_iff (i : I2cState) : i.framing = true ↔ i.st = .addressing ∨ i.st = .transmitting := by
  simp [framing]

theorem driversExpected_of_framing {st : I2cSt} (h : st = .addressing ∨ st = .transmitting) (ph : I2cPhase) :
    driversExpected st ph = driversExpected .transmitting ph := by
  rcases h with rfl | rfl
  · cases ph <;> rfl
  · rfl

theorem phaseFits_of_framing {st : I2cSt} (h : st = .addressing ∨ st = .transmitting) (ph : I2cPhase) :
    phaseFits st ph = phaseFits .transmitting ph := by
  rcases h with rfl | rfl
  · cases ph <;> rfl
  · rfl

theorem sclFits_of_framing {st : I2cSt} (h : st = .addressing ∨ st = .transmitting) {ph : I2cPhase} {drv : Bool}
    (hfits : driverFits (driversExpected .transmitting ph).1 drv = true) :
    driverFits (driversExpected st ph).1 drv = true := by
  rwa [driversExpected_of_framing h]

theorem sdaFits_of_framing {st : I2cSt} (h : st = .addressing ∨ st = .transmitting) {ph : I2cPhase} {drv : Bool}
    (hfits : driverFits (driversExpected .transmitting ph).2 drv = true) :
    driverFits (driversExpected st ph).2 drv = true := by
  rwa [driversExpected_of_framing h]

/-- Recording an error changes the error state only. -/
theorem I2cState.Inv.raise {i : I2cState} (hinv : i.Inv) (c : I2cError) : (i.raise c).Inv := by
  have hcode : (i.raise c).CodeFits := CodeFits.raise hinv.errcode c
  obtain ⟨n, t, m, e, heq⟩ := i.raise_frame c
  rw [heq] at hcode ⊢
  exact { hinv with errcode := hcode }

/-- The acknowledge sampled and the kind of the byte sent are free. -/
theorem I2cState.Inv.of_ack {i : I2cState} (hinv : i.Inv) (ack : Bool) : { i with ack := ack }.Inv := { hinv with }

theorem I2cState.Inv.of_sent {i : I2cState} (hinv : i.Inv) (sent : Bool) : { i with sent := sent }.Inv := { hinv with }

/-- Outside a frame the invariant asks for the state's phase and drivers, a pending start in STOPPING only, and the
counter 0 outside the waits. -/
theorem I2cState.Inv.enter {i : I2cState} (hinv : i.Inv) {en : Bool} (hen : en = true) {st : I2cSt} {ph : I2cPhase}
    {scl sda spend : Bool} {wcnt : BitVec 16} (hon : st ≠ .off) (hno : ¬ (st = .addressing ∨ st = .transmitting))
    (hphase : phaseFits st ph = true) (hscl : driverFits (driversExpected st ph).1 scl = true)
    (hsda : driverFits (driversExpected st ph).2 sda = true) (hpending : spend = true → st = .stopping)
    (hwcnt : ph.isWait = false → wcnt = 0#16) :
    { i with en := en, st := st, ph := ph, sclDrv := scl, sdaDrv := sda, spend := spend, wcnt := wcnt }.Inv :=
  have noFrame {P : Prop} (hf : (st == .addressing || st == .transmitting) = true) : P :=
    absurd (by simpa using hf) hno
  { hinv with
    off_iff_disabled := iff_of_false hon (by simp [hen])
    phase := hphase
    bits_left := noFrame
    bits_done := noFrame
    shifted := noFrame
    bit_on_wire := noFrame
    write_intent := fun hst => absurd (.inl hst) hno
    scl := hscl
    sda := hsda
    pending := hpending
    wait_reset := hwcnt }

/-- Within a frame, from one data-bit phase to another or from one acknowledge phase to another, the invariant asks for
the phase's drivers, the bit on the wire, and the counter 0 outside the waits. -/
theorem I2cState.Inv.within_frame {i : I2cState} (hinv : i.Inv) (hst : i.st = .addressing ∨ i.st = .transmitting)
    {ph : I2cPhase} {scl sda : Bool} {wcnt : BitVec 16} (hphase : phaseFits .transmitting ph = true)
    (hsame : ph.isBit = i.ph.isBit) (hwire : ph = .b1 ∨ ph = .b2 ∨ ph = .b3 → sda = !i.shreg.getLsbD 7)
    (hscl : driverFits (driversExpected .transmitting ph).1 scl = true)
    (hsda : driverFits (driversExpected .transmitting ph).2 sda = true) (hwcnt : ph.isWait = false → wcnt = 0#16) :
    { i with ph := ph, sclDrv := scl, sdaDrv := sda, wcnt := wcnt }.Inv :=
  { hinv with
    phase := (phaseFits_of_framing hst ph).trans hphase
    bits_left := fun hf hbit => hinv.bits_left hf (hsame ▸ hbit)
    bits_done := fun hf hbit => hinv.bits_done hf (hsame ▸ hbit)
    bit_on_wire := fun _ => hwire
    scl := sclFits_of_framing hst hscl
    sda := sdaFits_of_framing hst hsda
    wait_reset := hwcnt }

/-- The drivers a phase of a frame finds. -/
theorem I2cState.Inv.drivers_of_framing {i : I2cState} (hinv : i.Inv)
    (hst : i.st = .addressing ∨ i.st = .transmitting) :
    driverFits (driversExpected .transmitting i.ph).1 i.sclDrv = true ∧
      driverFits (driversExpected .transmitting i.ph).2 i.sdaDrv = true :=
  driversExpected_of_framing hst i.ph ▸ ⟨hinv.scl, hinv.sda⟩

/-! ### The waits (40_i2c_master.md R161, R174) -/

theorem I2cState.Inv.timeout {i : I2cState} (hinv : i.Inv) (hen : i.en = true) (c : I2cError) :
    (i.timeout c).i2c.Inv :=
  raise (hinv.enter hen (st := .idle) (ph := .noPhase) (scl := false) (sda := false) (spend := false) (wcnt := 0#16)
    nofun nofun rfl rfl rfl nofun fun _ => rfl) c

theorem I2cState.Inv.wait {i : I2cState} (hinv : i.Inv) (hen : i.en = true) (hw : i.ph.isWait = true) {cond : Bool}
    {c : I2cError} {pass : I2cState → I2cEffect} (hpass : (pass { i with wcnt := 0#16 }).i2c.Inv) :
    (i.wait cond c pass).i2c.Inv :=
  wait_keeps I2cState.Inv i cond c pass hpass (hinv.timeout hen c)
    { hinv with wait_reset := fun h => absurd (hw.symm.trans h) nofun }

/-! ### The phases, by state -/

theorem I2cState.Inv.phaseAction_of_starting {i : I2cState} (hinv : i.Inv) (hst : i.st = .starting) (env : BusLines) :
    (i.phaseAction env).i2c.Inv := by
  have hen := hinv.enabled_of_not_off (by simp [hst])
  have hspend : i.spend ≠ true := fun h => by simpa [hst] using hinv.pending h
  obtain ⟨hf, hscl, hsda, hwcnt⟩ := And.intro hinv.phase (And.intro hinv.scl (And.intro hinv.sda hinv.wait_reset))
  rw [hst] at hf hscl hsda
  cases hph : i.ph <;> rw [hph] at hf hscl hsda hwcnt <;> simp only [phaseAction, hph]
  case s0 =>
    refine hinv.wait hen (by rw [hph]; rfl) ?_
    have hs1 := hinv.enter hen (st := .starting) (ph := .s1) (sda := true) (wcnt := 0#16) nofun nofun rfl hscl rfl
      (absurd · hspend) fun _ => rfl
    rwa [← hst] at hs1
  case s1 =>
    exact hinv.enter hen (st := .started) (ph := .noPhase) (scl := true) nofun nofun rfl rfl hsda (absurd · hspend)
      fun _ => hwcnt rfl
  all_goals cases hf

theorem I2cState.Inv.phaseAction_of_stopping {i : I2cState} (hinv : i.Inv) (hst : i.st = .stopping) (env : BusLines) :
    (i.phaseAction env).i2c.Inv := by
  have hen := hinv.enabled_of_not_off (by simp [hst])
  obtain ⟨hf, hscl, hsda, hwcnt⟩ := And.intro hinv.phase (And.intro hinv.scl (And.intro hinv.sda hinv.wait_reset))
  have stay {ph : I2cPhase} {scl sda : Bool} {wcnt : BitVec 16} (hphase : phaseFits .stopping ph = true)
      (hscl : driverFits (driversExpected .stopping ph).1 scl = true)
      (hsda : driverFits (driversExpected .stopping ph).2 sda = true) (hwcnt : ph.isWait = false → wcnt = 0#16) :
      { i with ph := ph, sclDrv := scl, sdaDrv := sda, wcnt := wcnt }.Inv := by
    have h := hinv.enter hen (st := .stopping) (spend := i.spend) nofun nofun hphase hscl hsda (fun _ => rfl) hwcnt
    rwa [← hst] at h
  rw [hst] at hf hscl hsda
  cases hph : i.ph <;> rw [hph] at hf hscl hsda hwcnt <;> simp only [phaseAction, hph]
  case p0 => exact stay (ph := .p1) (sda := true) rfl hscl rfl fun _ => hwcnt rfl
  case p1 => exact stay (ph := .p2) (scl := false) rfl rfl hsda nofun
  case p2 => exact hinv.wait hen (by rw [hph]; rfl) (stay (ph := .p3) rfl hscl hsda fun _ => rfl)
  case p3 =>
    unfold phaseP3
    split
    next =>
      exact hinv.enter hen (st := .starting) (ph := .s0) nofun nofun rfl hscl rfl nofun fun _ => rfl
    next hspend =>
      exact hinv.enter hen (st := .idle) (ph := .noPhase) nofun nofun rfl hscl rfl (absurd · hspend) fun _ => hwcnt rfl
  all_goals cases hf

/-- A bit shifted out leaves one bit less to send, the next one on top. -/
theorem I2cState.Inv.phaseB3 {i : I2cState} (hinv : i.Inv) (hst : i.st = .addressing ∨ i.st = .transmitting)
    (hph : i.ph = .b3) : i.phaseB3.i2c.Inv := by
  have hf : i.framing = true := i.framing_iff.2 hst
  have hleft : 1 ≤ i.bitcnt := hinv.bits_left hf (by rw [hph]; rfl)
  have hle : i.bitcnt ≤ 8 := hinv.bitcnt_le
  have hshift : i.shreg <<< 1 = i.txbyte <<< (8 - (i.bitcnt - 1)) := by
    rw [hinv.shifted hf, ← BitVec.shiftLeft_add, show 8 - (i.bitcnt - 1) = 8 - i.bitcnt + 1 by omega]
  have next {ph : I2cPhase} (hph' : ph = .b0 ∨ ph = .a0) (hbits : ph.isBit = true → 1 ≤ i.bitcnt - 1)
      (hdone : ph.isBit = false → i.bitcnt - 1 = 0) :
      { i with sclDrv := true, shreg := i.shreg <<< 1, bitcnt := i.bitcnt - 1, ph := ph }.Inv :=
    { hinv with
      phase := by rw [phaseFits_of_framing hst]; rcases hph' with rfl | rfl <;> rfl
      bitcnt_le := (Nat.sub_le _ _).trans hle
      bits_left := fun _ => hbits
      bits_done := fun _ => hdone
      shifted := fun _ => hshift
      bit_on_wire := by rcases hph' with rfl | rfl <;> nofun
      scl := sclFits_of_framing hst (by rcases hph' with rfl | rfl <;> rfl)
      sda := sdaFits_of_framing hst (by rcases hph' with rfl | rfl <;> rfl)
      wait_reset := fun _ => hinv.wait_reset (by rw [hph]; rfl) }
  unfold I2cState.phaseB3
  split
  next hlast => exact next (.inr rfl) nofun fun _ => hlast
  next hmore => exact next (.inl rfl) (fun _ => Nat.one_le_iff_ne_zero.2 hmore) nofun

theorem I2cState.Inv.phaseAction_of_framing {i : I2cState} (hinv : i.Inv)
    (hst : i.st = .addressing ∨ i.st = .transmitting) (env : BusLines) : (i.phaseAction env).i2c.Inv := by
  have hon : i.st ≠ .off := by rcases hst with h | h <;> simp [h]
  have hen := hinv.enabled_of_not_off hon
  have hspend : i.spend ≠ true := fun h => by
    have hstop := hinv.pending h
    rcases hst with h | h <;> simp [h] at hstop
  obtain ⟨hscl, hsda⟩ := hinv.drivers_of_framing hst
  have hf := (phaseFits_of_framing hst i.ph).symm.trans hinv.phase
  have hwire := hinv.bit_on_wire (i.framing_iff.2 hst)
  have hwcnt := hinv.wait_reset
  cases hph : i.ph <;> rw [hph] at hf hscl hsda hwire hwcnt <;> simp only [phaseAction, hph]
  case b0 =>
    exact hinv.within_frame hst (ph := .b1) rfl (by rw [hph]; rfl) (fun _ => rfl) hscl rfl fun _ => hwcnt rfl
  case b1 =>
    exact hinv.within_frame hst (ph := .b2) (scl := false) rfl (by rw [hph]; rfl) (fun _ => hwire (.inl rfl)) rfl rfl
      nofun
  case b2 =>
    exact hinv.wait hen (by rw [hph]; rfl) (hinv.within_frame hst (ph := .b3) rfl (by rw [hph]; rfl)
      (fun _ => hwire (.inr (.inl rfl))) hscl rfl fun _ => rfl)
  case b3 => exact hinv.phaseB3 hst hph
  case a0 =>
    exact hinv.within_frame hst (ph := .a1) (sda := false) rfl (by rw [hph]; rfl) nofun hscl rfl fun _ => hwcnt rfl
  case a1 =>
    exact hinv.within_frame hst (ph := .a2) (scl := false) rfl (by rw [hph]; rfl) nofun rfl hsda nofun
  case a2 =>
    refine hinv.wait hen (by rw [hph]; rfl) ?_
    exact (hinv.within_frame hst (ph := .a3) rfl (by rw [hph]; rfl) nofun hscl hsda fun _ => rfl).of_ack _
  case a3 =>
    unfold phaseA3
    split
    · exact (hinv.enter hen (st := .ready) (ph := .noPhase) (scl := true) nofun nofun rfl rfl hsda (absurd · hspend)
        fun _ => hwcnt rfl).of_sent _
    · exact raise (hinv.enter hen (st := .stopping) (ph := .p0) (scl := true) nofun nofun rfl rfl rfl (fun _ => rfl)
        fun _ => rfl) _
  all_goals cases hf

theorem I2cState.Inv.tick {i : I2cState} (hinv : i.Inv) (env : BusLines) : (i.tick env).i2c.Inv := by
  unfold I2cState.tick
  split
  next hen =>
    cases hst : i.st
    case starting => exact hinv.phaseAction_of_starting hst env
    case addressing => exact hinv.phaseAction_of_framing (.inl hst) env
    case transmitting => exact hinv.phaseAction_of_framing (.inr hst) env
    case stopping => exact hinv.phaseAction_of_stopping hst env
    all_goals simp [tickEnabled, hst] at hen
  next => exact hinv

/-! ### What the host does to I2CM -/

/-- An address frame's low bit is the write-intent bit 0 (30_encoding.md R133). -/
theorem addressFrame_writeIntent (a : BitVec 7) : (addressFrame a).getLsbD 0 = false := by
  rw [addressFrame, BitVec.getLsbD_append]
  rfl

theorem I2cState.Inv.sclDrv_of_waited {i : I2cState} (hinv : i.Inv) (hst : i.st = .started ∨ i.st = .ready) :
    i.sclDrv = true := by
  have hscl := hinv.scl
  rcases hst with hst | hst <;> rw [hst] at hscl <;> simpa [driversExpected, driverFits] using hscl

/-- A frame loaded in STARTED or READY, where SCL is low, has all its bits to send. -/
theorem I2cState.Inv.loadFrame {i : I2cState} (hinv : i.Inv) (hfrom : i.st = .started ∨ i.st = .ready) (b : Byte)
    {st : I2cSt} (hst : st = .addressing ∨ st = .transmitting) (hintent : st = .addressing → b.getLsbD 0 = false) :
    (i.loadFrame b st).Inv :=
  { hinv with
    off_iff_disabled := iff_of_false (by rintro rfl; simp at hst) (by simp [I2cState.loadFrame, hinv.enabled_of_waited hfrom])
    phase := phaseFits_of_framing hst .b0
    bitcnt_le := le_refl 8
    bits_left := fun _ _ => Nat.le_add_left 1 7
    bits_done := nofun
    shifted := fun _ => by simp [I2cState.loadFrame]
    bit_on_wire := nofun
    write_intent := hintent
    scl := sclFits_of_framing hst (beq_iff_eq.2 (hinv.sclDrv_of_waited hfrom))
    sda := sdaFits_of_framing hst rfl
    pending := fun h => by rcases hfrom with hfrom | hfrom <;> exact absurd (hfrom.symm.trans (hinv.pending h)) nofun
    wait_reset := fun _ => rfl }

theorem I2cState.Inv.acceptStart {i : I2cState} (hinv : i.Inv) (hen : i.en = true) (ha : i.allowsStart = true) :
    i.acceptStart.Inv := by
  unfold I2cState.acceptStart
  split
  next hidle =>
    obtain ⟨hscl, hsda⟩ := And.intro hinv.scl hinv.sda
    rw [hidle] at hscl hsda
    exact hinv.enter hen (st := .starting) (ph := .s0) nofun nofun rfl hscl hsda
      (fun h => by simpa [hidle] using hinv.pending h) fun _ => rfl
  next hidle =>
    obtain ⟨hstop, -⟩ : i.st = .stopping ∧ i.spend = false := by simpa [allowsStart, hidle] using ha
    exact { hinv with pending := fun _ => hstop }

theorem I2cState.Inv.acceptStop {i : I2cState} (hinv : i.Inv) (hen : i.en = true) (ha : i.allowsStop = true) :
    i.acceptStop.Inv := by
  have hfrom : i.st = .started ∨ i.st = .ready := by simpa [allowsStop] using ha
  exact hinv.enter hen (st := .stopping) (ph := .p0) nofun nofun rfl (by rw [hinv.sclDrv_of_waited hfrom]; rfl) rfl
    (fun _ => rfl) fun _ => rfl

/-- Enabling leaves OFF, where both lines are released; disabling comes back to it (40_i2c_master.md R180). -/
theorem I2cState.Inv.writeCtrl {i : I2cState} (hinv : i.Inv) (v : Word) : (i.writeCtrl v).i2c.Inv := by
  unfold I2cState.writeCtrl
  split_ifs with hv hen hen
  · exact hinv
  · have hoff : i.st = .off := hinv.off_iff_disabled.2 (by simpa using hen)
    obtain ⟨hf, hscl, hsda⟩ := And.intro hinv.phase (And.intro hinv.scl hinv.sda)
    rw [hoff] at hf hscl hsda
    have hph : i.ph = .noPhase := by
      cases hph : i.ph
      case noPhase => rfl
      all_goals rw [hph] at hf; cases hf
    exact hinv.enter rfl (st := .idle) (ph := .noPhase) nofun nofun rfl hscl hsda
      (fun h => absurd (hoff.symm.trans (hinv.pending h)) nofun) fun _ => hinv.wait_reset (by rw [hph]; rfl)
  · exact { hinv with
      off_iff_disabled := iff_of_true rfl rfl
      phase := rfl
      bitcnt_le := Nat.zero_le 8
      bits_left := nofun
      bits_done := nofun
      shifted := nofun
      bit_on_wire := nofun
      write_intent := nofun
      scl := rfl
      sda := rfl
      pending := nofun
      wait_reset := fun _ => rfl }
  · exact hinv

theorem I2cState.reset_inv : I2cState.reset.Inv where
  off_iff_disabled := iff_of_true rfl rfl
  phase := rfl
  bitcnt_le := Nat.zero_le 8
  bits_left := nofun
  bits_done := nofun
  shifted := nofun
  bit_on_wire := nofun
  write_intent := nofun
  scl := rfl
  sda := rfl
  pending := nofun
  wait_reset := fun _ => rfl
  errcode := iff_of_true rfl rfl

theorem I2cMove.inv {i : I2cState} {e : I2cEffect} (m : I2cMove i e) (hinv : i.Inv) : e.i2c.Inv := by
  cases m
  case same => exact hinv
  case tick env => exact hinv.tick env
  case ctrl v => exact hinv.writeCtrl v
  case timing v => exact { hinv with }
  case timeout v => exact { hinv with }
  case clear v => exact { hinv with errcode := I2cState.CodeFits.clearStatus hinv.errcode v }
  case error c _ => exact hinv.raise c
  case start hen ha => exact hinv.acceptStart hen ha
  case addrw a _ hst => exact hinv.loadFrame (.inl hst) _ (.inl rfl) fun _ => addressFrame_writeIntent a
  case write b _ hst => exact hinv.loadFrame (.inr hst) _ (.inr rfl) nofun
  case stop hen ha => exact hinv.acceptStop hen ha
  case reset => exact I2cState.reset_inv

end Sys2Proof.Machine
end

section
/-! PROOFS. Every move of FPROG keeps its invariant, and with it every step keeps that of the block (41_flash_programmer.md
R211 to R229, 70_reset_and_hazards.md R320 to R322). -/

namespace Sys2Proof.Machine

/-! ### What keeps the invariant of FPROG whatever the phase -/

theorem FlashState.Inv.raise {p : Params} {f : FlashState} (hinv : f.Inv p) (c : FlError) : (f.raise c).Inv p := by
  have hcode : (f.raise c).CodeFits := CodeFits.raise hinv.errcode c
  obtain ⟨w, g, v, m, e, heq⟩ := f.raise_frame c
  rw [heq] at hcode ⊢
  exact { hinv with errcode := hcode }

theorem FlashState.Inv.finish {p : Params} {f : FlashState} (hinv : f.Inv p) : f.finish.Inv p :=
  { hinv with
    erase_kind := nofun
    program_kind := nofun
    idle_phase := fun _ => rfl
    verify_phase := nofun
    issue_wcnt := fun _ => rfl
    wcnt_lt := Nat.zero_lt_of_lt hinv.wcnt_lt
    busy_unlocked := nofun
    target_checked := nofun }

theorem FlashState.Inv.of_eop {p : Params} {f : FlashState} (hinv : f.Inv p) (eop : Bool) :
    { f with eop := eop }.Inv p := { hinv with }

/-! ### The ticks (41_flash_programmer.md R225 to R228) -/

theorem FlashState.Inv.issue {p : Params} {f : FlashState} (hinv : f.Inv p) (hbusy : f.opstate = .erase ∨ f.opstate = .program)
    (m : Cells) : (f.issue m).fl.Inv p := by
  unfold FlashState.issue
  split
  · exact (hinv.raise .notErased).finish
  · exact { hinv with
      idle_phase := fun hidle => by rcases hbusy with h | h <;> exact absurd (h.symm.trans hidle) nofun
      verify_phase := fun _ => rfl
      issue_wcnt := nofun
      wcnt_lt := Nat.zero_lt_of_lt hinv.wcnt_lt }

theorem FlashState.Inv.awaitStatus {p : Params} {f : FlashState} (hinv : f.Inv p) (hbusy : f.bsy = true)
    (hph : f.ph = .await) (status : ArrayStatus) : (f.awaitStatus p status).Inv p := by
  cases status with
  | busy =>
    by_cases hspent : p.flashOpTimeout ≤ f.wcnt + 1
    · rw [FlashState.awaitStatus, if_pos hspent]
      exact (hinv.raise .arrayTimeout).finish
    · rw [FlashState.awaitStatus, if_neg hspent]
      exact { hinv with
        issue_wcnt := fun h => absurd (hph.symm.trans h) nofun
        wcnt_lt := not_le.1 hspent }
  | ok =>
    exact { hinv with
      erase_kind := nofun
      program_kind := nofun
      idle_phase := nofun
      verify_phase := fun _ => hph
      busy_unlocked := fun _ => hinv.busy_unlocked hbusy
      target_checked := fun _ => hinv.target_checked hbusy }
  | fail => exact (hinv.raise f.failCode).finish

theorem FlashState.Inv.verify {p : Params} {f : FlashState} (hinv : f.Inv p) (m : Cells) : (f.verify p m).fl.Inv p := by
  unfold FlashState.verify
  split
  · exact (hinv.of_eop true).finish
  · exact (hinv.raise .verify).finish

theorem FlashState.Inv.tick {p : Params} {f : FlashState} (hinv : f.Inv p) (a : ArrayAnswer) (content : List Byte)
    (m : Cells) : (f.tick p a content m).fl.Inv p := by
  cases hop : f.opstate <;> cases hph : f.ph <;> simp only [FlashState.tick, hop, hph]
  case idle.issue | idle.await => exact hinv
  case erase.issue => exact hinv.issue (.inl hop) m
  case program.issue => exact hinv.issue (.inr hop) m
  case erase.await | program.await => exact hinv.awaitStatus (by simp [bsy, hop]) hph a.status
  case verify.issue | verify.await => exact hinv.verify m

/-! ### The commands (41_flash_programmer.md R211 to R223) -/

theorem FlashState.Inv.operate {p : Params} {f : FlashState} (hinv : f.Inv p) (k : FlKind) : (f.operate p k).Inv p := by
  rcases f.operate_cases p k with ⟨c, -, heq⟩ | ⟨-, hunlocked, hchecked, heq⟩ <;> rw [heq]
  · exact hinv.raise c
  · exact { hinv with
      erase_kind := by
        cases k with
        | erase => exact fun _ => rfl
        | program => exact nofun
      program_kind := by
        cases k with
        | erase => exact nofun
        | program => exact fun _ => rfl
      idle_phase := fun _ => rfl
      verify_phase := by cases k <;> nofun
      issue_wcnt := fun _ => rfl
      wcnt_lt := Nat.zero_lt_of_lt hinv.wcnt_lt
      busy_unlocked := fun _ => hunlocked
      target_checked := fun _ => hchecked }

theorem FlashState.Inv.lock {p : Params} {f : FlashState} (hinv : f.Inv p) : f.lock.Inv p := by
  unfold FlashState.lock
  split
  · exact hinv.raise .busy
  next hidle => exact { hinv with busy_unlocked := fun h => absurd h hidle, keyseq_locked := nofun }

/-- A key word that is not ignored finds FPROG locked, and so idle. -/
theorem FlashState.Inv.keyWord {p : Params} {f : FlashState} (hinv : f.Inv p) (v : Word) : (f.keyWord p v).Inv p := by
  have cleared {locked : Bool} (hlocked : f.bsy = true → locked = false) :
      { f with keyseq := false, locked := locked }.Inv p :=
    { hinv with busy_unlocked := hlocked, keyseq_locked := nofun }
  unfold FlashState.keyWord
  split_ifs with hunlocked hfirst hkey1 hkey2
  · exact hinv
  · exact { hinv with keyseq_locked := fun _ => by simpa using hunlocked }
  · exact hinv.raise .key
  · exact cleared fun _ => rfl
  · exact (cleared hinv.busy_unlocked).raise .key

theorem FlashState.reset_inv {p : Params} (hp : 1 ≤ p.flashOpTimeout) : FlashState.reset.Inv p where
  erase_kind := nofun
  program_kind := nofun
  idle_phase := fun _ => rfl
  verify_phase := nofun
  issue_wcnt := fun _ => rfl
  wcnt_lt := hp
  busy_unlocked := nofun
  keyseq_locked := nofun
  target_checked := nofun
  errcode := iff_of_true rfl rfl

theorem FlMove.inv {p : Params} {f : FlashState} {m : Cells} {e : FlEffect} (move : FlMove p f m e)
    (hinv : f.Inv p) : e.fl.Inv p := by
  cases move
  case same => exact hinv
  case tick a content => exact hinv.tick a content m
  case addr v => exact { hinv with }
  case data v => exact { hinv with }
  case clear v => exact { hinv with errcode := FlashState.CodeFits.clearStatus hinv.errcode v }
  case reserved => exact hinv.raise .cmdReserved
  case operate k => exact hinv.operate k
  case lock => exact hinv.lock
  case key v => exact hinv.keyWord v
  case reset => exact FlashState.reset_inv (Nat.zero_lt_of_lt hinv.wcnt_lt)

/-- What FPROG writes is a target that passed the checks, and so lies in the region. -/
theorem FlMove.array_region {p : Params} {f : FlashState} {m : Cells} {e : FlEffect} (move : FlMove p f m e)
    (hv : p.valid = true) (hinv : f.Inv p) (h : withinRegion p m = true) : withinRegion p e.array = true := by
  rcases move.array_cases with heq | ⟨hbusy, vs, hlen, heq⟩ <;> rw [heq]
  · exact h
  · exact writeBytes_region p vs m _ (fun k hk => target_in_region hv (hinv.target_checked hbusy) (hlen ▸ hk)) h

/-! ### The obligations -/

/-- Settles O54: every step is a move of each engine, and each move keeps its part of the invariant; the trace follows
the ownership of the bus. -/
theorem everyStepKeepsTheInvariant : Obligations.EveryStepKeepsTheInvariant := by
  intro s t hinv h
  obtain ⟨hparams, -, ⟨e, m, hi2c, -⟩, ⟨d, move, hfl, harray⟩⟩ := step_moves s t h
  exact {
    params := hparams ▸ hinv.params
    i2c := hi2c ▸ m.inv hinv.i2c
    fl := by rw [hparams, hfl]; exact move.inv hinv.fl
    array := harray ▸ move.array_wf hinv.array
    region := by rw [hparams, harray]; exact move.array_region hinv.params hinv.fl hinv.region
    trace := (hinv.ownership.step h).trace }

/-- Settles O55: the engines at their reset values, the array of a list of writes, and the parameters of an admissible
configuration. -/
theorem resetStateSatisfiesTheInvariant : Obligations.ResetStateSatisfiesTheInvariant where
  params := Config.chosen.ok
  i2c := I2cState.reset_inv
  fl := by
    obtain ⟨-, -, -, -, -, -, -, -, -, htimeout⟩ := (Params.valid_iff _).1 Config.chosen.ok
    exact FlashState.reset_inv htimeout
  array := (arrayOf_wf _ _).1
  region := (arrayOf_wf _ _).2
  trace := rfl

end Sys2Proof.Machine
end

section
/-! PROOFS. Where a host access lands and what it does there: the ten registers, the flash region, neither, and the
instruction words the host places (20_memory.md R80 to R90, 30_encoding.md R116, R135). -/

namespace Sys2Proof

/-! ### The table's first row that fits, and the register's decoder (30_encoding.md R135) -/

/-- A row's instruction is written to the row's register. -/
theorem opcodeTable_reg (v : Word) : ∀ row ∈ opcodeTable, (row.make v).reg = row.reg := by
  simp [opcodeTable, Instr.reg]

/-- The first row that fits is also the first that fits among the rows of its own register. -/
theorem firstFit_filter_reg {rows : List OpcodeRow} {v : Word} {i : Instr}
    (hreg : ∀ row ∈ rows, (row.make v).reg = row.reg) (h : firstFit rows v = some i) :
    firstFit (rows.filter fun row => row.reg == i.reg) v = some i := by
  induction rows with
  | nil => cases h
  | cons row rows ih =>
    rw [firstFit] at h
    by_cases hfits : row.fits v = true
    · rw [if_pos hfits] at h
      cases h
      have hsame : (row.reg == (row.make v).reg) = true := beq_iff_eq.2 (hreg row List.mem_cons_self).symm
      rw [List.filter_cons, if_pos hsame, firstFit, if_pos hfits]
    · rw [if_neg hfits] at h
      have hrest := ih (fun row' hrow' => hreg row' (List.mem_cons_of_mem row hrow')) h
      rw [List.filter_cons]
      split
      · rwa [firstFit, if_neg hfits]
      · exact hrest

theorem ofOffset_cmdReg {off : Nat} {r : CmdReg} (h : CmdReg.ofOffset off = some r) : off = r.offset := by
  unfold CmdReg.ofOffset at h
  split_ifs at h <;> cases h <;> assumption

/-- Whatever register a number names, its instruction is what its own register's decoder reads from the word. -/
theorem decode_of_decodeTableWord {nbits w : Nat} {i : Instr} (h : decodeTableWord nbits w = some i) :
    decode i.reg (BitVec.ofNat 32 w) = .ok i ∧
      (tableWordRegister nbits w ≠ 0 → tableWordRegister nbits w = i.reg.offset) := by
  simp only [decodeTableWord] at h
  split at h
  next hbare =>
    refine ⟨?_, absurd hbare⟩
    rw [decode, firstFit_filter_reg (opcodeTable_reg _) h]
  next =>
    split at h
    · cases h
    · rename_i r hr
      split at h
      · rename_i j hd
        cases h
        rw [decode_reg _ _ _ hd]
        exact ⟨hd, fun _ => ofOffset_cmdReg hr⟩
      · cases h

end Sys2Proof

namespace Sys2Proof.Machine

theorem tableAccess_of_decodes {nbits w : Nat} {i : Instr} (h : decodeTableWord nbits w = some i) :
    tableAccess nbits w = ⟨.reg i.reg.offset, .four, some (BitVec.ofNat 32 w)⟩ := by
  obtain ⟨-, hnamed⟩ := decode_of_decodeTableWord h
  simp only [tableAccess]
  split
  next => rw [h]
  next hne => rw [hnamed hne]

/-! ### The register window (30_encoding.md R116, 20_memory.md R80) -/

/-- The ten registers with their offsets (30_encoding.md R116). -/
def registerSlots : List (Reg × Nat) := [(.i2cCtrl, 0x00), (.i2cTiming, 0x04), (.i2cTimeout, 0x08), (.i2cCmd, 0x0C),
  (.i2cStat, 0x10), (.flKey, 0x20), (.flCmd, 0x24), (.flAddr, 0x28), (.flData, 0x2C), (.flStat, 0x30)]

theorem registerSlots_spec : ∀ slot ∈ registerSlots, Reg.ofOffset slot.2 = some slot.1 := by decide

theorem placeOf_reg (p : Params) {off : Nat} (h : off < 0x40) : placeOf p (.reg off) = .window off := if_pos h

theorem placeAddr_window (p : Params) {off : Nat} (h : off < 0x40) : placeAddr p (p.blkBase + off) = .window off := by
  rw [placeAddr, if_pos ⟨Nat.le_add_right _ _, Nat.add_lt_add_left h _⟩, Nat.add_sub_cancel_left]

theorem writeCommand_of_decode {r : CmdReg} {v : Word} {i : Instr} (h : decode r v = .ok i) (s : State) :
    writeCommand r v s = exec i s := by
  rw [writeCommand, h]

/-- Settles O6: the step is the access to the window, and a write to a command register is what its decoder reads. -/
theorem stepRunsDecodedInstruction : Obligations.StepRunsDecodedInstruction := by
  refine ⟨fun s env rest acc q off v hs hq hp hsize hw => ?_, fun p off hoff =>
    ⟨placeOf_reg p hoff, fun a ha => (congrArg (placeAddr p) ha).trans (placeAddr_window p hoff)⟩⟩
  have written (r : Reg) (hr : (r, off) ∈ registerSlots) :
      step s = writeReg r v { s with sched := rest, hostQ := q, response := .written } :=
    (step_window s env rest acc q off hs hq hp).trans
      (windowAccess_write env _ hsize (registerSlots_spec (r, off) hr) hw)
  refine ⟨written, fun r i hr hd => ?_⟩
  simp only [List.mem_cons, Prod.mk.injEq, List.not_mem_nil, or_false] at hr
  rcases hr with ⟨rfl, rfl⟩ | ⟨rfl, rfl⟩ | ⟨rfl, rfl⟩
  · exact (written .i2cCmd (by decide)).trans (writeCommand_of_decode hd _)
  · exact (written .flKey (by decide)).trans (writeCommand_of_decode hd _)
  · exact (written .flCmd (by decide)).trans (writeCommand_of_decode hd _)

/-- Settles O7: the placed word is a write to the register of its instruction, whose decoder reads it. -/
theorem placedWordRunsItsInstruction : Obligations.PlacedWordRunsItsInstruction := by
  intro s nbits w i h
  obtain ⟨hd, -⟩ := decode_of_decodeTableWord h
  have hslot : (i.reg, i.reg.offset) ∈ [(CmdReg.i2cCmd, 0x0C), (.flKey, 0x20), (.flCmd, 0x24)] := by
    cases i.reg <;> decide
  have hplace : placeOf s.params (tableAccess nbits w).target = .window i.reg.offset := by
    rw [tableAccess_of_decodes h]
    exact placeOf_reg _ (by cases i.reg <;> decide)
  obtain ⟨steps, -⟩ := stepRunsDecodedInstruction
  obtain ⟨-, hstep⟩ := steps (s.withFetchWord nbits w) ⟨true, true⟩ s.sched (tableAccess nbits w) s.hostQ _ _ rfl rfl
    hplace rfl rfl
  exact hstep i.reg i hslot hd

/-- Settles O42: the step is the access to the window, and a read only answers. -/
theorem registerReadsHaveNoSideEffect : Obligations.RegisterReadsHaveNoSideEffect :=
  fun s env rest acc q off r hs hq hp hsize hw hr =>
    (step_window s env rest acc q off hs hq hp).trans
      (windowAccess_read env _ hsize (registerSlots_spec (r, off) hr) hw)

/-- Settles O21: an instruction sets the state of one engine, and the array is no part of either. -/
theorem commandsChangeOnlyTheirEngine : Obligations.CommandsChangeOnlyTheirEngine := by
  intro i s t h
  rcases exec_cases i s t h with ⟨hreg, j, rfl⟩ | ⟨hreg, f, rfl⟩
  · exact ⟨.inl rfl, fun _ => rfl, absurd hreg, fun _ => rfl⟩
  · exact ⟨.inr rfl, fun h => absurd h hreg, fun _ => rfl, fun _ => rfl⟩

/-! ### The flash region (20_memory.md R82, R89, R90) -/

/-- A turn whose access lands in the region: a read while busy stays, everything else is performed. -/
theorem step_region {s : State} {env : BusLines} {rest : List Turn} {acc : HostAccess} {q : List HostAccess} {a : Nat}
    (hs : s.sched = .host env :: rest) (hq : s.hostQ = acc :: q) (hp : placeOf s.params acc.target = .region a) :
    step s = if s.fl.bsy && acc.wdata.isNone then .next { s with sched := rest, response := .held }
      else regionAccess a acc { s with sched := rest, hostQ := q } := by
  simp only [step, hs, takeTurn, hostTurn, hq, isHeld, hp, Bool.and_true, performAccess]
  rfl

theorem littleEndian_lt (bs : List Byte) : littleEndian bs < 256 ^ bs.length := by
  induction bs with
  | nil => decide
  | cons b bs ih =>
    have hb : b.toNat < 256 := b.isLt
    rw [littleEndian, List.length_cons, Nat.pow_succ]
    omega

theorem arrayRead_lt (m : Cells) (a : Nat) (size : Size) : arrayRead m a size.bytes < 2 ^ 32 := by
  refine (littleEndian_lt _).trans_le ?_
  rw [readBytes_length]
  cases size <;> decide

theorem arrayRead_two (m : Cells) (a : Nat) :
    arrayRead m a 2 = (readByte m a).toNat + 256 * (readByte m (a + 1)).toNat := rfl

theorem arrayRead_four (m : Cells) (a : Nat) :
    arrayRead m a 4 = (readByte m a).toNat + 256 * (readByte m (a + 1)).toNat +
      65536 * (readByte m (a + 2)).toNat + 16777216 * (readByte m (a + 3)).toNat := by
  simp only [arrayRead, readBytes, littleEndian, Nat.add_assoc, Nat.reduceAdd]
  omega

/-- In a valid configuration the window lies apart from the region. -/
theorem placeAddr_region {p : Params} {a : Nat} (hv : p.valid = true) (hlo : p.flashBase ≤ a)
    (hhi : a < p.flashBase + p.regionSize) : placeAddr p a = .region a := by
  obtain ⟨-, -, -, -, -, -, -, hapart, -⟩ := p.valid_iff.1 hv
  have hout : ¬ (p.blkBase ≤ a ∧ a < p.blkBase + 0x40) := by omega
  exact (if_neg hout).trans (if_pos ((inRegion_iff p a).2 ⟨hlo, hhi⟩))

/-- Settles O43: by what the access is and whether FPROG is busy; an aligned read answers the bytes it names. -/
theorem flashRegionAccesses : Obligations.FlashRegionAccesses := by
  refine ⟨fun p a hv hlo hhi => placeAddr_region hv hlo hhi, fun s env rest acc q a hs hq hp => ?_⟩
  rw [step_region hs hq hp]
  refine ⟨fun v hw => ?_, fun hw hbusy => ?_, fun hw hidle hodd => ?_, fun hw hidle halign => ?_⟩
  · simp [hw, regionAccess, hostBusError]
  · simp [hw, s.fl.bsy_eq_true_iff.2 hbusy]
  · simp [hw, FlashState.bsy, hidle, regionAccess, hodd, hostBusError]
  · have hvalue : (BitVec.ofNat 32 (arrayRead s.array a acc.size.bytes)).toNat = arrayRead s.array a acc.size.bytes :=
      Nat.mod_eq_of_lt (arrayRead_lt s.array a acc.size)
    refine ⟨_, ?_, fun answer => s.aRdata_idle answer acc q a hidle hq hp hw, ?_, ?_, ?_⟩
    · simp [hw, FlashState.bsy, hidle, regionAccess, halign, State.respond]
    all_goals
      intro hsize
      rw [hvalue, hsize]
    · rfl
    · exact arrayRead_two s.array a
    · exact arrayRead_four s.array a

/-! ### Neither range (20_memory.md R81) -/

theorem placeAddr_outside {p : Params} {a : Nat} (hwindow : a < p.blkBase ∨ p.blkBase + 0x40 ≤ a)
    (hregion : a < p.flashBase ∨ p.flashBase + p.regionSize ≤ a) : placeAddr p a = .outside a := by
  have hout : ¬ (p.blkBase ≤ a ∧ a < p.blkBase + 0x40) := by omega
  exact (if_neg hout).trans (if_neg (by rw [(inRegion_eq_false_iff p a).2 hregion]; decide))

/-- Settles O44: the address is in neither range, and only an access to the region is held. -/
theorem otherAddressesAreNotTheBlocks : Obligations.OtherAddressesAreNotTheBlocks := by
  intro s env rest q a size w hs hq hwindow hregion
  have hp : placeOf s.params (.addr a) = .outside a.toNat := placeAddr_outside hwindow hregion
  simp [step, hs, takeTurn, hostTurn, hq, isHeld, hp, performAccess]

/-! ### What a turn leaves alone (10_state.md section 4, 60_exceptions.md R311) -/

/-- A register write changes one engine: I2CM and the trace, or FPROG. -/
theorem writeReg_one_engine {r : Reg} {v : Word} {s t : State} (h : writeReg r v s = .next t) :
    (∃ e, t = s.applyI2c e) ∨ ∃ f, t = s.setFl f := by
  have quiet (i : I2cState) : ∃ e, s.setI2c i = s.applyI2c e := ⟨_, (s.applyI2c_quiet i).symm⟩
  have command {i : Instr} (hx : exec i s = .next t) : (∃ e, t = s.applyI2c e) ∨ ∃ f, t = s.setFl f := by
    rcases exec_cases i s t hx with ⟨-, j, rfl⟩ | ⟨-, f, rfl⟩
    · exact .inl (quiet j)
    · exact .inr ⟨f, rfl⟩
  rcases writeReg_cases r v s t h with ⟨-, rfl⟩ | ⟨-, rfl⟩ | ⟨-, rfl⟩ | ⟨-, rfl⟩ | ⟨-, ⟨i, -, hx⟩ | rfl⟩ |
    ⟨-, rfl⟩ | ⟨-, rfl⟩ | ⟨-, rfl⟩ | ⟨-, ⟨i, -, hx⟩ | rfl⟩ | ⟨-, rfl⟩
  · exact .inl ⟨_, rfl⟩
  · exact .inl (quiet _)
  · exact .inl (quiet _)
  · exact .inl (quiet _)
  · exact command hx
  · exact .inl (quiet _)
  · exact .inr ⟨_, rfl⟩
  · exact .inr ⟨_, rfl⟩
  · exact .inr ⟨_, rfl⟩
  · exact command hx
  · exact .inr ⟨_, rfl⟩
  · exact .inr ⟨_, rfl⟩

/-- Settles O58: the ticks change their own engine by definition, and a host turn writes one register at most. -/
theorem enginesShareNoState : Obligations.EnginesShareNoState := by
  intro s t u rest hs h
  cases u with
  | host env =>
    rcases hostStep_cases s t env rest hs h with ⟨q, r, rfl⟩ | ⟨acc, q, v, r, off, -, -, -, -, -, hw⟩
    · exact ⟨rfl, rfl, fun _ _ => ⟨rfl, .inl rfl⟩, nofun, nofun⟩
    · rcases writeReg_one_engine hw with ⟨e, rfl⟩ | ⟨f, rfl⟩
      · exact ⟨rfl, rfl, fun _ _ => ⟨rfl, .inl rfl⟩, nofun, nofun⟩
      · exact ⟨rfl, rfl, fun _ _ => ⟨rfl, .inr ⟨rfl, rfl⟩⟩, nofun, nofun⟩
  | i2cTick env =>
    rw [step_i2cTick s env rest hs] at h
    cases h
    exact ⟨rfl, rfl, nofun, fun _ _ => ⟨rfl, rfl, rfl, rfl⟩, nofun⟩
  | flTick a content =>
    rw [step_flTick s a content rest hs] at h
    cases h
    exact ⟨rfl, rfl, nofun, nofun, fun _ _ _ => ⟨rfl, rfl, rfl, rfl⟩⟩
  | reset content =>
    rw [step_reset s content rest hs] at h
    cases h
    exact ⟨rfl, rfl, nofun, nofun, nofun⟩

/-- An access that faults is refused by the window or by the region, and no register write is. -/
theorem performAccess_fault {env : BusLines} {acc : HostAccess} {s : State} {f : Fault}
    (h : performAccess env acc s = .fault f) : ∃ cause, hostBusError cause s = .fault f := by
  unfold performAccess at h
  split at h
  · rename_i off _
    by_cases hbad : acc.size ≠ .four ∨ off % 4 ≠ 0
    · rw [windowAccess_rejected env off acc s hbad] at h
      exact ⟨_, h⟩
    · obtain ⟨hsize, halign⟩ : acc.size = .four ∧ off % 4 = 0 := by simpa using hbad
      obtain ⟨t, ht, -⟩ := windowAccess_accepted env off acc s hsize halign
      rw [ht] at h
      cases h
  · unfold regionAccess at h
    split at h
    · exact ⟨_, h⟩
    · split at h
      · exact ⟨_, h⟩
      · cases h
  · cases h

/-- A step that faults takes a turn of the host and its access, and leaves the state of the fault. -/
theorem step_fault {s : State} {f : Fault} (h : step s = .fault f) :
    ∃ cause rest q, hostBusError cause { s with sched := rest, hostQ := q } = .fault f := by
  unfold step at h
  split at h
  · cases h
  · rename_i u rest _
    cases u with
    | host env =>
      simp only [takeTurn, hostTurn] at h
      split at h
      · cases h
      · split at h
        · cases h
        · obtain ⟨cause, hf⟩ := performAccess_fault h
          exact ⟨cause, rest, _, hf⟩
    | i2cTick env => cases h
    | flTick a content => cases h
    | reset content => cases h

/-- Settles O59: every step that goes on keeps the mark, and the one fault there is sets it and answers the error. -/
theorem faultMarkIsSetAndNeverCleared : Obligations.FaultMarkIsSetAndNeverCleared := by
  refine ⟨fun s t h => (step_moves s t h).faulted, fun s t cause h => ?_⟩
  obtain ⟨_, rest, q, hf⟩ := step_fault h
  cases hf
  exact ⟨rfl, rfl, rfl, rfl, rfl, rfl, rfl⟩

end Sys2Proof.Machine
end

section
/-! PROOFS. Each accepted I2CM command, the enable, the fields a register write stores, and the micro-phases of a stop
(40_i2c_master.md R172, R173, R180 to R184, 30_encoding.md R117 to R119, R128). -/

namespace Sys2Proof.Machine

/-! ### An accepted command (40_i2c_master.md R181 to R184) -/

theorem exec_of_accepted {c : Instr} {s : State} (hreg : c.reg = .i2cCmd) (hnop : c ≠ .i2cNop) (hen : s.i2c.en = true)
    (hacc : i2cAccepts c s.i2c.st s.i2c.spend = true) : exec c s = .next (s.setI2c (s.i2c.accepted c)) := by
  rw [exec_eq_command hreg hnop, hacc, I2cState.command_of_allowed hen]

theorem I2cState.acceptStart_of_idle {i : I2cState} (h : i.st = .idle) :
    i.acceptStart = { i with st := .starting, ph := .s0, wcnt := 0#16 } :=
  if_pos h

theorem I2cState.acceptStart_of_stopping {i : I2cState} (h : i.st = .stopping) :
    i.acceptStart = { i with spend := true } :=
  if_neg (by rw [h]; decide)

/-- The frame byte is twice the address, the write-intent bit being 0 (30_encoding.md R133). -/
theorem addressFrame_eq (a : BitVec 7) : addressFrame a = BitVec.ofNat 8 (2 * a.toNat) := by
  revert a; decide

/-- Settles O9: START is accepted in both states, and the status bits follow the state. -/
theorem startBeginsOrIsQueued : Obligations.StartBeginsOrIsQueued := by
  intro s hen
  refine ⟨fun hidle => ⟨_, exec_of_accepted (c := .i2cStart) rfl nofun hen (by rw [hidle]; rfl),
      congrArg s.setI2c (I2cState.acceptStart_of_idle hidle), fun env => ?_⟩,
    fun hstop hspend => ⟨_, exec_of_accepted (c := .i2cStart) rfl nofun hen (by rw [hstop, hspend]; rfl),
      congrArg s.setI2c (I2cState.acceptStart_of_stopping hstop), fun env => ?_⟩⟩
  · obtain ⟨hsb, -, hbusy, -⟩ := (s.i2c.accepted .i2cStart).statWord_flags env
    have hst : (s.i2c.accepted .i2cStart).st = .starting := by
      rw [I2cState.accepted, I2cState.acceptStart_of_idle hidle]
    exact ⟨hbusy.trans (by rw [I2cState.busy, hst]; rfl), hsb.trans (by rw [I2cState.sb, hst]; rfl)⟩
  · rw [State.setI2c_i2c, I2cState.statWord_spend, I2cState.accepted, I2cState.acceptStart_of_stopping hstop]

/-- Settles O10: ADDRW is accepted in STARTED and loads the frame byte of its address. -/
theorem addrwLoadsTheAddressFrame : Obligations.AddrwLoadsTheAddressFrame := by
  intro s a hen hst
  refine ⟨_, exec_of_accepted (c := .i2cAddrw a) rfl nofun hen (by rw [hst]; rfl), ?_, fun env => ?_⟩
  · rw [← addressFrame_eq]
    rfl
  · obtain ⟨hsb, -⟩ := (s.i2c.accepted (.i2cAddrw a)).statWord_flags env
    exact hsb

/-- Settles O11: WRITE is accepted in READY and loads its byte. -/
theorem writeLoadsTheByte : Obligations.WriteLoadsTheByte := by
  intro s b hen hst
  refine ⟨_, exec_of_accepted (c := .i2cWrite b) rfl nofun hen (by rw [hst]; rfl), rfl, fun env => ?_⟩
  obtain ⟨-, -, -, haddr, htxe, hbtf, -⟩ := (s.i2c.accepted (.i2cWrite b)).statWord_flags env
  exact ⟨haddr, htxe, hbtf, (s.i2c.accepted (.i2cWrite b)).statWord_tra env⟩

/-- Settles O12: STOP is accepted in STARTED and READY. -/
theorem stopBeginsTheStopCondition : Obligations.StopBeginsTheStopCondition := by
  intro s hen hst
  have hacc : i2cAccepts .i2cStop s.i2c.st s.i2c.spend = true := by rcases hst with hst | hst <;> rw [hst] <;> rfl
  refine ⟨_, exec_of_accepted (c := .i2cStop) rfl nofun hen hacc, rfl, fun env => ?_⟩
  obtain ⟨hsb, hmsl, hbusy, haddr, htxe, hbtf, -⟩ := (s.i2c.accepted .i2cStop).statWord_flags env
  exact ⟨hsb, haddr, htxe, hbtf, (s.i2c.accepted .i2cStop).statWord_tra env, hmsl, hbusy⟩

/-! ### The enable (40_i2c_master.md R180) -/

theorem I2cState.writeCtrl_of_same {i : I2cState} {v : Word} (h : v.getLsbD 0 = i.en) : i.writeCtrl v = i.quiet := by
  cases hen : i.en <;> simp only [writeCtrl, h, hen, Bool.false_eq_true, if_true, if_false]

theorem I2cState.writeCtrl_enable {i : I2cState} {v : Word} (hv : v.getLsbD 0 = true) (hen : i.en = false) :
    i.writeCtrl v = quiet { i with en := true, st := .idle, ph := .noPhase } := by
  rw [writeCtrl, if_pos hv, if_neg (by simp [hen])]

theorem I2cState.writeCtrl_disable {i : I2cState} {v : Word} (hv : v.getLsbD 0 = false) (hen : i.en = true) :
    i.writeCtrl v = ⟨{ i with
      en := false, sclDrv := false, sdaDrv := false, st := .off, ph := .noPhase
      spend := false, wcnt := 0#16, sent := false, bitcnt := 0 }, i.releaseEvents⟩ := by
  rw [writeCtrl, if_neg (by rw [hv]; decide), if_pos hen]

theorem I2cState.writeCtrl_en (i : I2cState) (v : Word) : (i.writeCtrl v).i2c.en = v.getLsbD 0 := by
  unfold writeCtrl
  split_ifs with hv hen hen
  · exact hen.trans hv.symm
  · exact hv.symm
  · exact (Bool.eq_false_iff.2 hv).symm
  · exact (Bool.eq_false_iff.2 hen).trans (Bool.eq_false_iff.2 hv).symm

/-- Settles O33: the three cases of the bit written and the bit held. -/
theorem enableAndDisable : Obligations.EnableAndDisable := by
  refine fun s v => ⟨fun hsame => ?_, fun hv hen => ?_, fun hv hen => ?_⟩ <;> rw [writeReg]
  · rw [I2cState.writeCtrl_of_same hsame, State.applyI2c_quiet]
    rfl
  · rw [I2cState.writeCtrl_enable hv hen, State.applyI2c_quiet]
    rfl
  · rw [I2cState.writeCtrl_disable hv hen, I2cState.releaseEvents_eq]
    rfl

/-! ### Fields read back (30_encoding.md R117 to R119) -/

theorem ctrlWord_of_write (v : Word) : 0#31 ++ BitVec.ofBool (v.getLsbD 0) = v &&& 0x00000001#32 := by
  refine BitVec.eq_of_getLsbD_eq fun k hk => ?_
  simp only [BitVec.getLsbD_append]
  interval_cases k <;> simp

theorem timingWord_of_write (v : Word) :
    0#10 ++ v.extractLsb' 16 6 ++ BitVec.ofBool (v.getLsbD 15) ++ 0#3 ++ v.extractLsb' 0 12 = v &&& 0x003F8FFF#32 := by
  refine BitVec.eq_of_getLsbD_eq fun k hk => ?_
  simp only [BitVec.getLsbD_append]
  interval_cases k <;> simp

theorem timeoutWord_of_write (v : Word) : 0#16 ++ v.extractLsb' 0 16 = v &&& 0x0000FFFF#32 := by
  refine BitVec.eq_of_getLsbD_eq fun k hk => ?_
  simp only [BitVec.getLsbD_append]
  interval_cases k <;> simp

/-- Settles O39: each word read is the fields stored, put back at their bits. -/
theorem writtenFieldsReadBack : Obligations.WrittenFieldsReadBack := by
  intro s v env
  refine ⟨⟨_, rfl, ?_⟩, ⟨_, rfl, timingWord_of_write v, rfl⟩, ⟨_, rfl, timeoutWord_of_write v, rfl⟩, ⟨_, rfl, rfl, rfl⟩,
    ⟨_, rfl, rfl, rfl⟩⟩
  rw [readReg, State.applyI2c_i2c, I2cState.ctrlWord, I2cState.writeCtrl_en]
  exact ctrlWord_of_write v

/-! ### Ticks that are not enabled (log 4) -/

/-- Settles O32: no state listed has a tick enabled. -/
theorem disabledTicksChangeNothing : Obligations.DisabledTicksChangeNothing := by
  refine fun s rest => ⟨fun env hs hst => ?_, fun a content hs hidle => ?_⟩
  · have hoff : s.i2c.tickEnabled = false := by rcases hst with h | h | h | h <;> simp [I2cState.tickEnabled, h]
    rw [step_i2cTick s env rest hs, I2cState.tick, if_neg (by simp [hoff]), State.applyI2c_quiet]
    rfl
  · rw [step_flTick s a content rest hs]
    simp only [FlashState.tick, hidle]
    rfl

/-! ### The stop condition (40_i2c_master.md R172, R173) -/

theorem runSteps_succ {n : Nat} {s t : State} (h : step s = .next t) : runSteps (n + 1) s = runSteps n t := by
  rw [runSteps, h]

/-- The step of the phase that I2CM stands in while it makes the stop condition. -/
theorem step_of_stopping {s : State} {env : BusLines} {rest : List Turn} (hs : s.sched = .i2cTick env :: rest)
    (hst : s.i2c.st = .stopping) :
    (s.i2c.ph = .p0 → step s = .next { s with sched := rest, i2c := { s.i2c with sdaDrv := true, ph := .p1 } }) ∧
    (s.i2c.ph = .p1 → step s = .next { s with sched := rest, i2c := { s.i2c with sclDrv := false, ph := .p2 } }) ∧
    (s.i2c.ph = .p2 → s.i2c.sclDrv = false → env.scl = true →
      step s = .next { s with sched := rest, i2c := { s.i2c with ph := .p3, wcnt := 0#16 } }) ∧
    (s.i2c.ph = .p3 → s.i2c.spend = false →
      step s = .next { s with
        sched := rest, trace := s.trace ++ [.stop], i2c := { s.i2c with sdaDrv := false, st := .idle, ph := .noPhase } }) ∧
    (s.i2c.ph = .p3 → s.i2c.spend = true →
      step s = .next { s with
        sched := rest, trace := s.trace ++ [.stop]
        i2c := { s.i2c with sdaDrv := false, spend := false, st := .starting, ph := .s0, wcnt := 0#16 } }) := by
  rw [step_phaseAction hs (I2cState.tickEnabled_of_stopping hst)]
  refine ⟨fun hph => ?_, fun hph => ?_, fun hph hscl henv => ?_, fun hph hspend => ?_, fun hph hspend => ?_⟩ <;>
    simp only [I2cState.phaseAction, hph]
  · rw [I2cState.phaseP0, State.applyI2c_quiet]
    rfl
  · rw [I2cState.phaseP1, State.applyI2c_quiet]
    rfl
  · rw [I2cState.phaseP2, I2cState.wait_passed _ (I2cState.sclLevel_of_released hscl henv), State.applyI2c_quiet]
    rfl
  · rw [I2cState.phaseP3, if_neg (by simp [hspend])]
    rfl
  · rw [I2cState.phaseP3, if_pos hspend]
    rfl

/-- P0, P1 and P2, SCL high at the third sample. -/
theorem runSteps_to_p3 {s : State} {e0 e1 e2 : BusLines} {rest : List Turn}
    (hs : s.sched = .i2cTick e0 :: .i2cTick e1 :: .i2cTick e2 :: rest) (hst : s.i2c.st = .stopping)
    (hph : s.i2c.ph = .p0) (hscl : e2.scl = true) :
    runSteps 3 s = .next { s with
      sched := rest, i2c := { s.i2c with sclDrv := false, sdaDrv := true, wcnt := 0#16, ph := .p3 } } := by
  obtain ⟨p0, -⟩ := step_of_stopping hs hst
  rw [runSteps_succ (p0 hph)]
  obtain ⟨-, p1, -⟩ := step_of_stopping (s := { s with sched := _, i2c := { s.i2c with sdaDrv := true, ph := .p1 } }) rfl hst
  rw [runSteps_succ (p1 rfl)]
  obtain ⟨-, -, p2, -⟩ := step_of_stopping
    (s := { s with sched := _, i2c := { s.i2c with sdaDrv := true, sclDrv := false, ph := .p2 } }) rfl hst
  rw [runSteps_succ (p2 rfl rfl hscl)]
  rfl

/-- Settles O26: three ticks come to P3, which makes the stop and takes up a pending start. -/
theorem stopConditionTakesFourTicks : Obligations.StopConditionTakesFourTicks := by
  intro s e0 e1 e2 e3 rest hs hst hph hscl
  have hp3 := runSteps_to_p3 hs hst hph hscl
  obtain ⟨-, -, -, idle, pending⟩ := step_of_stopping
    (s := { s with
      sched := .i2cTick e3 :: rest
      i2c := { s.i2c with sclDrv := false, sdaDrv := true, wcnt := 0#16, ph := .p3 } }) rfl hst
  refine ⟨fun hspend => ?_, fun hspend => ?_⟩ <;> rw [runSteps_add 3 1 s _ hp3]
  · rw [runSteps_succ (idle rfl hspend)]
    rfl
  · rw [runSteps_succ (pending rfl hspend)]
    rfl

end Sys2Proof.Machine
end

section
/-! PROOFS. Key words, accepted operations, and their ticks from ISSUE to the end (41_flash_programmer.md R211 to R218,
R225 to R229). -/

namespace Sys2Proof.Machine

/-! ### Key words (41_flash_programmer.md R211, R213) -/

theorem FlashState.keyWord_eq (p : Params) (v : Word) (f : FlashState) : f.keyWord p v =
    if f.locked = false then f
    else if f.keyseq = false then if v = p.key1 then { f with keyseq := true } else f.withCmdError .key
    else if v = p.key2 then { f with keyseq := false, locked := false }
    else { f with keyseq := false, cmderr := true, errcode := f.captured .key } := by
  simp only [keyWord, Bool.not_eq_true', raise_of_cmderr _ (c := .key) rfl]
  rfl

theorem FlashState.keyWord_first {p : Params} {v : Word} {f : FlashState} (hlocked : f.locked = true)
    (hkeyseq : f.keyseq = false) (hv : v = p.key1) : f.keyWord p v = { f with keyseq := true } := by
  rw [keyWord_eq, if_neg (by simp [hlocked]), if_pos hkeyseq, if_pos hv]

theorem FlashState.keyWord_second {p : Params} {v : Word} {f : FlashState} (hlocked : f.locked = true)
    (hkeyseq : f.keyseq = true) (hv : v = p.key2) : f.keyWord p v = { f with keyseq := false, locked := false } := by
  rw [keyWord_eq, if_neg (by simp [hlocked]), if_neg (by simp [hkeyseq]), if_pos hv]

theorem FlashState.keyWord_wrong_second {p : Params} {v : Word} {f : FlashState} (hlocked : f.locked = true)
    (hkeyseq : f.keyseq = true) (hv : v ≠ p.key2) :
    f.keyWord p v = { f with keyseq := false, cmderr := true, errcode := f.captured .key } := by
  rw [keyWord_eq, if_neg (by simp [hlocked]), if_neg (by simp [hkeyseq]), if_neg hv]

/-- Settles O14: the chain of the key word's cases, and two words of it in a row. -/
theorem keyWordsUnlockInSequence : Obligations.KeyWordsUnlockInSequence := by
  refine ⟨fun s v => ?_, fun s hlocked hkeyseq => ⟨_, rfl, ?_, fun hv => ?_⟩⟩
  · rw [exec, execFlKey, FlashState.keyWord_eq]
  all_goals
    simp only [exec, execFlKey, State.setFl_fl, State.setFl_params, FlashState.keyWord_first hlocked hkeyseq rfl]
  · rw [FlashState.keyWord_second (f := { s.fl with keyseq := true }) hlocked rfl rfl, ← hkeyseq]
    rfl
  · obtain ⟨-, -, -, -, -, -, -, -, hkeys, -⟩ := s.params.valid_iff.1 hv
    rw [FlashState.keyWord_wrong_second (f := { s.fl with keyseq := true }) hlocked rfl hkeys, ← hkeyseq]
    rfl

/-! ### An accepted operation (41_flash_programmer.md R217, R218) -/

theorem FlashState.operate_of_checked {p : Params} {k : FlKind} {f : FlashState} (hidle : f.opstate = .idle)
    (hunlocked : f.locked = false) (hchecked : addressError p k f.addr.toNat = none) : f.operate p k = f.accept k := by
  simp [operate, rejection, bsy, hidle, hunlocked, hchecked]

theorem FlashState.statWord_of_accept (k : FlKind) (f : FlashState) :
    (f.accept k).statWord.getLsbD 0 = true ∧ (f.accept k).statWord.extractLsb' 16 2 = k.opstate.code := by
  obtain ⟨hbsy, -⟩ := (f.accept k).statWord_flags
  exact ⟨hbsy.trans (by cases k <;> rfl), (f.accept k).statWord_opstate⟩

/-- Settles O15: the address passes the checks of an erase. -/
theorem erasePageStartsOnACheckedPage : Obligations.ErasePageStartsOnACheckedPage := by
  intro s hidle hunlocked hlo hhi hpage hwrp
  have hchecked : addressError s.params .erase s.fl.addr.toNat = none :=
    (addressError_eq_none_iff _ _ _).2 ⟨(inRegion_iff _ _).2 ⟨hlo, hhi⟩, beq_iff_eq.2 hpage, hwrp⟩
  rw [exec, execFlErasePage, FlashState.operate_of_checked hidle hunlocked hchecked]
  exact ⟨_, rfl, rfl, s.fl.statWord_of_accept .erase⟩

/-- Settles O16: the address passes the checks of a program. -/
theorem programWordStartsOnACheckedWord : Obligations.ProgramWordStartsOnACheckedWord := by
  intro s hidle hunlocked hlo hhi hword hwrp
  have hchecked : addressError s.params .program s.fl.addr.toNat = none :=
    (addressError_eq_none_iff _ _ _).2 ⟨(inRegion_iff _ _).2 ⟨hlo, hhi⟩, beq_iff_eq.2 hword, hwrp⟩
  rw [exec, execFlProgramWord, FlashState.operate_of_checked hidle hunlocked hchecked]
  exact ⟨_, rfl, rfl, s.fl.statWord_of_accept .program⟩

/-! ### ISSUE (41_flash_programmer.md R225) -/

theorem FlashState.tick_issue (p : Params) (a : ArrayAnswer) (content : List Byte) {f : FlashState} (m : Cells)
    {kind : FlKind} (hph : f.ph = .issue) (hop : f.opstate = kind.opstate) : f.tick p a content m = f.issue m := by
  cases kind <;> simp [tick, hph, hop, FlKind.opstate]

theorem FlashState.issue_rejects {f : FlashState} {m : Cells} (hkind : f.kind = .program)
    (hdirty : arrayRead m f.opAddr.toNat 4 ≠ 0xFFFFFFFF) :
    f.issue m =
      ⟨{ f with opstate := .idle, ph := .issue, wcnt := 0, pgerr := true, errcode := f.captured .notErased }, m⟩ := by
  rw [issue, if_pos ⟨hkind, hdirty⟩, raise_finish_of_pgerr _ rfl]

theorem FlashState.issue_drives {f : FlashState} {m : Cells}
    (herased : f.kind = .program → arrayRead m f.opAddr.toNat 4 = 0xFFFFFFFF) :
    f.issue m = ⟨{ f with ph := .await, wcnt := 0 }, m⟩ :=
  if_neg fun ⟨hkind, hdirty⟩ => hdirty (herased hkind)

/-- The port of an operation in AWAIT: its operation, its address and its data (30_encoding.md R113). -/
theorem port_of_await {s : State} {kind : FlKind} (hkind : s.fl.kind = kind) (hop : s.fl.opstate = kind.opstate)
    (hph : s.fl.ph = .await) :
    s.fl.arrayOp = kind.arrayOp ∧ s.aAddr = some s.fl.opAddr.toNat ∧ s.aWdata = some s.fl.opData := by
  cases kind <;>
    simp [FlashState.arrayOp, State.aAddr, State.aWdata, FlashState.bsy, FlashState.targetBase, hkind, hop, hph,
      FlKind.opstate]

/-- Settles O34: the one test of ISSUE fails or not, and what is driven is the port of AWAIT. -/
theorem issueTestsAProgramTarget : Obligations.IssueTestsAProgramTarget := by
  intro s a content rest hs hph
  have issued {kind : FlKind} (hop : s.fl.opstate = kind.opstate) :
      step s = .next ({ s with sched := rest }.applyFl (s.fl.issue s.array)) := by
    rw [step_flTick s a content rest hs, FlashState.tick_issue _ _ _ _ hph hop]
  have driven {kind : FlKind} (hkind : s.fl.kind = kind) (hop : s.fl.opstate = kind.opstate)
      (herased : s.fl.kind = .program → arrayRead s.array s.fl.opAddr.toNat 4 = 0xFFFFFFFF) :
      ∃ t, step s = .next t ∧ t = { s with sched := rest, fl := { s.fl with ph := .await, wcnt := 0 } } ∧
        t.fl.arrayOp = kind.arrayOp ∧ t.aAddr = some s.fl.opAddr.toNat ∧ t.aWdata = some s.fl.opData := by
    rw [issued hop, FlashState.issue_drives herased]
    exact ⟨_, rfl, rfl, port_of_await (s := { s with sched := rest, fl := { s.fl with ph := .await, wcnt := 0 } })
      hkind hop rfl⟩
  refine ⟨fun hop hkind hdirty => ?_, fun hop hkind herased => driven hkind hop fun _ => herased,
    fun hop hkind => driven hkind hop fun h => absurd (hkind.symm.trans h) nofun⟩
  rw [issued (kind := .program) hop, FlashState.issue_rejects hkind hdirty]
  rfl

/-! ### Three ticks of an operation that the array answers OK (41_flash_programmer.md R225 to R228) -/

/-- Four bytes that are the lanes of a word read as the word (20_memory.md R84, 30_encoding.md R128). -/
theorem arrayRead_of_lanes {m : Cells} {a : Nat} {v : Word}
    (h : ∀ k, k < 4 → readByte m (a + k) = intendedByte .program v k) : arrayRead m a 4 = v.toNat := by
  have lane (k : Nat) (hk : k < 4) : (readByte m (a + k)).toNat = v.toNat / 2 ^ (8 * k) % 256 := by
    rw [h k hk, intendedByte, BitVec.extractLsb'_toNat, Nat.shiftRight_eq_div_pow]
  have h0 := lane 0 (by omega)
  have h1 := lane 1 (by omega)
  have h2 := lane 2 (by omega)
  have h3 := lane 3 (by omega)
  have hv := v.isLt
  simp only [Nat.reduceMul, Nat.reducePow, Nat.add_zero, Nat.div_one] at h0 h1 h2 h3
  rw [arrayRead_four]
  omega

/-- Settles O37: ISSUE drives the array, AWAIT writes the target as intended, and VERIFY finds it so. -/
theorem successfulOperationWritesItsTarget : Obligations.SuccessfulOperationWritesItsTarget := by
  intro s kind a0 a2 c0 c1 c2 rest hkind hop hph herased hs
  have issued : step s = .next { s with
      sched := .flTick .ok c1 :: .flTick a2 c2 :: rest, fl := { s.fl with ph := .await, wcnt := 0 } } := by
    rw [step_flTick s a0 c0 _ hs, FlashState.tick_issue _ _ _ _ hph hop,
      FlashState.issue_drives fun h => herased (hkind.symm.trans h)]
    rfl
  obtain ⟨t, answered, -, outside, -, -, ht, -, written, -⟩ := awaitTickActsOnTheArraysAnswer
    { s with sched := .flTick .ok c1 :: .flTick a2 c2 :: rest, fl := { s.fl with ph := .await, wcnt := 0 } }
    .ok c1 (.flTick a2 c2 :: rest) kind rfl rfl hkind hop
  have intended := written rfl
  generalize t.array = m at ht outside intended
  obtain rfl := ht (.inl rfl)
  obtain ⟨-, verified, -⟩ := verifyComparesEveryByte { s with
    sched := .flTick a2 c2 :: rest, array := m, fl := { s.fl with opstate := .verify, ph := .await, wcnt := 0 } }
    a2 c2 rest rfl rfl
  have run : runSteps 3 s = .next { s with
      sched := rest, array := m, fl := { s.fl with opstate := .idle, ph := .issue, wcnt := 0, eop := true } } := by
    subst hkind
    rw [runSteps_succ issued, runSteps_succ answered, runSteps_succ (verified intended)]
    rfl
  refine ⟨_, run, rfl, ?_, ?_, outside⟩
  · rintro rfl
    exact intended
  · rintro rfl
    exact arrayRead_of_lanes intended

/-! ### At most FLASH_OP_TIMEOUT + 2 ticks (41_flash_programmer.md R229) -/

/-- The ticks that end the operation whatever the array answers: ISSUE, the budget of AWAIT, and VERIFY. -/
def FlashState.ticksToIdle (p : Params) (f : FlashState) : Nat :=
  match f.opstate, f.ph with
  | .idle, _ => 0
  | .verify, _ => 1
  | .erase, .issue | .program, .issue => p.flashOpTimeout + 2
  | .erase, .await | .program, .await => p.flashOpTimeout - (f.wcnt + 1) + 2

theorem FlashState.ticksToIdle_eq_zero_iff (p : Params) (f : FlashState) : f.ticksToIdle p = 0 ↔ f.opstate = .idle := by
  unfold ticksToIdle
  split <;> simp_all

theorem FlashState.ticksToIdle_issue {p : Params} {f : FlashState} (m : Cells) (hp : 1 ≤ p.flashOpTimeout)
    (hop : f.opstate = .erase ∨ f.opstate = .program) : (f.issue m).fl.ticksToIdle p ≤ p.flashOpTimeout + 1 := by
  unfold issue
  split
  · exact Nat.zero_le _
  · rcases hop with hop | hop <;> simp only [ticksToIdle, hop] <;> omega

theorem FlashState.ticksToIdle_awaitStatus {p : Params} {f : FlashState} (hph : f.ph = .await)
    (hop : f.opstate = .erase ∨ f.opstate = .program) (status : ArrayStatus) :
    (f.awaitStatus p status).ticksToIdle p ≤ p.flashOpTimeout - (f.wcnt + 1) + 1 := by
  cases status with
  | busy =>
    by_cases hspent : p.flashOpTimeout ≤ f.wcnt + 1
    · rw [awaitStatus, if_pos hspent]
      exact Nat.zero_le _
    · rw [awaitStatus, if_neg hspent]
      rcases hop with hop | hop <;> simp only [ticksToIdle, hop, hph] <;> omega
  | ok => exact Nat.le_add_left 1 _
  | fail => exact Nat.zero_le _

theorem FlashState.ticksToIdle_tick {p : Params} (hp : 1 ≤ p.flashOpTimeout) (a : ArrayAnswer) (content : List Byte)
    (f : FlashState) (m : Cells) : (f.tick p a content m).fl.ticksToIdle p ≤ f.ticksToIdle p - 1 := by
  cases hop : f.opstate <;> cases hph : f.ph <;> simp only [tick, hop, hph]
  case idle.issue | idle.await => simp [ticksToIdle, hop]
  case erase.issue | program.issue =>
    refine (ticksToIdle_issue m hp (by simp [hop])).trans ?_
    simp [ticksToIdle, hop, hph]
  case erase.await | program.await =>
    refine (ticksToIdle_awaitStatus hph (by simp [hop]) a.status).trans ?_
    simp [ticksToIdle, hop, hph]
  case verify.issue | verify.await =>
    unfold verify
    split <;> exact Nat.zero_le _

/-- FPROG ticks in a row, whatever the array answers, use up the ticks an operation has. -/
theorem runSteps_flTicks (answers : List (ArrayAnswer × List Byte)) (rest : List Turn) {s : State}
    (hp : 1 ≤ s.params.flashOpTimeout) (hs : s.sched = answers.map (fun x => Turn.flTick x.1 x.2) ++ rest) :
    ∃ t, runSteps answers.length s = .next t ∧ t.sched = rest ∧
      t.fl.ticksToIdle s.params ≤ s.fl.ticksToIdle s.params - answers.length := by
  induction answers generalizing s with
  | nil => exact ⟨s, rfl, hs, Nat.le_refl _⟩
  | cons x answers ih =>
    have hfirst := step_flTick s x.1 x.2 _ hs
    obtain ⟨t, hrun, hsched, hle⟩ := ih (s := { s with sched := _ }.applyFl _) hp rfl
    refine ⟨t, (runSteps_succ hfirst).trans hrun, hsched, hle.trans ?_⟩
    have hless := FlashState.ticksToIdle_tick hp x.1 x.2 s.fl s.array
    simp only [State.applyFl_fl, State.applyFl_params, List.length_cons]
    omega

/-! ### Rest in every weakly fair run (00_scope.md R12) -/

/-- A key word changes the lock and the errors only. -/
theorem FlashState.keyWord_keeps_operation (p : Params) (v : Word) (f : FlashState) :
    (f.keyWord p v).opstate = f.opstate ∧ (f.keyWord p v).ph = f.ph ∧ (f.keyWord p v).wcnt = f.wcnt := by
  rw [keyWord_eq]
  split_ifs <;> exact ⟨rfl, rfl, rfl⟩

/-- A move that finds FPROG busy and leaves it busy leaves it no more ticks. -/
theorem FlMove.ticksLeft_le {p : Params} {f : FlashState} {m : Cells} {e : FlEffect} (move : FlMove p f m e)
    (hbusy : f.bsy = true) (hstill : e.fl.bsy = true) : e.fl.ticksLeft p ≤ f.ticksLeft p := by
  have raised (c : FlError) : (f.raise c).ticksLeft p = f.ticksLeft p := by simp [FlashState.ticksLeft]
  cases move
  case tick a content => exact (f.ticksLeft_tick p a content m hbusy).le
  case reserved => exact (raised _).le
  case operate k =>
    rcases f.operate_cases p k with ⟨c, -, heq⟩ | ⟨hidle, -, -, -⟩
    · rw [heq]; exact (raised c).le
    · rw [hidle] at hbusy; cases hbusy
  case lock => rw [FlashState.lock, if_pos hbusy]; exact (raised _).le
  case key v =>
    obtain ⟨hop, hph, hwcnt⟩ := f.keyWord_keeps_operation p v
    simp [FlashState.ticksLeft, hop, hph, hwcnt]
  case reset => cases hstill
  all_goals exact Nat.le_refl _

/-- A move that finds I2CM with a tick and leaves it one leaves it no more ticks. -/
theorem I2cMove.ticksLeft_le {i : I2cState} {e : I2cEffect} (m : I2cMove i e)
    (hf : Machine.phaseFits i.st i.ph = true) (hen : i.tickEnabled = true) (hstill : e.i2c.tickEnabled = true) :
    e.i2c.ticksLeft ≤ i.ticksLeft := by
  cases m
  case tick env => exact (i.ticksLeft_tick env hf hen).le
  case ctrl v =>
    unfold I2cState.writeCtrl at hstill ⊢
    split_ifs at hstill ⊢
    · exact Nat.le_refl _
    · cases hstill
    · cases hstill
    · exact Nat.le_refl _
  case error c _ => simp [I2cState.ticksLeft, I2cState.phasesLeft, I2cState.tickEnabled]
  case start _ ha =>
    have hidle : i.st ≠ .idle := by intro h; simp [I2cState.tickEnabled, h] at hen
    rw [I2cState.acceptStart, if_neg hidle]
    exact Nat.le_refl _
  case addrw a _ hst => simp [I2cState.tickEnabled, hst] at hen
  case write b _ hst => simp [I2cState.tickEnabled, hst] at hen
  case stop _ ha =>
    have hst : i.st = .started ∨ i.st = .ready := by simpa [I2cState.allowsStop] using ha
    exact absurd hen (by simp [I2cState.tickEnabled_of_waited hst])
  case reset => cases hstill
  all_goals exact Nat.le_refl _

/-- A sequence of states in which each follows by a turn, whoever chose the host's accesses. -/
def Advancing (turns : Nat → Turn) (states : Nat → State) : Prop :=
  ∀ n, Advances (turns n) (states n) (states (n + 1))

theorem Advancing.phaseFits {turns : Nat → Turn} {states : Nat → State} (h : Advancing turns states)
    (h0 : Machine.phaseFits (states 0).i2c.st (states 0).i2c.ph = true) (n : Nat) :
    Machine.phaseFits (states n).i2c.st (states n).i2c.ph = true := by
  induction n with
  | zero => exact h0
  | succ n ih =>
    obtain ⟨e, m, heq, -⟩ := (h n).moves.i2c
    rw [heq]
    exact m.phaseFits ih

theorem Advancing.fl_rests {turns : Nat → Turn} {states : Nat → State} (h : Advancing turns states)
    (hfair : WeaklyFair turns states) (N : Nat) : ∃ n, N ≤ n ∧ (states n).fl.bsy = false := by
  obtain ⟨-, hfl⟩ := hfair
  refine hfl.leaves (fun s => s.fl.ticksLeft s.params) (fun n hbusy hstill => ?_) (fun n hbusy _ htick => ?_) N
  · obtain ⟨hparams, -, -, e, move, heq, -⟩ := (h n).moves
    simp only [heq, hparams] at hstill ⊢
    exact move.ticksLeft_le hbusy hstill
  · have hparams := (h n).moves.params
    cases hturn : turns n <;> rw [hturn] at htick
    case flTick a content =>
      simp only [(h n).flTick a content hturn, hparams]
      exact FlashState.ticksLeft_tick _ a content _ _ hbusy
    all_goals cases htick

theorem Advancing.i2c_rests {turns : Nat → Turn} {states : Nat → State} (h : Advancing turns states)
    (hfair : WeaklyFair turns states) (hinv : (states 0).i2c.Inv) (N : Nat) :
    ∃ n, N ≤ n ∧ (states n).i2c.tickEnabled = false := by
  obtain ⟨hi2c, -⟩ := hfair
  have fits := h.phaseFits hinv.phase
  refine hi2c.leaves (fun s => s.i2c.ticksLeft) (fun n hen hstill => ?_) (fun n hen _ htick => ?_) N
  · obtain ⟨-, -, ⟨e, m, heq, -⟩, -⟩ := (h n).moves
    simp only [heq] at hstill ⊢
    exact m.ticksLeft_le (fits n) hen hstill
  · cases hturn : turns n <;> rw [hturn] at htick
    case i2cTick env =>
      simp only [(h n).i2cTick env hturn]
      exact I2cState.ticksLeft_tick _ env (fits n) hen
    all_goals cases htick

/-- Settles O38: the ticks an operation has bound it, and by the measures of both engines a fair run comes to rest. -/
theorem operationEndsWithinItsBudget : Obligations.OperationEndsWithinItsBudget := by
  refine ⟨fun s answers rest hp _ hph hlen hs => ?_,
    fun turns accesses states hrun hfair => ?_, fun turns systems hrun hfair => ?_⟩
  · obtain ⟨t, hrun, hsched, hle⟩ := runSteps_flTicks answers rest hp hs
    have hleft : s.fl.ticksToIdle s.params ≤ s.params.flashOpTimeout + 2 := by
      cases hopstate : s.fl.opstate <;> simp [FlashState.ticksToIdle, hopstate, hph]
    rw [hlen] at hrun hle
    exact ⟨t, hrun, (FlashState.ticksToIdle_eq_zero_iff s.params t.fl).1 (by omega), hsched⟩
  · have h : Advancing turns states := hrun.advances
    exact ⟨h.fl_rests hfair, h.i2c_rests hfair⟩
  · have h : Advancing turns fun n => (systems n).block := hrun.advances
    exact ⟨h.fl_rests hfair, h.i2c_rests hfair⟩

end Sys2Proof.Machine
end

section
/-! PROOFS. A whole frame: eight data bits of four ticks each, and the acknowledge (40_i2c_master.md R164 to R171). -/

namespace Sys2Proof.Machine

theorem exists_four_of_length {α : Type} {xs : List α} {n : Nat} (h : xs.length = n + 4) :
    ∃ a b c d ys, xs = a :: b :: c :: d :: ys ∧ ys.length = n := by
  match xs, h with
  | a :: b :: c :: d :: ys, h => exact ⟨a, b, c, d, ys, rfl, by simpa using h⟩

/-- What I2CM is after the top `k` bits of a frame are shifted out, before the next phase. -/
def I2cState.bitsSent (i : I2cState) (sda : Bool) (k : Nat) (ph : I2cPhase) : I2cState :=
  { i with sclDrv := true, sdaDrv := sda, shreg := i.shreg <<< k, bitcnt := i.bitcnt - k, wcnt := 0#16, ph := ph }

/-- The four phases of a data bit, SCL high at the third sample. -/
theorem runSteps_dataBit {s : State} {e0 e1 e2 e3 : BusLines} {rest : List Turn} {n : Nat}
    (hs : s.sched = .i2cTick e0 :: .i2cTick e1 :: .i2cTick e2 :: .i2cTick e3 :: rest)
    (hst : s.i2c.st = .addressing ∨ s.i2c.st = .transmitting) (hph : s.i2c.ph = .b0) (hbits : s.i2c.bitcnt = n + 1)
    (hscl : e2.scl = true) :
    ∃ sda, runSteps 4 s =
      .next { s with sched := rest, i2c := s.i2c.bitsSent sda 1 (if n = 0 then .a0 else .b0) } := by
  obtain ⟨b0, -⟩ := dataBitPhases s e0 _ hs hst
  generalize (if s.i2c.shreg.getLsbD 7 = false then true else false) = sda at b0
  obtain ⟨-, b1, -⟩ := dataBitPhases { s with sched := _, i2c := { s.i2c with sdaDrv := sda, ph := .b1 } } e1 _ rfl hst
  obtain ⟨-, -, b2, -⟩ := dataBitPhases
    { s with sched := _, i2c := { s.i2c with sdaDrv := sda, sclDrv := false, ph := .b2 } } e2 _ rfl hst
  obtain ⟨-, -, -, b3⟩ := dataBitPhases
    { s with sched := _, i2c := { s.i2c with sdaDrv := sda, sclDrv := false, ph := .b3, wcnt := 0#16 } } e3 _ rfl hst
  refine ⟨sda, ?_⟩
  rw [runSteps_succ (b0 hph), runSteps_succ (b1 rfl), runSteps_succ (b2 rfl rfl hscl), runSteps_succ (b3 rfl n hbits),
    I2cState.bitsSent, byte_shiftLeft_one, hbits]
  rfl

/-- The remaining data bits, one after the other, to the acknowledge. -/
theorem runSteps_dataBits (n : Nat) {s : State} {envs : List BusLines} {rest : List Turn}
    (hlen : envs.length = 4 * (n + 1)) (hs : s.sched = envs.map Turn.i2cTick ++ rest)
    (hst : s.i2c.st = .addressing ∨ s.i2c.st = .transmitting) (hph : s.i2c.ph = .b0) (hbits : s.i2c.bitcnt = n + 1)
    (hscl : ∀ e ∈ envs, e.scl = true) :
    ∃ sda, runSteps (4 * (n + 1)) s = .next { s with sched := rest, i2c := s.i2c.bitsSent sda (n + 1) .a0 } := by
  induction n generalizing s envs with
  | zero =>
    obtain ⟨e0, e1, e2, e3, ys, rfl, hys⟩ := exists_four_of_length (n := 0) hlen
    obtain rfl := List.length_eq_zero_iff.1 hys
    exact runSteps_dataBit hs hst hph hbits (hscl e2 (by simp))
  | succ n ih =>
    obtain ⟨e0, e1, e2, e3, ys, rfl, hys⟩ := exists_four_of_length (n := 4 * (n + 1)) hlen
    obtain ⟨sda, hfirst⟩ := runSteps_dataBit hs hst hph hbits (hscl e2 (by simp))
    obtain ⟨sda', hothers⟩ := ih (s := { s with sched := _, i2c := s.i2c.bitsSent sda 1 .b0 }) hys rfl hst rfl
      (by rw [I2cState.bitsSent, hbits]; rfl) fun e he => hscl e (by simp [he])
    rw [if_neg (Nat.succ_ne_zero n)] at hfirst
    have hboth : runSteps (4 + 4 * (n + 1)) s = _ := (runSteps_add 4 _ s _ hfirst).trans hothers
    refine ⟨sda', ?_⟩
    rw [show 4 * (n + 1 + 1) = 4 + 4 * (n + 1) by omega, hboth]
    simp only [I2cState.bitsSent, ← BitVec.shiftLeft_add, Nat.sub_sub, Nat.add_comm 1]

/-- The four phases of the acknowledge, SCL high at the third sample, whose SDA is the answer. -/
theorem runSteps_acknowledge {s : State} {e0 e1 e2 e3 : BusLines} {rest : List Turn}
    (hs : s.sched = .i2cTick e0 :: .i2cTick e1 :: .i2cTick e2 :: .i2cTick e3 :: rest)
    (hst : s.i2c.st = .addressing ∨ s.i2c.st = .transmitting) (hph : s.i2c.ph = .a0) (hscl : e2.scl = true) :
    (e2.sda = false → runSteps 4 s = .next { s with
      sched := rest, trace := s.trace ++ [.frame s.i2c.txbyte true]
      i2c := { s.i2c with
        sdaDrv := false, ack := true, wcnt := 0#16, sclDrv := true, sent := decide (s.i2c.st = .transmitting)
        st := .ready, ph := .noPhase } }) ∧
    (e2.sda = true → runSteps 4 s = .next { s with
      sched := rest, trace := s.trace ++ [.frame s.i2c.txbyte false]
      i2c := { s.i2c with
        sdaDrv := false, ack := false, wcnt := 0#16, sclDrv := true, st := .stopping, ph := .p0, nackf := true
        errcode :=
          if s.i2c.nackf = false ∧ s.i2c.tof = false ∧ s.i2c.cmderr = false then
            some (if s.i2c.st = .addressing then .nackAddr else .nackData)
          else s.i2c.errcode } }) := by
  obtain ⟨a0, -⟩ := acknowledgePhases s e0 _ hs hst
  obtain ⟨-, a1, -⟩ := acknowledgePhases
    { s with sched := _, i2c := { s.i2c with sdaDrv := false, ph := .a1 } } e1 _ rfl hst
  obtain ⟨-, -, a2, -⟩ := acknowledgePhases
    { s with sched := _, i2c := { s.i2c with sdaDrv := false, sclDrv := false, ph := .a2 } } e2 _ rfl hst
  obtain ⟨-, -, -, acked, nacked⟩ := acknowledgePhases
    { s with
      sched := _, trace := s.trace ++ [.frame s.i2c.txbyte (!e2.sda)]
      i2c := { s.i2c with sdaDrv := false, sclDrv := false, ack := !e2.sda, ph := .a3, wcnt := 0#16 } } e3 _ rfl hst
  rw [runSteps_succ (a0 hph), runSteps_succ (a1 rfl), runSteps_succ (a2 rfl rfl rfl hscl)]
  refine ⟨fun hsda => ?_, fun hsda => ?_⟩ <;> rw [hsda] at acked nacked ⊢
  · rw [runSteps_succ (acked rfl rfl)]
    rfl
  · rw [runSteps_succ (nacked rfl rfl)]
    rfl

/-- Settles O29: eight bits and the acknowledge. -/
theorem frameTakesThirtySixTicks : Obligations.FrameTakesThirtySixTicks := by
  intro s b envs rest ackSample hst hph hbits hshreg htx hwcnt hlen hscl hack hs
  obtain ⟨e0, e1, e2, e3, ys, hlast, hys⟩ := exists_four_of_length (xs := envs.drop 32) (n := 0) (by simp [hlen])
  obtain rfl := List.length_eq_zero_iff.1 hys
  have henvs : envs = envs.take 32 ++ [e0, e1, e2, e3] := by rw [← hlast, List.take_append_drop]
  have he2 : e2 = ackSample := by
    have h34 : (envs.drop 32)[2]? = some ackSample := by rw [List.getElem?_drop, hack]
    simpa [hlast] using h34
  have hturns : s.sched = (envs.take 32).map Turn.i2cTick ++
      .i2cTick e0 :: .i2cTick e1 :: .i2cTick e2 :: .i2cTick e3 :: rest := by
    conv_lhs => rw [hs, henvs, List.map_append, List.append_assoc]
    rfl
  obtain ⟨sda, hdata⟩ := runSteps_dataBits 7 (by simp [hlen]) hturns hst hph hbits
    fun e he => hscl e (List.mem_of_mem_take he)
  have hend := runSteps_acknowledge (e0 := e0) (e1 := e1) (e3 := e3) (rest := rest)
    (s := { s with sched := _, i2c := s.i2c.bitsSent sda 8 .a0 }) rfl hst rfl (hscl e2 (by rw [henvs]; simp))
  rw [he2] at hend hdata
  have hshreg' : s.i2c.shreg <<< 8 = 0#8 := by rw [BitVec.shiftLeft_eq_zero (by decide)]
  refine ⟨fun hsda => ?_, fun hsda => ?_⟩
  · have hrun : runSteps (32 + 4) s = _ := (runSteps_add 32 4 s _ hdata).trans (hend.1 hsda)
    rw [hrun]
    simp only [I2cState.bitsSent, hshreg', htx, hbits, hwcnt]
  · have hrun : runSteps (32 + 4) s = _ := (runSteps_add 32 4 s _ hdata).trans (hend.2 hsda)
    rw [hrun]
    simp only [I2cState.bitsSent, hshreg', htx, hbits, hwcnt]

end Sys2Proof.Machine
end

section
/-! PROOFS. The names of a program, and one read of a WAIT (42_driver_sequences.md R262). -/

namespace Sys2Proof.Machine

theorem lookupName_filter_other (m : Bindings) {x z : String} (hne : x ≠ z) :
    lookupName (m.filter fun c => c.1 != x) z = lookupName m z := by
  induction m with
  | nil => rfl
  | cons c m ih =>
    by_cases hx : c.1 = x
    · rw [List.filter_cons_of_neg (by simp [hx]), ih, lookupName, if_neg (by rwa [hx])]
    · rw [List.filter_cons_of_pos (by simp [hx]), lookupName, lookupName, ih]

@[simp] theorem lookupName_bindName_self (m : Bindings) (x : String) (v : Nat) : lookupName (bindName m x v) x = v := by
  simp [bindName, lookupName]

theorem lookupName_bindName_other (m : Bindings) {x z : String} (v : Nat) (hne : x ≠ z) :
    lookupName (bindName m x v) z = lookupName m z := by
  rw [bindName, lookupName, if_neg hne, lookupName_filter_other m hne]

namespace HostCtx

theorem answered_wait {c : HostCtx} {rest : List HostFrame} {r : Reg} {mask val errmask : Expr} {x : Option String}
    (hc : c.stack = .run (.wait r mask val errmask x) :: rest) (v : Nat) :
    c.answered v =
      c.waitRead rest r (evalExpr c.names mask) (evalExpr c.names val) (evalExpr c.names errmask) x v := by
  simp only [answered, hc]

theorem setOpt_frame (c : HostCtx) (x : Option String) (v : Nat) :
    (c.setOpt x v).stack = c.stack ∧ (c.setOpt x v).result = c.result ∧ (c.setOpt x v).payload = c.payload := by
  cases x <;> exact ⟨rfl, rfl, rfl⟩

theorem lookupName_setOpt_self (c : HostCtx) {x : Option String} (v : Nat) (y : String) (hx : x = some y) :
    lookupName (c.setOpt x v).names y = v := by
  rw [hx]
  exact lookupName_bindName_self c.names y v

theorem lookupName_setOpt_other (c : HostCtx) {x : Option String} (v : Nat) (z : String) (hx : x ≠ some z) :
    lookupName (c.setOpt x v).names z = lookupName c.names z := by
  cases x with
  | none => rfl
  | some y => exact lookupName_bindName_other c.names v fun h => hx (by rw [h])

end HostCtx

/-- Settles O60: the three outcomes of a read, by the order of the tests of `HostCtx.waitRead`. -/
theorem waitTestsErrorsFirst : Obligations.WaitTestsErrorsFirst := by
  intro c rest r mask val errmask x v hc
  rw [HostCtx.answered_wait hc, HostCtx.waitRead]
  refine ⟨fun herr => ?_, fun hclean hpass => ?_, fun hclean hfail => ?_⟩
  · rw [if_pos herr]
    rfl
  · rw [if_neg (not_not.2 hclean), if_pos hpass]
    obtain ⟨hstack, hresult, hpayload⟩ := HostCtx.setOpt_frame { c with stack := rest } x v
    exact ⟨hstack, hresult, hpayload, HostCtx.lookupName_setOpt_self _ v, HostCtx.lookupName_setOpt_other _ v⟩
  · rw [if_neg (not_not.2 hclean), if_neg hfail]

end Sys2Proof.Machine
end
